-- ==== Sys2Proof/Word.lean ====
section
/-! DEFINITION. The parameters of R6, and the widths of the block (R6, R21, R24 to R29, R70), which read them. Every value
is unsigned (R7, R125). -/

namespace Sys2Proof

/-- The implementation parameters of R6 with a given default, each under its own name with the source's literal as that
default (D25). `OWN_ADDR`, which has none, is `Config.ownAddr` of Config.lean. -/
structure Config.Params where
  /-- `DEVICE_ID`, read by the AddressCodec (R121). -/
  deviceId   : BitVec 4 := 10#4
  /-- `SEL_W`, the width of `Sel`. -/
  selW       : Nat := 2
  /-- `RADDR_W`, the width of `Addr16`. -/
  raddrW     : Nat := 16
  /-- `DATA_W`, the width of `Byte`. -/
  dataW      : Nat := 8
  /-- `PAGE_TXN`, read by the ROM's address words and the transactions' traces (R23, R139). -/
  pageTxn    : BitVec 1 := 0#1
  /-- `POLL_BUDGET`, read by TimeoutPoll (R91, R92). -/
  pollBudget : Nat := 240
  /-- `TIME_UNIT` in microseconds; no rule reads it (R5, R182). -/
  timeUnit   : Nat := 1
  /-- `BIT_RATE`; no rule reads it (R4 (c)). -/
  bitRate    : Nat := 100000
  /-- `CORE_CLOCK`; no rule reads it (R4 (c)). -/
  coreClock  : Nat := 40000000
  /-- `BAUD_CONST`, read by UINIT's record (R101). -/
  baudConst  : Nat := 363
  deriving DecidableEq, Repr

/-- The parameters of this machine: the defaults of R6. Reducible, because the word types read it. -/
abbrev Config.params : Config.Params := {}

/-- One bit: a PIF request, level or status port (R32, R33, R35), `pageSelect`, `operation` (R120). -/
abbrev Bit := BitVec 1

/-- A byte of `DATA_W` bits: a data byte, a ROM location, a micro-operation word (R6, R34, R76). -/
abbrev Byte := BitVec Config.params.dataW

/-- A register address of `RADDR_W` bits (R6, R21). -/
abbrev Addr16 := BitVec Config.params.raddrW

/-- A device select of `SEL_W` bits (R6, R21). -/
abbrev Sel := BitVec Config.params.selW

/-- A host command word, format H (R74). -/
abbrev CmdWord := BitVec 32

/-- The micro-program counter, 6 bits (R24). -/
abbrev Upc := BitVec 6

/-- `TO_MAP`, one bit for each poll of a routine (R29). -/
abbrev ToMap := BitVec 12

end Sys2Proof
end

