-- ==== Sys2Proof/Syntax.lean ====
section
/-! DEFINITION. The instructions: one constructor for each row of spec/opcode_table.json (R74, R78), the words they are
coded in (R70), and the assembler's source terms with operands of any size (R82). -/

namespace Sys2Proof

/-- The three host commands of format H and the micro-operations of format U. A command carries every field of its
word, the ignored ones too, because acceptance latches them all (R75, R130, D27). -/
inductive Instr
  /-- INIT, `op = 0x1` (R134). All three fields are ignored by its routine. -/
  | init (sel : Sel) (raddr : Addr16) (data : Byte)
  /-- WRREG, `op = 0x2` (R132). -/
  | wrreg (sel : Sel) (raddr : Addr16) (data : Byte)
  /-- RDREG, `op = 0x3` (R133). `data` is ignored by its routine. -/
  | rdreg (sel : Sel) (raddr : Addr16) (data : Byte)
  /-- END, `0x00` (R136). -/
  | endOp
  /-- UINIT, `0x10` (R101). -/
  | uinit
  /-- START, `0x20` (R102). -/
  | start
  /-- RESTART, `0x30` (R103). -/
  | restart
  /-- STOP, `0x40` (R104). -/
  | stop
  /-- ACK, `0x50` (R105). -/
  | ack
  /-- NACK, `0x60` (R106). -/
  | nack
  /-- IDLE, `0x70` (R107). -/
  | idle
  /-- WRB HI, `0x80` (R77, R108). -/
  | wrbHi
  /-- WRB LO, `0x81` (R77, R108). -/
  | wrbLo
  /-- WRB D, `0x82` (R77, R108). -/
  | wrbD
  /-- WRB A(page, op), `0x88` to `0x8B` (R77, R108). -/
  | wrbA (page op : Bit)
  /-- RDEN, `0x90` (R109). -/
  | rden
  /-- LATCH, `0xA0` (R135). -/
  | latch
  deriving DecidableEq, Repr

/-- A word of one of the two coded formats: H, 32 bits, or U, 8 bits (R70, R81). -/
inductive Code
  | host (w : CmdWord)
  | micro (w : Byte)
  deriving DecidableEq, Repr

/-- The operand of WRB in the assembler (R82). -/
inductive WrbOperand
  | hi
  | lo
  | d
  | a (page op : Nat)
  deriving DecidableEq, Repr

/-- An assembler line of R82, with numerals of any size: the place where an operand can be out of range (R122, U16). -/
inductive Asm
  | init
  | wrreg (sel raddr data : Nat)
  | rdreg (sel raddr : Nat)
  | endOp
  | uinit
  | start
  | restart
  | stop
  | ack
  | nack
  | idle
  | wrb (o : WrbOperand)
  | rden
  | latch
  deriving DecidableEq, Repr

/-- Whether an instruction is a host command (format H) or a micro-operation (format U). -/
def Instr.isCommand : Instr → Bool
  | .init _ _ _ => true
  | .wrreg _ _ _ => true
  | .rdreg _ _ _ => true
  | .endOp => false
  | .uinit => false
  | .start => false
  | .restart => false
  | .stop => false
  | .ack => false
  | .nack => false
  | .idle => false
  | .wrbHi => false
  | .wrbLo => false
  | .wrbD => false
  | .wrbA _ _ => false
  | .rden => false
  | .latch => false

end Sys2Proof
end

