-- ==== Sys2Proof/WellFormed.lean ====
section
/-! DEFINITION. The checks: the operand ranges of an assembler line (R82, R122, U16) and the canonical spelling of a
command (R75). Every term of `Instr` is executable: the field widths make an out-of-range operand unrepresentable
(R21). -/

namespace Sys2Proof

/-- The operand ranges of WRB A: `page` 0 or 1, `op` 0 (W) or 1 (R) (R82). -/
def WrbOperand.wf : WrbOperand → Bool
  | .hi => true
  | .lo => true
  | .d => true
  | .a page op => page < 2 && op < 2

/-- The operand ranges of an assembler line: `sel` 0 to 3, `raddr` 0 to 65535, `data` 0 to 255, from the
widths of R6 (R82). -/
def Asm.wf : Asm → Bool
  | .wrreg sel raddr data =>
    sel < 2 ^ Config.params.selW && raddr < 2 ^ Config.params.raddrW && data < 2 ^ Config.params.dataW
  | .rdreg sel raddr => sel < 2 ^ Config.params.selW && raddr < 2 ^ Config.params.raddrW
  | .wrb o => o.wf
  | .init => true
  | .endOp => true
  | .uinit => true
  | .start => true
  | .restart => true
  | .stop => true
  | .ack => true
  | .nack => true
  | .idle => true
  | .rden => true
  | .latch => true

/-- The canonical spelling sets every ignored field to 0 (R75). A command that is not canonical is still legal. -/
def Instr.canonical : Instr → Bool
  | .init sel raddr data => sel == 0 && raddr == 0 && data == 0
  | .rdreg _ _ data => data == 0
  | .wrreg _ _ _ => true
  | .endOp => true
  | .uinit => true
  | .start => true
  | .restart => true
  | .stop => true
  | .ack => true
  | .nack => true
  | .idle => true
  | .wrbHi => true
  | .wrbLo => true
  | .wrbD => true
  | .wrbA _ _ => true
  | .rden => true
  | .latch => true

end Sys2Proof
end

