-- ==== Sys2Proof/Decode.lean ====
section
/-! DEFINITION. The decoder of formats H and U, total on every word and rejecting by name (R74 to R81), then the encoder
written from the same tables, the assembler of R82 and the source's aliases (R83). -/

namespace Sys2Proof

/-- Why a word is no instruction (R80). -/
inductive DecodeError
  /-- Format H: `op` is `0x0` or `0x4` to `0xF`. -/
  | reservedOp
  /-- Format H: `zero` is 1 to 3. -/
  | reservedZero
  /-- Format U: `uop` is `0xB` to `0xF`. -/
  | reservedUop
  /-- Format U: a nonzero `arg` with a `uop` other than `0x8`. -/
  | reservedArg
  /-- Format U: WRB with `arg` 3 to 7 or 12 to 15. -/
  | reservedWrb
  deriving DecidableEq, Repr

/-- Field `op` of format H, bits 31:28 (R74). -/
def opField (w : CmdWord) : BitVec 4 := w.extractLsb' 28 4

/-- Field `sel` of format H, bits 27:26 (R74). -/
def selField (w : CmdWord) : Sel := w.extractLsb' 26 2

/-- Field `zero` of format H, bits 25:24 (R74). -/
def zeroField (w : CmdWord) : BitVec 2 := w.extractLsb' 24 2

/-- Field `raddr` of format H, bits 23:8 (R74). -/
def raddrField (w : CmdWord) : Addr16 := w.extractLsb' 8 16

/-- Field `data` of format H, bits 7:0 (R74). -/
def dataField (w : CmdWord) : Byte := w.extractLsb' 0 8

/-- Field `uop` of format U, bits 7:4 (R76). -/
def uopField (w : Byte) : BitVec 4 := w.extractLsb' 4 4

/-- Field `arg` of format U, bits 3:0 (R76). -/
def argField (w : Byte) : BitVec 4 := w.extractLsb' 0 4

/-- The decoder of format H: it chooses by bits 31:24 only (R74, R75, R80, R81). -/
def decodeCommand (w : CmdWord) : Except DecodeError Instr :=
  if zeroField w ≠ 0#2 then .error .reservedZero
  else if opField w = 0x1#4 then .ok (.init (selField w) (raddrField w) (dataField w))
  else if opField w = 0x2#4 then .ok (.wrreg (selField w) (raddrField w) (dataField w))
  else if opField w = 0x3#4 then .ok (.rdreg (selField w) (raddrField w) (dataField w))
  else .error .reservedOp

/-- A micro-operation without operand is legal with `arg = 0b0000` only (R76, R80). -/
def plainMicro (arg : BitVec 4) (i : Instr) : Except DecodeError Instr :=
  if arg = 0x0#4 then .ok i else .error .reservedArg

/-- The operand selector of WRB (R77): class 0 selects HI, LO or D, class 1 with `arg[2] = 0` the address byte of
`pageSelect = arg[1]` and `operation = arg[0]`. -/
def decodeWrb (arg : BitVec 4) : Except DecodeError Instr :=
  if arg = 0x0#4 then .ok .wrbHi
  else if arg = 0x1#4 then .ok .wrbLo
  else if arg = 0x2#4 then .ok .wrbD
  else if arg.extractLsb' 2 2 = 0b10#2 then .ok (.wrbA (arg.extractLsb' 1 1) (arg.extractLsb' 0 1))
  else .error .reservedWrb

/-- The decoder of format U: all 8 bits (R76 to R78, R80, R81). -/
def decodeMicro (w : Byte) : Except DecodeError Instr :=
  if uopField w = 0x0#4 then plainMicro (argField w) .endOp
  else if uopField w = 0x1#4 then plainMicro (argField w) .uinit
  else if uopField w = 0x2#4 then plainMicro (argField w) .start
  else if uopField w = 0x3#4 then plainMicro (argField w) .restart
  else if uopField w = 0x4#4 then plainMicro (argField w) .stop
  else if uopField w = 0x5#4 then plainMicro (argField w) .ack
  else if uopField w = 0x6#4 then plainMicro (argField w) .nack
  else if uopField w = 0x7#4 then plainMicro (argField w) .idle
  else if uopField w = 0x8#4 then decodeWrb (argField w)
  else if uopField w = 0x9#4 then plainMicro (argField w) .rden
  else if uopField w = 0xA#4 then plainMicro (argField w) .latch
  else .error .reservedUop

/-- The decoder on a word of either format. There is no mode bit and no prefix (R81): the format of a word is where it
stands, on the command port or in the ROM. -/
def decode : Code → Except DecodeError Instr
  | .host w => decodeCommand w
  | .micro w => decodeMicro w

/-- The instruction the decoder reads from a table row's word: a row of 32 bits is a command word, a row of 8 bits a
micro-operation word (spec/opcode_table.json); no row has another width. -/
def decodeTableWord (nbits w : Nat) : Option Instr :=
  if nbits = 32 then (decodeCommand (BitVec.ofNat 32 w)).toOption
  else if nbits = 8 then (decodeMicro (BitVec.ofNat 8 w)).toOption
  else none

/-! The encoder. -/

/-- A word of format H from its fields (R74); `zero` is `0b00`. -/
def commandWord (op : BitVec 4) (sel : Sel) (raddr : Addr16) (data : Byte) : CmdWord :=
  op ++ sel ++ 0b00#2 ++ raddr ++ data

/-- A word of format U from its fields (R76). -/
def microWord (uop arg : BitVec 4) : Byte := uop ++ arg

/-- `arg` of WRB A(page, op): class bit 1, then 0, then `pageSelect`, then `operation` (R77). -/
def wrbAddressArg (page op : Bit) : BitVec 4 := 0b10#2 ++ page ++ op

/-- The word of an instruction (R74 to R78). -/
def encode : Instr → Code
  | .init sel raddr data => .host (commandWord 0x1#4 sel raddr data)
  | .wrreg sel raddr data => .host (commandWord 0x2#4 sel raddr data)
  | .rdreg sel raddr data => .host (commandWord 0x3#4 sel raddr data)
  | .endOp => .micro (microWord 0x0#4 0x0#4)
  | .uinit => .micro (microWord 0x1#4 0x0#4)
  | .start => .micro (microWord 0x2#4 0x0#4)
  | .restart => .micro (microWord 0x3#4 0x0#4)
  | .stop => .micro (microWord 0x4#4 0x0#4)
  | .ack => .micro (microWord 0x5#4 0x0#4)
  | .nack => .micro (microWord 0x6#4 0x0#4)
  | .idle => .micro (microWord 0x7#4 0x0#4)
  | .wrbHi => .micro (microWord 0x8#4 0x0#4)
  | .wrbLo => .micro (microWord 0x8#4 0x1#4)
  | .wrbD => .micro (microWord 0x8#4 0x2#4)
  | .wrbA page op => .micro (microWord 0x8#4 (wrbAddressArg page op))
  | .rden => .micro (microWord 0x9#4 0x0#4)
  | .latch => .micro (microWord 0xA#4 0x0#4)

/-! The assembler (R82) and the aliases (R83). -/

/-- WRB's operand, its ranges already checked. -/
def assembleWrb : WrbOperand → Instr
  | .hi => .wrbHi
  | .lo => .wrbLo
  | .d => .wrbD
  | .a page op => .wrbA (BitVec.ofNat 1 page) (BitVec.ofNat 1 op)

/-- A line of known good ranges; ignored fields are 0, the canonical spelling (R75). -/
def assembleChecked : Asm → Instr
  | .init => .init 0#2 0#16 0#8
  | .wrreg sel raddr data => .wrreg (BitVec.ofNat Config.params.selW sel) (BitVec.ofNat Config.params.raddrW raddr)
      (BitVec.ofNat Config.params.dataW data)
  | .rdreg sel raddr => .rdreg (BitVec.ofNat Config.params.selW sel) (BitVec.ofNat Config.params.raddrW raddr) 0#8
  | .endOp => .endOp
  | .uinit => .uinit
  | .start => .start
  | .restart => .restart
  | .stop => .stop
  | .ack => .ack
  | .nack => .nack
  | .idle => .idle
  | .wrb o => assembleWrb o
  | .rden => .rden
  | .latch => .latch

/-- The assembler: an out-of-range operand is refused at this boundary and never masked (R122, U16). -/
def assemble (a : Asm) : Option Instr :=
  if a.wf then some (assembleChecked a) else none

/-- The word an assembler line stands for. -/
def assembleWord (a : Asm) : Option Code := (assemble a).map encode

/-- The source's spellings of the primitives and of the two transactions (R2, R82, R83), with the mnemonic each stands
for. -/
def sourceSpellings : List (String × String) :=
  [("init", "UINIT"), ("start", "START"), ("restart", "RESTART"), ("repeated-start", "RESTART"), ("stop", "STOP"),
   ("ack", "ACK"), ("nack", "NACK"), ("idleWait", "IDLE"), ("idle-wait", "IDLE"), ("idle", "IDLE")] ++
  [("writeByte", "WRB"), ("byte-write", "WRB"), ("readByteEnable", "RDEN"), ("byte-read-enable", "RDEN"),
   ("readEnable", "RDEN"), ("<read receive register>", "LATCH"),
   ("return contents of the hardware receive register", "LATCH"),
   ("writeRegister", "WRREG"), ("register write", "WRREG"), ("readRegister", "RDREG"), ("register read", "RDREG")]

end Sys2Proof
end

