-- ==== Sys2Proof/Machine/Pif.lean ====
section
/-! DEFINITION. The peripheral interface PIF: its ports, the `CFG` record and the events of `TRACE` (R9, R31 to R37,
R51). The source gives no address and no bit position, so ports are names. -/

namespace Sys2Proof.Machine

/-- `CFG.ADDR_MODE` (R36). The spec names one value; `other` stands for every value it does not name. -/
inductive AddrMode
  | master7bit
  | other
  deriving DecidableEq, Repr, Inhabited

/-- `CFG.SCL_DIR`, `CFG.SDA_DIR` (R36). The spec names `INPUT`; `other` stands for every value it does not name. -/
inductive LineDir
  | input
  | other
  deriving DecidableEq, Repr, Inhabited

/-- The configuration port, one record of ten fields written whole (R36). `baud` and `ownAddr` have no width (R6). -/
structure Cfg where
  addrMode    : AddrMode
  slewDisable : Bit
  sclRelease  : Bit
  enable      : Bit
  sclDir      : LineDir
  sdaDir      : LineDir
  irqEnable   : Bit
  irqFlag     : Bit
  baud        : Nat
  ownAddr     : Nat
  deriving DecidableEq, Repr, Inhabited

/-- The status ports CORE samples (R35). -/
inductive StatusPort
  | staStart
  | staRestart
  | staStop
  | staAck
  | staTrstat
  | tbf
  deriving DecidableEq, Repr

/-- One `PifWrite`: a port CORE writes together with the value, each of the port's own width (R32 to R37). -/
inductive PortWrite
  | reqStart (v : Bit)
  | reqRestart (v : Bit)
  | reqStop (v : Bit)
  | reqAck (v : Bit)
  | ackdt (v : Bit)
  | rcen (v : Bit)
  | tbf (v : Bit)
  | txreg (b : Byte)
  | cfg (c : Cfg)
  deriving DecidableEq, Repr

/-- An event of `TRACE`: `Wr(port, value)`, `Rd(port, value)` on a status port or on `RXREG`, `Tick` (R9). -/
inductive Event
  | wr (w : PortWrite)
  | rd (p : StatusPort) (v : Bit)
  | rdRx (b : Byte)
  | tick
  deriving DecidableEq, Repr

/-- The PIF's ports (R31 to R36). Each field is the value last transferred over the port, written by CORE or answered
by ENV; no operation of CORE reads a field (R31: CORE never assumes that a written value reads back). -/
structure Pif where
  reqStart   : Bit
  reqRestart : Bit
  reqStop    : Bit
  reqAck     : Bit
  ackdt      : Bit
  rcen       : Bit
  txreg      : Byte
  rxreg      : Byte
  staStart   : Bit
  staRestart : Bit
  staStop    : Bit
  staAck     : Bit
  staTrstat  : Bit
  tbf        : Bit
  cfg        : Cfg
  deriving DecidableEq, Repr, Inhabited

/-- One invocation of a bus primitive, or the read of the receive register: the entries of the primitive-level trace
(R9, R143). -/
inductive Primitive
  | init
  | start
  | restart
  | stop
  | ack
  | nack
  | idle
  | writeByte (b : Byte)
  | readEnable
  | readReceiveRegister
  deriving DecidableEq, Repr

end Sys2Proof.Machine
end

