-- ==== Sys2Proof/Config.lean ====
section
/-! DEFINITION. The values the spec leaves open: ENV's free draws (R51), the open parameter `OWN_ADDR` (R58), the reset
values R41 calls unspecified. The parameters of R6 that have a default are `Config.Params` of Word.lean, where the word
types read them. -/

namespace Sys2Proof.Config

/-- `OWN_ADDR`, the open parameter: no value, no width (R6, R58, U11). Free: it has no body. -/
opaque ownAddr : Nat

/-- ENV's answer to the `k`-th PIF read when that read is of a status port and no answer is scripted (R51, U9). Free:
it has no body. -/
opaque freeStatus : Nat → Bit

/-- ENV's answer to the `k`-th PIF read when that read is of `RXREG` and no answer is scripted (R51, U3). Free: it has
no body. -/
opaque freeRx : Nat → Byte

/-- What `UPC` holds after reset: unspecified (R41, R42), so a free constant and never 0 by choice. DESIGN CHOICE,
log 2, as are the next four. -/
opaque resetUpc : Upc
opaque resetSel : Sel
opaque resetRaddr : Addr16
opaque resetWdata : Byte
opaque resetResult : Byte

/-- What the PIF's ports hold after reset: unspecified, owned by ENV (R41). DESIGN CHOICE, log 3. -/
opaque resetPif : Machine.Pif

end Sys2Proof.Config
end

