-- ==== Sys2Proof/Machine/State.lean ====
section
/-! DEFINITION. The state of the modelled system (R20): CORE's latches, sequencer and flags, the PIF, the history, the
sequencer ROM, and the plain data that stands for HOST and ENV. Reset is R41. -/

namespace Sys2Proof.Machine

/-- Memory in one canonical form: addresses strictly rising, no entry equal to what its address reads as unlisted
(`Memory.wf` in Machine/RefEnv.lean). -/
abbrev Memory := List Host.Cell

/-- A value HOST can read (R22, R24, R28, R29, R75, R161): `BUSY` is `RUN`. -/
inductive HostReg
  | busy
  | done
  | result
  | toAny
  | toMap
  deriving DecidableEq, Repr

/-- What HOST has read: a value with the output it came from, or a read that is a fault of HOST's program. -/
inductive HostReading
  | busy (v : Bool)
  | done (v : Bool)
  | result (v : Byte)
  | toAny (v : Bool)
  | toMap (v : ToMap)
  /-- HOST read `RESULT` before any LATCH had written it: "a fault of HOST's program, not [...] a value" (R42, D11, D28,
  U12). HOST gets no value; CORE is not touched and goes on (log 10). -/
  | resultFault
  deriving DecidableEq, Repr

/-- What HOST does at its interface (R5): present a command word (R130) or read an output (R75). -/
inductive HostAct
  | present (w : CmdWord)
  | read (r : HostReg)
  deriving DecidableEq, Repr

/-- When HOST does it: as a blocking caller, once `RUN = 0`; or at once, whatever `RUN` is (R63, R177). -/
inductive HostTiming
  | afterEnd
  | now
  deriving DecidableEq, Repr

/-- One pending input of HOST (log 9). -/
structure HostInput where
  timing : HostTiming
  act    : HostAct
  deriving DecidableEq, Repr

/-- The protocol state of the reference device (D16). -/
inductive DevState
  | idle
  | awaitAddr
  | ptrHi
  | ptrLo
  | dataW
  | dataR
  deriving DecidableEq, Repr

/-- For how many more samples each status port of the reference environment reads 1 (`busy[s]` of D16). -/
structure Busy where
  start   : Nat
  restart : Nat
  stop    : Nat
  ack     : Nat
  trstat  : Nat
  tbf     : Nat
  deriving DecidableEq, Repr

/-- The device of the reference environment (D16): its register space (R50), pointer, selected space and protocol
state, and the byte it supplies on `RXREG`. -/
structure RefDevice where
  mem     : Memory
  ptr     : Addr16
  curSel  : Sel
  curPage : Bit
  ds      : DevState
  rx      : Byte
  deriving DecidableEq, Repr

/-- `RefEnvStuck(S, d)` of D16; `RefEnv(d)` has no stuck port. -/
structure RefEnv where
  d      : Nat
  stuck  : List StatusPort
  busy   : Busy
  cfg    : Option Cfg
  device : RefDevice
  deriving DecidableEq, Repr

/-- ENV, the agent that answers every PIF read (R5, R51): a script of answers followed by free draws (log 5), or the
reference environment of D16 (log 6). -/
inductive Env
  | script (status : List Bit) (rx : List Byte)
  | ref (e : RefEnv)
  deriving DecidableEq, Repr

/-- The state (R20). The fields after `trace` are the ROM and the model's own (INVENTORY.md, '## State'). -/
structure State where
  /-- `SEL` (R21). -/
  sel     : Sel
  /-- `RADDR` (R21). -/
  raddr   : Addr16
  /-- `WDATA` (R21). -/
  wdata   : Byte
  /-- `RESULT` (R22). -/
  result  : Byte
  /-- `RUN`, HOST's `BUSY` (R24). -/
  run     : Bool
  /-- `UPC` (R24). -/
  upc     : Upc
  /-- `ACT` (R25). -/
  act     : BitVec 2
  /-- `CNT` (R26). -/
  cnt     : BitVec 8
  /-- `WAITING` (R26). -/
  waiting : Bool
  /-- `PIDX` (R27). -/
  pidx    : BitVec 4
  /-- `DONE` (R28). -/
  done    : Bool
  /-- `TO_ANY` (R29). -/
  toAny   : Bool
  /-- `TO_MAP` (R29). -/
  toMap   : ToMap
  /-- `INITED` (R30). -/
  inited  : Bool
  /-- The PIF's ports (R31 to R36). -/
  pif     : Pif
  /-- `TRACE`, oldest event first (R9, R39). -/
  trace   : List Event
  /-- The ROM cells that differ from R79; none after reset (R50, R64, log 7). -/
  rom     : Memory
  /-- The primitive-level trace, oldest first (R9, R143, log 18). -/
  prims   : List Primitive
  /-- HOST's pending inputs, the next one first (log 9). -/
  host    : List HostInput
  /-- What HOST has read, oldest first (log 10). -/
  hostSeen : List HostReading
  /-- Whether a LATCH has written `RESULT` since reset (R22, R42, log 10). -/
  resultValid : Bool
  /-- ENV (R5, log 5). -/
  env     : Env
  /-- The index of the next PIF read; the free draws are applied to it (log 5). -/
  draws   : Nat
  deriving DecidableEq, Repr

/-- Why the machine stops. -/
inductive Fault
  /-- `ACT` names an action the micro-operation does not have; the spec gives no step there. Raised by a
  micro-operation in states no run from reset reaches (log 12). Safe. -/
  | noSuchAction
  deriving DecidableEq, Repr

/-- To what the model gives no meaning. -/
inductive Refusal
  /-- No meaning for the instruction yet. Raised by exec's refused arms only. Safe. -/
  | notModelled (mnemonic : String)
  /-- R130 (a), U1: a command presented while `RUN = 1`. Raised by INIT, WRREG, RDREG and by step for any word. Safe. -/
  | commandWhileRunning
  /-- R130 (b), U2: WRREG or RDREG while `INITED = 0`. Raised by WRREG and RDREG. Safe. -/
  | transactionBeforeInit
  /-- R130 (c), U2: INIT while `INITED = 1`. Raised by INIT. Safe. -/
  | secondInit
  /-- R130 (d), R80, U15: a reserved command word. Raised by step. Safe. -/
  | reservedCommandWord
  /-- R80, U15: a reserved micro-operation word in the ROM; it "cannot occur because the ROM is fixed and holds none".
  Raised by step in states no run from reset reaches. Safe. -/
  | reservedMicroWord
  /-- R180, D28: HOST reads `RESULT`, `TO_ANY` or `TO_MAP` while `RUN = 1`. Raised by a HOST read in step. Safe. -/
  | outputReadWhileRunning
  deriving DecidableEq, Repr

/-- The state right after reset (R41, R170). `UPC`, `SEL`, `RADDR`, `WDATA`, `RESULT` and the PIF's ports are
unspecified there: free constants of Config (log 2, log 3). -/
def State.reset : State where
  sel := Config.resetSel
  raddr := Config.resetRaddr
  wdata := Config.resetWdata
  result := Config.resetResult
  run := false
  upc := Config.resetUpc
  act := 0#2
  cnt := 0#8
  waiting := false
  pidx := 0#4
  done := false
  toAny := false
  toMap := 0#12
  inited := false
  pif := Config.resetPif
  trace := []
  rom := []
  prims := []
  host := []
  hostSeen := []
  resultValid := false
  env := .script [] []
  draws := 0

end Sys2Proof.Machine
end

