-- ==== Sys2Proof/Machine/Flags.lean ====
section
/-! DEFINITION. The flag computations: `TO_MAP`, `TO_ANY` (R29, R151, R152) and `DONE` (R28). The block has no other flag
and no condition code (R30). -/

namespace Sys2Proof.Machine

/-- `TO_MAP[i] <- 1` (R152). An index past bit 11 names no bit (log 13). -/
def ToMap.set (m : ToMap) (i : BitVec 4) : ToMap := m ||| BitVec.twoPow 12 i.toNat

/-- `TO_ANY`, the or of all bits of `TO_MAP` (R29). -/
def ToMap.any (m : ToMap) : Bool := m != 0#12

/-- The flags acceptance clears (R28, R29, R130). -/
def State.clearFlags (s : State) : State := { s with toMap := 0#12, toAny := false, done := false }

/-- The flags END leaves: `RUN <- 0; DONE <- 1` (R136). -/
def State.finish (s : State) : State := { s with run := false, done := true }

end Sys2Proof.Machine
end

