-- ==== Sys2Proof/Machine/Operands.lean ====
section
/-! DEFINITION. The AddressCodec, the byte splitter and the operand forms of WRB (R71, R72, R77, R108, R120 to R124).
Combinational: no state, no step, no PIF access. -/

namespace Sys2Proof.Machine

/-- The address byte of a family code (R71): the fields `[deviceId:4][select:2][pageSelect:1][operation:1]`, most
significant first. -/
def packAddress (deviceId : BitVec 4) (select : Sel) (pageSelect operation : Bit) : Byte :=
  deviceId ++ select ++ pageSelect ++ operation

/-- The AddressCodec (R120), with the parameter `DEVICE_ID` (R121). -/
def encodeAddress (select : Sel) (pageSelect operation : Bit) : Byte :=
  packAddress Config.params.deviceId select pageSelect operation

/-- `hi(a) = a[15:8]`, the byte sent first (R53, R72, R124). -/
def hiByte (a : Addr16) : Byte := a.extractLsb' 8 8

/-- `lo(a) = a[7:0]` (R72, R124). -/
def loByte (a : Addr16) : Byte := a.extractLsb' 0 8

/-- The byte WRB HI writes (R77, R108). -/
def operandHi (s : State) : Byte := hiByte s.raddr

/-- The byte WRB LO writes (R77, R108). -/
def operandLo (s : State) : Byte := loByte s.raddr

/-- The byte WRB D writes (R77, R108). -/
def operandD (s : State) : Byte := s.wdata

/-- The byte WRB A(page, op) writes (R77, R108). -/
def operandA (page op : Bit) (s : State) : Byte := encodeAddress s.sel page op

/-- The 7-bit bus address of the target: the upper seven bits of the address byte (R57). -/
def busAddress (addressByte : Byte) : BitVec 7 := addressByte.extractLsb' 1 7

end Sys2Proof.Machine
end

