-- ==== Sys2Proof/Machine/RefEnv.lean ====
section
/-! DEFINITION. Memory in canonical form (R50) and the reference environment `RefEnv(d)`, `RefEnvStuck(S, d)` of D16: a
fixture of the spec, not a model of any peripheral (log 6). -/

namespace Sys2Proof.Machine

/-- The two byte-addressed spaces of R50: the sequencer ROM and the device register space. -/
inductive Space
  | rom
  | device
  deriving DecidableEq, Repr

/-- The ROM word of WRB A(`PAGE_TXN`, op): `0x88` for W, `0x89` for R, with page 0 as the parameter has it (R6, R77,
R79, R139). -/
def romAddressWord (op : Bit) : Byte := microWord 0x8#4 (wrbAddressArg Config.params.pageTxn op)

/-- The WRREG routine, ROM addresses 0 to 10, then END to 15 (R79). -/
def romWrreg : List Byte :=
  [0x20#8, romAddressWord 0#1, 0x70#8, 0x80#8, 0x70#8, 0x81#8, 0x70#8, 0x82#8] ++
  [0x70#8, 0x40#8, 0x00#8, 0x00#8, 0x00#8, 0x00#8, 0x00#8, 0x00#8]

/-- The RDREG routine, ROM addresses 16 to 30, then END at 31 (R79). -/
def romRdreg : List Byte :=
  [0x20#8, romAddressWord 0#1, 0x70#8, 0x80#8, 0x70#8, 0x81#8, 0x70#8, 0x30#8] ++
  [romAddressWord 1#1, 0x70#8, 0x90#8, 0x60#8, 0x40#8, 0xA0#8, 0x00#8, 0x00#8]

/-- The INIT routine, ROM addresses 32 and 33 (R79). -/
def romInit : List Byte := [0x10#8, 0x00#8]

/-- The contents of the sequencer ROM (R79): addresses 34 to 63 hold END. -/
def romImage (a : Nat) : Byte := (romWrreg ++ romRdreg ++ romInit).getD a 0x00#8

/-- What an unlisted address reads as: the ROM's fixed contents (R79), the reference device's initial `0xFF` (D16). -/
def unlistedByte : Space → Nat → Byte
  | .rom, a => romImage a
  | .device, _ => 0xFF#8

/-- How many addresses a space has (R50): 64; 4 selects by 2 pages by 65536. -/
def Space.size : Space → Nat
  | .rom => 64
  | .device => 524288

/-- One byte of memory. -/
def Memory.read (sp : Space) : Memory → Nat → Byte
  | [], a => unlistedByte sp a
  | (k, b) :: m, a => if a = k then b else Memory.read sp m a

/-- Drop the entry of an address. -/
def Memory.erase (m : Memory) (a : Nat) : Memory := m.filter (fun c => c.1 != a)

/-- Put an entry at its place in the rising order. -/
def Memory.insert (a : Nat) (b : Byte) : Memory → Memory
  | [] => [(a, b)]
  | (k, c) :: m => if a < k then (a, b) :: (k, c) :: m else (k, c) :: Memory.insert a b m

/-- Write one byte, keeping the canonical form: a byte equal to the unlisted one is not listed. -/
def Memory.write (sp : Space) (m : Memory) (a : Nat) (b : Byte) : Memory :=
  if b = unlistedByte sp a then Memory.erase m a else Memory.insert a b (Memory.erase m a)

/-- Addresses strictly rising. -/
def Memory.rising : Memory → Bool
  | [] => true
  | (k, _) :: m => m.all (fun c => k < c.1) && Memory.rising m

/-- The canonical form: strictly rising, inside the space, no entry equal to the unlisted byte. -/
def Memory.wf (sp : Space) (m : Memory) : Bool :=
  Memory.rising m && m.all (fun c => c.1 < sp.size && c.2 != unlistedByte sp c.1)

/-- The place of a device register: each `select` and `pageSelect` has a space of 65536 locations (R50). -/
def deviceAddress (sel : Sel) (page : Bit) (ptr : Addr16) : Nat :=
  sel.toNat * 131072 + page.toNat * 65536 + ptr.toNat

/-! The reference environment of D16. -/

/-- `busy[s]`. -/
def Busy.get (b : Busy) : StatusPort → Nat
  | .staStart => b.start
  | .staRestart => b.restart
  | .staStop => b.stop
  | .staAck => b.ack
  | .staTrstat => b.trstat
  | .tbf => b.tbf

/-- `busy[s] <- n`. -/
def Busy.put (b : Busy) (p : StatusPort) (n : Nat) : Busy :=
  match p with
  | .staStart => { b with start := n }
  | .staRestart => { b with restart := n }
  | .staStop => { b with stop := n }
  | .staAck => { b with ack := n }
  | .staTrstat => { b with trstat := n }
  | .tbf => { b with tbf := n }

/-- Where the reference device stores the next data byte: the location its pointer names in the selected space. -/
def RefDevice.target (v : RefDevice) : Nat := deviceAddress v.curSel v.curPage v.ptr

/-- The pointer's increment, modulo 65536 (D16). -/
def RefDevice.bumpPtr (v : RefDevice) : RefDevice := { v with ptr := v.ptr + 1#16 }

/-- The device's reaction to an address byte (D16): its family code is `b[7:4]`. -/
def RefDevice.address (v : RefDevice) (b : Byte) : RefDevice :=
  if b.extractLsb' 4 4 = 10#4 then
    { v with curSel := b.extractLsb' 2 2, curPage := b.extractLsb' 1 1,
             ds := if b.extractLsb' 0 1 = 0#1 then .ptrHi else .dataR }
  else { v with ds := .idle }

/-- The device's reaction to `Wr(TXREG, b)`, the `case ds of` of D16. -/
def RefDevice.byte (v : RefDevice) (b : Byte) : RefDevice :=
  match v.ds with
  | .awaitAddr => v.address b
  | .ptrHi => { v with ptr := b ++ v.ptr.extractLsb' 0 8, ds := .ptrLo }
  | .ptrLo => { v with ptr := v.ptr.extractLsb' 8 8 ++ b, ds := .dataW }
  | .dataW => RefDevice.bumpPtr { v with mem := Memory.write .device v.mem v.target b }
  | .idle => v
  | .dataR => v

/-- The device's reaction to `Wr(RCEN, 1)`: in `DataR` the byte at the pointer is received (D16). -/
def RefDevice.receive (v : RefDevice) : RefDevice :=
  if v.ds = .dataR then RefDevice.bumpPtr { v with rx := Memory.read .device v.mem v.target } else v

/-- The device's reaction to one `PifWrite` (D16). -/
def RefDevice.react (v : RefDevice) : PortWrite → RefDevice
  | .reqStart x => if x = 1#1 then { v with ds := .awaitAddr } else v
  | .reqRestart x => if x = 1#1 then { v with ds := .awaitAddr } else v
  | .reqStop x => if x = 1#1 then { v with ds := .idle } else v
  | .reqAck _ => v
  | .ackdt _ => v
  | .rcen x => if x = 1#1 then v.receive else v
  | .tbf _ => v
  | .txreg b => v.byte b
  | .cfg _ => v

/-- The status ports' reaction to one `PifWrite`: which port becomes busy for `d` samples (D16). -/
def Busy.react (d : Nat) (b : Busy) : PortWrite → Busy
  | .reqStart x => if x = 1#1 then b.put .staStart d else b
  | .reqRestart x => if x = 1#1 then b.put .staRestart d else b
  | .reqStop x => if x = 1#1 then b.put .staStop d else b
  | .reqAck x => if x = 1#1 then b.put .staAck d else b
  | .ackdt _ => b
  | .rcen _ => b
  | .tbf x => if x = 0#1 then b.put .tbf 0 else b
  | .txreg _ => (b.put .tbf d).put .staTrstat d
  | .cfg _ => b

/-- The configuration record RefEnv keeps (D16). -/
def refCfg (old : Option Cfg) : PortWrite → Option Cfg
  | .cfg c => some c
  | .reqStart _ => old
  | .reqRestart _ => old
  | .reqStop _ => old
  | .reqAck _ => old
  | .ackdt _ => old
  | .rcen _ => old
  | .tbf _ => old
  | .txreg _ => old

/-- RefEnv's reaction to one `PifWrite` (D16). -/
def RefEnv.react (e : RefEnv) (w : PortWrite) : RefEnv :=
  { e with busy := e.busy.react e.d w, cfg := refCfg e.cfg w, device := e.device.react w }

/-- RefEnv's answer to a sample of a status port, and what the sample leaves (D16): a stuck port answers 1 always. -/
def RefEnv.sample (e : RefEnv) (p : StatusPort) : Bit × RefEnv :=
  if p ∈ e.stuck then (1#1, e)
  else if e.busy.get p = 0 then (0#1, e)
  else (1#1, { e with busy := e.busy.put p (e.busy.get p - 1) })

/-- No status port busy. -/
def Busy.none : Busy := ⟨0, 0, 0, 0, 0, 0⟩

/-- The reference device as D16 starts it. -/
def RefDevice.fresh : RefDevice := ⟨[], 0#16, 0#2, 0#1, .idle, 0xFF#8⟩

/-- A fresh `RefEnvStuck(S, d)`; `RefEnv(d)` with `S` empty (D16). -/
def RefEnv.fresh (stuck : List StatusPort) (d : Nat) : RefEnv := ⟨d, stuck, Busy.none, none, RefDevice.fresh⟩

end Sys2Proof.Machine
end

