-- ==== Sys2Proof/Machine/Ops.lean ====
section
/-! DEFINITION. The shared operations: PIF accesses (R8, R51), the delay, PhaseTimeout (R152), TimeoutPoll in small
steps (R92), the actions of a micro-operation (R100, R131), acceptance (R130), the ROM fetch (R64) and HOST's inputs. -/

namespace Sys2Proof.Machine

/-! The PIF. -/

/-- The ports after one `PifWrite` (R51): the written port holds the value. -/
def Pif.put (p : Pif) : PortWrite → Pif
  | .reqStart v => { p with reqStart := v }
  | .reqRestart v => { p with reqRestart := v }
  | .reqStop v => { p with reqStop := v }
  | .reqAck v => { p with reqAck := v }
  | .ackdt v => { p with ackdt := v }
  | .rcen v => { p with rcen := v }
  | .tbf v => { p with tbf := v }
  | .txreg b => { p with txreg := b }
  | .cfg c => { p with cfg := c }

/-- The ports after one sample of a status port (R51): the sampled port holds ENV's answer. -/
def Pif.sampled (p : Pif) (port : StatusPort) (v : Bit) : Pif :=
  match port with
  | .staStart => { p with staStart := v }
  | .staRestart => { p with staRestart := v }
  | .staStop => { p with staStop := v }
  | .staAck => { p with staAck := v }
  | .staTrstat => { p with staTrstat := v }
  | .tbf => { p with tbf := v }

/-- ENV observes a `PifWrite` (R5): the script does not react, RefEnv does (D16). -/
def Env.observe (e : Env) (w : PortWrite) : Env :=
  match e with
  | .script st rx => .script st rx
  | .ref r => .ref (r.react w)

/-- ENV answers a sample of a status port (R51): the next scripted answer, else a free draw; or RefEnv's answer. `k` is
the index of the read. -/
def Env.answer (e : Env) (p : StatusPort) (k : Nat) : Bit × Env :=
  match e with
  | .script [] rx => (Config.freeStatus k, .script [] rx)
  | .script (v :: st) rx => (v, .script st rx)
  | .ref r => ((r.sample p).1, .ref (r.sample p).2)

/-- ENV answers a read of `RXREG` (R51, R135): the next scripted byte, else a free draw; or RefEnv's `rx`. -/
def Env.answerRx (e : Env) (k : Nat) : Byte × Env :=
  match e with
  | .script st [] => (Config.freeRx k, .script st [])
  | .script st (b :: rx) => (b, .script st rx)
  | .ref r => (r.device.rx, .ref r)

/-- `PifWrite(p, v)` (R8, R51). -/
def pifWrite (w : PortWrite) (s : State) : State :=
  { s with pif := s.pif.put w, env := s.env.observe w, trace := s.trace ++ [.wr w] }

/-- The value ENV supplies for a status port at this step (R8). -/
def statusAnswer (p : StatusPort) (s : State) : Bit := (s.env.answer p s.draws).1

/-- What `PifRead(p)` of a status port leaves: the event `Rd(p, v)` (R8, R51). -/
def pifSample (p : StatusPort) (s : State) : State :=
  { s with
    pif := s.pif.sampled p (statusAnswer p s)
    env := (s.env.answer p s.draws).2
    trace := s.trace ++ [.rd p (statusAnswer p s)]
    draws := s.draws + 1 }

/-- The value ENV supplies for `RXREG` at this step (R8). -/
def rxAnswer (s : State) : Byte := (s.env.answerRx s.draws).1

/-- What `PifRead(RXREG)` leaves: the event `Rd(RXREG, v)` (R8, R51). -/
def pifReadRx (s : State) : State :=
  { s with
    pif := { s.pif with rxreg := rxAnswer s }
    env := (s.env.answerRx s.draws).2
    trace := s.trace ++ [.rdRx (rxAnswer s)]
    draws := s.draws + 1 }

/-- `Delay()`: one time unit, the event `Tick` (R8). TIME always grants it (R167, log 17). -/
def delay (s : State) : State := { s with trace := s.trace ++ [.tick] }

/-! The one exception. -/

/-- `raise PhaseTimeout(i)`: `TO_MAP[i] <- 1; TO_ANY <- 1`, and nothing else (R152). There is no trap entry and no
return: nothing is saved, no mode changes, control goes nowhere (R158, R159). -/
def raisePhaseTimeout (i : BitVec 4) (s : State) : State := { s with toMap := ToMap.set s.toMap i, toAny := true }

/-! The sequencer. -/

/-- An action of a micro-operation (R100): `W p v`, `P p` with its target value (R90, R94), `C`, `L`, and END's one
step (R136). -/
inductive Action
  | write (w : PortWrite)
  | poll (p : StatusPort) (target : Bit)
  | config
  | latch
  | finish
  deriving DecidableEq, Repr

/-- An action has completed: `ACT + 1`, or after the last action the micro-operation completes, `UPC + 1; ACT <- 0`
(R25, R131), and joins the primitive-level trace (R143). -/
def advance (last : Bool) (prim : Option Primitive) (s : State) : State :=
  if last then { s with upc := s.upc + 1#6, act := 0#2, prims := s.prims ++ prim.toList }
  else { s with act := s.act + 1#2 }

/-- How a poll ends (R90). -/
inductive PollEnd
  | ok
  | timeout
  deriving DecidableEq, Repr

/-- What `EndPoll(outcome)` does to the poll's own state: the timeout is recorded, the poll is counted, `CNT` and
`WAITING` are cleared (R92). -/
def closePoll (o : PollEnd) (s : State) : State :=
  let r := match o with
    | .ok => s
    | .timeout => raisePhaseTimeout s.pidx s
  { r with pidx := r.pidx + 1#4, cnt := 0#8, waiting := false }

/-- `EndPoll(outcome)` (R92). -/
def endPoll (o : PollEnd) (last : Bool) (prim : Option Primitive) (s : State) : State :=
  advance last prim (closePoll o s)

/-- A sample taken and counted: `v <- PifRead(p); CNT <- CNT + 1` (R92). -/
def countSample (p : StatusPort) (s : State) : State :=
  { pifSample p s with cnt := s.cnt + 1#8 }

/-- A failed sample: `WAITING <- 1` (R92). -/
def beginDelay (s : State) : State := { s with waiting := true }

/-- A delay taken: `Delay(); WAITING <- 0` (R92). -/
def endDelay (s : State) : State := { delay s with waiting := false }

/-- Whether the poll has used its budget (R91, R92). -/
def budgetSpent (s : State) : Bool := s.cnt.toNat == Config.params.pollBudget

/-- The sample step (R92). -/
def sampleStep (p : StatusPort) (target : Bit) (last : Bool) (prim : Option Primitive) (s : State) : State :=
  if statusAnswer p s = target then endPoll .ok last prim (countSample p s)
  else beginDelay (countSample p s)

/-- The delay step (R92): after the 240th failed sample the poll ends with `Timeout`. -/
def delayStep (last : Bool) (prim : Option Primitive) (s : State) : State :=
  if budgetSpent s then endPoll .timeout last prim (endDelay s) else endDelay s

/-- The one enabled step of a poll, chosen by `WAITING` (R92). -/
def pollStep (p : StatusPort) (target : Bit) (last : Bool) (prim : Option Primitive) (s : State) : State :=
  if s.waiting then delayStep last prim s else sampleStep p target last prim s

/-- The record UINIT writes (R36, R101). -/
def configRecord : Cfg where
  addrMode := .master7bit
  slewDisable := 1#1
  sclRelease := 1#1
  enable := 1#1
  sclDir := .input
  sdaDir := .input
  irqEnable := 0#1
  irqFlag := 0#1
  baud := Config.params.baudConst
  ownAddr := Config.ownAddr

/-- Action `C`: the `CFG` write, then `INITED <- 1` (R101). -/
def configure (s : State) : State := { pifWrite (.cfg configRecord) s with inited := true }

/-- Action `L`: `RESULT <- PifRead(RXREG)` (R135). -/
def latchResult (s : State) : State := { pifReadRx s with result := rxAnswer s, resultValid := true }

/-- One step of one action (R92, R100, R101, R135, R136). -/
def perform (a : Action) (last : Bool) (prim : Option Primitive) (s : State) : State :=
  match a with
  | .write w => advance last prim (pifWrite w s)
  | .poll p target => pollStep p target last prim s
  | .config => advance last prim (configure s)
  | .latch => advance last prim (latchResult s)
  | .finish => s.finish

/-- One step of a micro-operation: its action number `ACT` (R131). An `ACT` past the list is the model's fault
(log 12). -/
def microStep (actions : List Action) (prim : Option Primitive) (s : State) : Host.Outcome State Fault Refusal :=
  match actions[s.act.toNat]? with
  | none => .fault .noSuchAction
  | some a => .next (perform a (s.act.toNat + 1 == actions.length) prim s)

/-- The routines' entry addresses (R24, R79, R130). -/
def entryWrreg : Upc := 0#6
def entryRdreg : Upc := 16#6
def entryInit : Upc := 32#6

/-- Acceptance of a command (R130): the latches, the entry address, the counters, the flags, `RUN`. `RESULT`, `INITED`
and `TRACE` are untouched. -/
def accept (entry : Upc) (sel : Sel) (raddr : Addr16) (data : Byte) (s : State) : State :=
  { s.clearFlags with
    sel := sel
    raddr := raddr
    wdata := data
    upc := entry
    act := 0#2
    cnt := 0#8
    waiting := false
    pidx := 0#4
    run := true }

/-- The word at `UPC` (R24, R56, R64, R131). -/
def romFetch (s : State) : Byte := Memory.read .rom s.rom s.upc.toNat

/-! HOST. -/

/-- HOST's input for this step, with the state after it is taken from the list; `none` where CORE moves: no input is
pending, or the next one waits for END (R5, R130, R138, log 9). -/
def hostTurn (s : State) : Option (HostAct × State) :=
  match s.host with
  | [] => none
  | h :: rest =>
    match h.timing with
    | .now => some (h.act, { s with host := rest })
    | .afterEnd => if s.run then none else some (h.act, { s with host := rest })

/-- HOST receives a value (R75). -/
def hostSees (v : HostReading) (s : State) : State := { s with hostSeen := s.hostSeen ++ [v] }

/-- What a read of `RESULT` gives HOST (R22): its value, or before the first LATCH the fault of HOST's program that R42
calls that read, and no value. -/
def resultReading (s : State) : HostReading := if s.resultValid then .result s.result else .resultFault

/-- HOST reads one of the outputs that mean something only while `RUN = 0` (R180, D28). -/
def readAfterRun (v : HostReading) (s : State) : Host.Outcome State Fault Refusal :=
  if s.run then .refused .outputReadWhileRunning else .next (hostSees v s)

/-- HOST reads an output (R22, R28, R29, R42, R75, R180). `BUSY` and `DONE` may be read at
any time (log 10). -/
def hostRead (r : HostReg) (s : State) : Host.Outcome State Fault Refusal :=
  match r with
  | .busy => .next (hostSees (.busy s.run) s)
  | .done => .next (hostSees (.done s.done) s)
  | .result => readAfterRun (resultReading s) s
  | .toAny => readAfterRun (.toAny s.toAny) s
  | .toMap => readAfterRun (.toMap s.toMap) s

/-- HOST's pending input that presents a word as a blocking call does (R130). -/
def call (w : CmdWord) : HostInput := ⟨.afterEnd, .present w⟩

/-- HOST's pending input that presents a word at once (R63, R130 (a)). -/
def intrude (w : CmdWord) : HostInput := ⟨.now, .present w⟩

/-- HOST's pending input that reads an output once `RUN = 0` (R180). -/
def readAfterEnd (r : HostReg) : HostInput := ⟨.afterEnd, .read r⟩

/-- HOST's pending input that reads an output at once (R180). -/
def readNow (r : HostReg) : HostInput := ⟨.now, .read r⟩

/-- Whether HOST leaves the machine alone while a routine runs: its next input, if any, waits for END. -/
def State.hostWaits (s : State) : Bool :=
  match s.host with
  | [] => true
  | h :: _ => h.timing == .afterEnd

/-! Placing one instruction where the next step takes it (log 8). -/

/-- A command word as HOST's next input, presented at a moment the contract allows: `RUN = 0`, and `INITED` as R130 (b)
and (c) ask of this command. -/
def placeCommand (w : CmdWord) (s : State) : State :=
  { s with run := false, inited := opField w != 0x1#4, host := intrude w :: s.host }

/-- A micro-operation word at ROM address 0, the sequencer at its first action and HOST silent. -/
def placeMicro (w : Byte) (s : State) : State :=
  { s with run := true, upc := 0#6, act := 0#2, cnt := 0#8, waiting := false, host := [],
           rom := Memory.write .rom s.rom 0 w }

end Sys2Proof.Machine
end

