-- ==== Sys2Proof/Machine/Commands.lean ====
section
/-! DEFINITION. The host commands INIT, WRREG, RDREG: acceptance by R130, each with its refusals. What the routine then
does is the micro-operations' at ROM addresses 32, 0 and 16 (R79, R131 to R134). -/

namespace Sys2Proof.Machine

/-- INIT (R134): refused while `RUN = 1` (R130 (a)) and a second time (R130 (c)). -/
def execInit (sel : Sel) (raddr : Addr16) (data : Byte) (s : State) : Host.Outcome State Fault Refusal :=
  if s.run then .refused .commandWhileRunning
  else if s.inited then .refused .secondInit
  else .next (accept entryInit sel raddr data s)

/-- WRREG (R132): refused while `RUN = 1` (R130 (a)) and before INIT (R130 (b)). -/
def execWrreg (sel : Sel) (raddr : Addr16) (data : Byte) (s : State) : Host.Outcome State Fault Refusal :=
  if s.run then .refused .commandWhileRunning
  else if s.inited then .next (accept entryWrreg sel raddr data s)
  else .refused .transactionBeforeInit

/-- RDREG (R133): refused while `RUN = 1` (R130 (a)) and before INIT (R130 (b)). -/
def execRdreg (sel : Sel) (raddr : Addr16) (data : Byte) (s : State) : Host.Outcome State Fault Refusal :=
  if s.run then .refused .commandWhileRunning
  else if s.inited then .next (accept entryRdreg sel raddr data s)
  else .refused .transactionBeforeInit

end Sys2Proof.Machine
end

