-- ==== Sys2Proof/Machine/Primitives.lean ====
section
/-! DEFINITION. The nine bus primitives (R101 to R109) as the action lists of R110. -/

namespace Sys2Proof.Machine

/-- `[C]` (R101). -/
def uinitActions : List Action := [.config]

/-- `[W ACKDT 0, W REQ_START 1, P STA_START]` (R102). -/
def startActions : List Action := [.write (.ackdt 0#1), .write (.reqStart 1#1), .poll .staStart 0#1]

/-- `[W REQ_RESTART 1, P STA_RESTART, W ACKDT 0, W TBF 0]` (R103). -/
def restartActions : List Action :=
  [.write (.reqRestart 1#1), .poll .staRestart 0#1, .write (.ackdt 0#1), .write (.tbf 0#1)]

/-- `[W RCEN 0, W REQ_STOP 1, P STA_STOP]` (R104). -/
def stopActions : List Action := [.write (.rcen 0#1), .write (.reqStop 1#1), .poll .staStop 0#1]

/-- `[W ACKDT 0, W REQ_ACK 1, P STA_ACK]` (R105). -/
def ackActions : List Action := [.write (.ackdt 0#1), .write (.reqAck 1#1), .poll .staAck 0#1]

/-- `[W ACKDT 1, W REQ_ACK 1, P STA_ACK]` (R106). -/
def nackActions : List Action := [.write (.ackdt 1#1), .write (.reqAck 1#1), .poll .staAck 0#1]

/-- `[P STA_TRSTAT]` (R107). -/
def idleActions : List Action := [.poll .staTrstat 0#1]

/-- `[W TXREG b, P TBF]` (R108). -/
def wrbActions (b : Byte) : List Action := [.write (.txreg b), .poll .tbf 0#1]

/-- `[W RCEN 1]` (R109). -/
def rdenActions : List Action := [.write (.rcen 1#1)]

/-- UINIT (R101). -/
def execUinit (s : State) : Host.Outcome State Fault Refusal := microStep uinitActions (some .init) s

/-- START (R102). -/
def execStart (s : State) : Host.Outcome State Fault Refusal := microStep startActions (some .start) s

/-- RESTART (R103). -/
def execRestart (s : State) : Host.Outcome State Fault Refusal := microStep restartActions (some .restart) s

/-- STOP (R104). -/
def execStop (s : State) : Host.Outcome State Fault Refusal := microStep stopActions (some .stop) s

/-- ACK (R105). -/
def execAck (s : State) : Host.Outcome State Fault Refusal := microStep ackActions (some .ack) s

/-- NACK (R106). -/
def execNack (s : State) : Host.Outcome State Fault Refusal := microStep nackActions (some .nack) s

/-- IDLE (R107). -/
def execIdle (s : State) : Host.Outcome State Fault Refusal := microStep idleActions (some .idle) s

/-- WRB HI (R77, R108). -/
def execWrbHi (s : State) : Host.Outcome State Fault Refusal :=
  microStep (wrbActions (operandHi s)) (some (.writeByte (operandHi s))) s

/-- WRB LO (R77, R108). -/
def execWrbLo (s : State) : Host.Outcome State Fault Refusal :=
  microStep (wrbActions (operandLo s)) (some (.writeByte (operandLo s))) s

/-- WRB D (R77, R108). -/
def execWrbD (s : State) : Host.Outcome State Fault Refusal :=
  microStep (wrbActions (operandD s)) (some (.writeByte (operandD s))) s

/-- WRB A(page, op) (R77, R108). -/
def execWrbA (page op : Bit) (s : State) : Host.Outcome State Fault Refusal :=
  microStep (wrbActions (operandA page op s)) (some (.writeByte (operandA page op s))) s

/-- RDEN (R109). -/
def execRden (s : State) : Host.Outcome State Fault Refusal := microStep rdenActions (some .readEnable) s

end Sys2Proof.Machine
end

