-- ==== Sys2Proof/Machine/Transaction.lean ====
section
/-! DEFINITION. The two micro-operations that are no bus primitive: LATCH (R135) and END (R136). -/

namespace Sys2Proof.Machine

/-- `[L]` (R135). -/
def latchActions : List Action := [.latch]

/-- END's one action (R136). -/
def endActions : List Action := [.finish]

/-- LATCH (R135). -/
def execLatch (s : State) : Host.Outcome State Fault Refusal := microStep latchActions (some .readReceiveRegister) s

/-- END (R136): it joins no primitive-level trace (R143). -/
def execEnd (s : State) : Host.Outcome State Fault Refusal := microStep endActions none s

end Sys2Proof.Machine
end

