-- ==== Sys2Proof/Machine/Dispatch.lean ====
section
/-! DEFINITION. One arm for each constructor of Instr. A host command's step is its acceptance (R130); a
micro-operation's step is its action number ACT (R131). -/

namespace Sys2Proof.Machine

def exec (i : Instr) (s : State) : Host.Outcome State Fault Refusal :=
  match i with
  | .init sel raddr data => Sys2Proof.Machine.execInit sel raddr data s
  | .wrreg sel raddr data => Sys2Proof.Machine.execWrreg sel raddr data s
  | .rdreg sel raddr data => Sys2Proof.Machine.execRdreg sel raddr data s
  | .endOp => Sys2Proof.Machine.execEnd s
  | .uinit => Sys2Proof.Machine.execUinit s
  | .start => Sys2Proof.Machine.execStart s
  | .restart => Sys2Proof.Machine.execRestart s
  | .stop => Sys2Proof.Machine.execStop s
  | .ack => Sys2Proof.Machine.execAck s
  | .nack => Sys2Proof.Machine.execNack s
  | .idle => Sys2Proof.Machine.execIdle s
  | .wrbHi => Sys2Proof.Machine.execWrbHi s
  | .wrbLo => Sys2Proof.Machine.execWrbLo s
  | .wrbD => Sys2Proof.Machine.execWrbD s
  | .wrbA page op => Sys2Proof.Machine.execWrbA page op s
  | .rden => Sys2Proof.Machine.execRden s
  | .latch => Sys2Proof.Machine.execLatch s

end Sys2Proof.Machine
end

