-- ==== Sys2Proof/Machine/Step.lean ====
section
/-! DEFINITION. One step: HOST's pending input if it moves now, else CORE's one enabled step (R130, R131). -/

namespace Sys2Proof.Machine

/-- HOST's step: a presented word is accepted or refused (R130), an output is read (R75). While `RUN = 1` any word is
refused as R130 (a). -/
def hostStep (a : HostAct) (s : State) : Host.Outcome State Fault Refusal :=
  match a with
  | .read r => hostRead r s
  | .present w =>
    if s.run then .refused .commandWhileRunning
    else
      match decodeCommand w with
      | .ok i => exec i s
      | .error _ => .refused .reservedCommandWord

/-- CORE's step: the micro-operation at `UPC` (R131). While `RUN = 0` CORE has no step of its own: it waits (log 9). -/
def coreStep (s : State) : Host.Outcome State Fault Refusal :=
  if s.run then
    match decodeMicro (romFetch s) with
    | .ok i => exec i s
    | .error _ => .refused .reservedMicroWord
  else .next s

/-- One step of the modelled system. -/
def step (s : State) : Host.Outcome State Fault Refusal :=
  match hostTurn s with
  | some (a, s') => hostStep a s'
  | none => coreStep s

/-- `s` with one instruction of the opcode table placed where the next step takes it (log 8): a command word as HOST's
next input, a micro-operation word in the ROM at `UPC`. -/
def State.withFetchWord (s : State) (nbits w : Nat) : State :=
  if nbits = 32 then placeCommand (BitVec.ofNat 32 w) s
  else placeMicro (BitVec.ofNat 8 w) s

end Sys2Proof.Machine
end

