-- ==== Sys2Proof/Machine/Phase.lean ====
section
/-! DEFINITION. The protocol phase (R40, R111), the regions of the ROM (R79) and the poll numbering (R142): functions of
`RUN` and `UPC`, nothing of it stored. -/

namespace Sys2Proof.Machine

/-- The phases of R12 and R111. `ack` is never entered. -/
inductive Phase
  | idle
  | start
  | address
  | restart
  | data
  | ack
  | nack
  | stop
  deriving DecidableEq, Repr

/-- The phase of a ROM address, the table of R111; INIT's addresses and the unreachable ones are IDLE. -/
def phaseAt (a : Nat) : Phase :=
  if a = 0 || a = 16 then .start
  else if a = 1 || a = 2 || a = 17 || a = 18 || a = 24 || a = 25 then .address
  else if (3 ≤ a && a ≤ 8) || (19 ≤ a && a ≤ 22) || a = 26 then .data
  else if a = 23 then .restart
  else if a = 27 then .nack
  else if a = 9 || a = 28 then .stop
  else .idle

/-- `PHASE` (R40): IDLE when `RUN = 0`, otherwise the phase of the micro-operation at `UPC`. -/
def State.phase (s : State) : Phase := if s.run then phaseAt s.upc.toNat else .idle

/-- The addresses a routine can reach (R79): WRREG 0 to 10, RDREG 16 to 30, INIT 32 and 33. -/
def reachableAddress (a : Nat) : Bool := a ≤ 10 || (16 ≤ a && a ≤ 30) || (32 ≤ a && a ≤ 33)

/-- How many polls its routine has completed when the micro-operation at an address begins: the number of the poll the
table of R142 gives that address. RDEN, LATCH, UINIT and END have no poll. -/
def pollsBefore (a : Nat) : Nat :=
  if a ≤ 10 then a
  else if a ≤ 26 then a - 16
  else if a ≤ 28 then a - 17
  else if a ≤ 30 then 12
  else 0

end Sys2Proof.Machine
end

