-- ==== Sys2Proof/Machine/Signals.lean ====
section
/-! DEFINITION. The action list and primitive of every micro-operation (R110, R143), TimeoutPoll as the algorithm of R91,
and the traces of the commands as R143 and R144 write them. -/

namespace Sys2Proof.Machine

/-- The action lists (R100, R110). The host commands are no micro-operations and have none. -/
def actionsOf (i : Instr) (s : State) : List Action :=
  match i with
  | .init _ _ _ => []
  | .wrreg _ _ _ => []
  | .rdreg _ _ _ => []
  | .endOp => endActions
  | .uinit => uinitActions
  | .start => startActions
  | .restart => restartActions
  | .stop => stopActions
  | .ack => ackActions
  | .nack => nackActions
  | .idle => idleActions
  | .wrbHi => wrbActions (operandHi s)
  | .wrbLo => wrbActions (operandLo s)
  | .wrbD => wrbActions (operandD s)
  | .wrbA page op => wrbActions (operandA page op s)
  | .rden => rdenActions
  | .latch => latchActions

/-- The map of R143 from micro-operations to the primitive-level trace. -/
def primitiveOf (i : Instr) (s : State) : Option Primitive :=
  match i with
  | .init _ _ _ => none
  | .wrreg _ _ _ => none
  | .rdreg _ _ _ => none
  | .endOp => none
  | .uinit => some .init
  | .start => some .start
  | .restart => some .restart
  | .stop => some .stop
  | .ack => some .ack
  | .nack => some .nack
  | .idle => some .idle
  | .wrbHi => some (.writeByte (operandHi s))
  | .wrbLo => some (.writeByte (operandLo s))
  | .wrbD => some (.writeByte (operandD s))
  | .wrbA page op => some (.writeByte (operandA page op s))
  | .rden => some .readEnable
  | .latch => some .readReceiveRegister

/-- Whether an action is a poll. -/
def Action.isPoll : Action → Bool
  | .poll _ _ => true
  | .write _ => false
  | .config => false
  | .latch => false
  | .finish => false

/-- The port writes of the actions before the poll, and of those after it (R110). -/
def Action.portWrites : Action → List PortWrite
  | .write w => [w]
  | .config => [.cfg configRecord]
  | .poll _ _ => []
  | .latch => []
  | .finish => []

/-! TimeoutPoll as an algorithm. -/

/-- The loop of R91 with `n` samples left: sample, count, compare; after a failed sample, delay. -/
def pollLoop (p : StatusPort) (target : Bit) : Nat → State → PollEnd × State
  | 0, s => (.timeout, s)
  | n + 1, s =>
    if statusAnswer p s = target then (.ok, countSample p s)
    else pollLoop p target n (delay (countSample p s))

/-- `Poll(p, t)` (R90, R91), with `POLL_BUDGET` samples. -/
def poll (p : StatusPort) (target : Bit) (s : State) : PollEnd × State :=
  pollLoop p target Config.params.pollBudget { s with cnt := 0#8 }

/-- A whole action: a poll runs to its end, every other action is one step. -/
def performWhole (a : Action) (last : Bool) (prim : Option Primitive) (s : State) : State :=
  match a with
  | .poll p target => endPoll (poll p target s).1 last prim (poll p target s).2
  | .write w => perform (.write w) last prim s
  | .config => perform .config last prim s
  | .latch => perform .latch last prim s
  | .finish => perform .finish last prim s

/-- A whole action list, in order (R100). -/
def runActions (prim : Option Primitive) : List Action → State → State
  | [], s => s
  | a :: rest, s => runActions prim rest (performWhole a rest.isEmpty prim s)

/-- A whole micro-operation, from its first action to its completion (R100, R131). -/
def runMicro (i : Instr) (s : State) : State := runActions (primitiveOf i s) (actionsOf i s) s

/-- The micro-operations of the WRREG routine (R79, R132). -/
def wrregRoutine : List Instr :=
  [.start, .wrbA Config.params.pageTxn 0#1, .idle, .wrbHi, .idle, .wrbLo, .idle, .wrbD, .idle, .stop, .endOp]

/-- The micro-operations of the RDREG routine (R79, R133). -/
def rdregRoutine : List Instr :=
  [.start, .wrbA Config.params.pageTxn 0#1, .idle, .wrbHi, .idle, .wrbLo, .idle, .restart] ++
  [.wrbA Config.params.pageTxn 1#1, .idle, .rden, .nack, .stop, .latch, .endOp]

/-- The micro-operations of the INIT routine (R79, R134). -/
def initRoutine : List Instr := [.uinit, .endOp]

/-- A routine as the composition of its whole micro-operations: the pseudocode of R132 to R134. -/
def runRoutine (r : List Instr) (s : State) : State := r.foldl (fun t i => runMicro i t) s

/-! The traces of R143 and R144. -/

/-- The outcome of a poll (R90): `Ok(n)`, the n-th sample was the first to equal the target, or `Timeout`. -/
inductive PollOutcome
  | ok (n : Nat)
  | timeout
  deriving DecidableEq, Repr

/-- `1 <= n <= 240` (R90). -/
def PollOutcome.legal : PollOutcome → Bool
  | .ok n => 1 ≤ n && n ≤ Config.params.pollBudget
  | .timeout => true

/-- A failed sample and the delay after it, `Rd(p,1), Tick`, so many times. -/
def failedSamples (p : StatusPort) (n : Nat) : List Event := (List.replicate n [Event.rd p 1#1, Event.tick]).flatten

/-- The events of a poll (R144, `P_i(p)`). -/
def pollEvents (p : StatusPort) : PollOutcome → List Event
  | .ok n => failedSamples p (n - 1) ++ [.rd p 0#1]
  | .timeout => failedSamples p Config.params.pollBudget

/-- The steps a poll takes (R92). -/
def PollOutcome.steps : PollOutcome → Nat
  | .ok n => 2 * n - 1
  | .timeout => 2 * Config.params.pollBudget

/-- The time units a poll takes (R91). -/
def PollOutcome.ticks : PollOutcome → Nat
  | .ok n => n - 1
  | .timeout => Config.params.pollBudget

/-- `TO_MAP` after a routine whose polls, from number `k` on, end so (R142, R151). -/
def timeoutBits : Nat → List PollOutcome → ToMap
  | _, [] => 0#12
  | k, .ok _ :: os => timeoutBits (k + 1) os
  | k, .timeout :: os => ToMap.set (timeoutBits (k + 1) os) (BitVec.ofNat 4 k)

/-- An entry of a signal-level trace as R144 writes it: a write, or the events of the next poll. -/
inductive SignalItem
  | w (x : PortWrite)
  | p (port : StatusPort)
  deriving DecidableEq, Repr

/-- The trace of a list of entries, given how its polls end. -/
def fillPolls : List SignalItem → List PollOutcome → List Event
  | [], _ => []
  | .w x :: items, os => .wr x :: fillPolls items os
  | .p _ :: _, [] => []
  | .p port :: items, o :: os => pollEvents port o ++ fillPolls items os

/-- START and the write-direction address phase with the two address bytes, common to both transactions (R144). -/
def addressItems (sel : Sel) (raddr : Addr16) : List SignalItem :=
  [.w (.ackdt 0#1), .w (.reqStart 1#1), .p .staStart] ++
  [.w (.txreg (encodeAddress sel Config.params.pageTxn 0#1)), .p .tbf, .p .staTrstat] ++
  [.w (.txreg (hiByte raddr)), .p .tbf, .p .staTrstat] ++
  [.w (.txreg (loByte raddr)), .p .tbf, .p .staTrstat]

/-- STOP (R144). -/
def stopItems : List SignalItem := [.w (.rcen 0#1), .w (.reqStop 1#1), .p .staStop]

/-- The signal-level trace of `WRREG s,a,d` (R144). -/
def wrregItems (sel : Sel) (raddr : Addr16) (data : Byte) : List SignalItem :=
  addressItems sel raddr ++ [.w (.txreg data), .p .tbf, .p .staTrstat] ++ stopItems

/-- The signal-level trace of `RDREG s,a` before its last event `Rd(RXREG,r)` (R144). -/
def rdregItems (sel : Sel) (raddr : Addr16) : List SignalItem :=
  addressItems sel raddr ++
  [.w (.reqRestart 1#1), .p .staRestart, .w (.ackdt 0#1), .w (.tbf 0#1)] ++
  [.w (.txreg (encodeAddress sel Config.params.pageTxn 1#1)), .p .tbf, .p .staTrstat] ++
  [.w (.rcen 1#1), .w (.ackdt 1#1), .w (.reqAck 1#1), .p .staAck] ++ stopItems

/-- The primitive-level trace of `WRREG s,a,d` (R143). -/
def wrregPrimitives (sel : Sel) (raddr : Addr16) (data : Byte) : List Primitive :=
  [.start, .writeByte (encodeAddress sel Config.params.pageTxn 0#1), .idle, .writeByte (hiByte raddr), .idle] ++
  [.writeByte (loByte raddr), .idle, .writeByte data, .idle, .stop]

/-- The primitive-level trace of `RDREG s,a` (R143). -/
def rdregPrimitives (sel : Sel) (raddr : Addr16) : List Primitive :=
  [.start, .writeByte (encodeAddress sel Config.params.pageTxn 0#1), .idle, .writeByte (hiByte raddr), .idle] ++
  [.writeByte (loByte raddr), .idle, .restart, .writeByte (encodeAddress sel Config.params.pageTxn 1#1), .idle] ++
  [.readEnable, .nack, .stop, .readReceiveRegister]

/-- The steps the polls of a routine take together. -/
def pollSteps (os : List PollOutcome) : Nat := (os.map PollOutcome.steps).sum

/-- The `Wr` events of a trace, in order (R144). -/
def writesOf : List Event → List PortWrite
  | [] => []
  | .wr w :: es => w :: writesOf es
  | .rd _ _ :: es => writesOf es
  | .rdRx _ :: es => writesOf es
  | .tick :: es => writesOf es

/-- The time units of a trace: its `Tick` events (R9, R184). -/
def ticksOf (es : List Event) : Nat := es.countP (· == .tick)

end Sys2Proof.Machine
end

