-- ==== Sys2Proof/Machine/Wire.lean ====
section
/-! DEFINITION. Format W, the bus frame (R73), and what the two-wire bus carries when ENV is a peripheral and a device
that follow the protocol (R54, R65, R66): a reading of CORE's trace, given so that a bus simulator can be checked against
CORE. It is no rule of CORE and no operation of CORE uses it (log 22). -/

namespace Sys2Proof.Machine

/-- One symbol on the wire (R73). -/
inductive WireSymbol
  /-- Start condition. -/
  | startCond
  /-- Repeated-start condition. -/
  | repeatedStartCond
  /-- Stop condition. -/
  | stopCond
  /-- A data bit driven by the master. -/
  | dataBit (v : Bit)
  /-- The acknowledge bit the device sends after a byte of the master: 0 = ACK, 1 = NACK. CORE never looks at it. -/
  | deviceAck (v : Bit)
  /-- A data bit driven by the device. -/
  | deviceBit (v : Bit)
  /-- The acknowledge bit the master sends after a byte of the device: 0 = ACK, 1 = NACK (R105, R106). -/
  | masterAck (v : Bit)
  deriving DecidableEq, Repr

/-- The eight bits of a byte in wire order (R54): bit 7 travels first. -/
def msbFirst (b : Byte) : Vector Bit 8 :=
  #v[b.extractLsb' 7 1, b.extractLsb' 6 1, b.extractLsb' 5 1, b.extractLsb' 4 1,
     b.extractLsb' 3 1, b.extractLsb' 2 1, b.extractLsb' 1 1, b.extractLsb' 0 1]

/-- `RXREG` as the peripheral assembles it from eight received bits (R54): the first becomes bit 7. -/
def assembleByte (bits : Vector Bit 8) : Byte :=
  bits[0] ++ bits[1] ++ bits[2] ++ bits[3] ++ bits[4] ++ bits[5] ++ bits[6] ++ bits[7]

/-- Eight bits as they travel, the first first. -/
def inOrder (bits : Vector Bit 8) : List Bit :=
  [bits[0], bits[1], bits[2], bits[3], bits[4], bits[5], bits[6], bits[7]]

/-- A byte slot of a frame: eight data bits in wire order, then the acknowledge bit its receiver sends (R73). -/
inductive ByteSlot
  /-- The master sends a byte, the device acknowledges. -/
  | fromMaster (b : Byte) (ack : Bit)
  /-- The device sends eight bits, the master acknowledges. -/
  | fromDevice (bits : Vector Bit 8) (ack : Bit)
  deriving DecidableEq, Repr

/-- The nine symbols of a byte slot. -/
def ByteSlot.symbols : ByteSlot → List WireSymbol
  | .fromMaster b ack => (inOrder (msbFirst b)).map .dataBit ++ [.deviceAck ack]
  | .fromDevice bits ack => (inOrder bits).map .deviceBit ++ [.masterAck ack]

/-- A frame of format W (R73): the byte slots after the start condition, and those after a repeated start if there is
one. -/
structure Frame where
  slots        : List ByteSlot
  afterRestart : Option (List ByteSlot)
  deriving DecidableEq, Repr

/-- The symbols of a frame: one start condition, its slots, optionally a repeated start and more slots, one stop
condition (R73). -/
def Frame.symbols (f : Frame) : List WireSymbol :=
  [.startCond] ++ f.slots.flatMap ByteSlot.symbols ++
  (match f.afterRestart with
    | none => []
    | some slots => .repeatedStartCond :: slots.flatMap ByteSlot.symbols) ++
  [.stopCond]

/-- Whether the first slot is a byte of the master in format A, its upper four bits the family code (R71, R73). -/
def startsWithAddress : List ByteSlot → Bool
  | [] => false
  | .fromMaster b _ :: _ => b.extractLsb' 4 4 == Config.params.deviceId
  | .fromDevice _ _ :: _ => false

/-- A frame has one or more byte slots, and the first byte after a start or repeated start is an address byte (R73). -/
def Frame.wf (f : Frame) : Bool :=
  startsWithAddress f.slots &&
  match f.afterRestart with
  | none => true
  | some slots => startsWithAddress slots

/-- What the device drives on the data line, a part of ENV that nothing constrains (R51, R54): its acknowledge bit after
the `k`-th byte of the master, and the eight bits of the `k`-th byte it sends, in the order they travel. -/
structure LineDevice where
  acks  : Nat → Bit
  sends : Nat → Vector Bit 8

/-- Where a trace stands on the wire: how many bytes the master has sent and received, and the value last written to
`ACKDT`, which the master sends when the acknowledge sequence is triggered (R66). -/
structure WireCursor where
  sent     : Nat
  received : Nat
  ack      : Bit
  deriving DecidableEq, Repr

/-- The cursor after one `PifWrite`. -/
def WireCursor.after (c : WireCursor) : PortWrite → WireCursor
  | .reqStart _ => c
  | .reqRestart _ => c
  | .reqStop _ => c
  | .reqAck _ => c
  | .ackdt v => { c with ack := v }
  | .rcen v => if v = 1#1 then { c with received := c.received + 1 } else c
  | .tbf _ => c
  | .txreg _ => { c with sent := c.sent + 1 }
  | .cfg _ => c

/-- What one `PifWrite` puts on the wire (R54, R65, R66): a request its condition or the master's acknowledge bit, a byte
in `TXREG` its slot, receive-enable the eight bits the device sends. -/
def wireOf (dev : LineDevice) (c : WireCursor) : PortWrite → List WireSymbol
  | .reqStart _ => [.startCond]
  | .reqRestart _ => [.repeatedStartCond]
  | .reqStop _ => [.stopCond]
  | .reqAck _ => [.masterAck c.ack]
  | .ackdt _ => []
  | .rcen v => if v = 1#1 then (inOrder (dev.sends c.received)).map .deviceBit else []
  | .tbf _ => []
  | .txreg b => (ByteSlot.fromMaster b (dev.acks c.sent)).symbols
  | .cfg _ => []

/-- The wire image of a trace; a read and a delay put nothing on the wire. -/
def wireImage (dev : LineDevice) : WireCursor → List Event → List WireSymbol
  | _, [] => []
  | c, .wr w :: es => wireOf dev c w ++ wireImage dev (c.after w) es
  | c, .rd _ _ :: es => wireImage dev c es
  | c, .rdRx _ :: es => wireImage dev c es
  | c, .tick :: es => wireImage dev c es

/-- The byte in `RXREG` where a trace stands, assembled from the bits received last; none before the first
receive-enable (R54, R66). -/
def receivedByte (dev : LineDevice) (c : WireCursor) : Option Byte :=
  match c.received with
  | 0 => none
  | n + 1 => some (assembleByte (dev.sends n))

/-- Whether ENV supplies as `RXREG` the byte that was received (R54, R66): every read of the trace after a receive-enable
answers it. -/
def suppliesReceived (dev : LineDevice) : WireCursor → List Event → Bool
  | _, [] => true
  | c, .wr w :: es => suppliesReceived dev (c.after w) es
  | c, .rd _ _ :: es => suppliesReceived dev c es
  | c, .rdRx r :: es =>
    (match receivedByte dev c with
      | none => true
      | some b => r == b) && suppliesReceived dev c es
  | c, .tick :: es => suppliesReceived dev c es

/-- The frame of a WRREG; `acks` are the device's acknowledge bits (R65). -/
def wrregFrame (sel : Sel) (raddr : Addr16) (data : Byte) (acks : Nat → Bit) : Frame where
  slots := [.fromMaster (encodeAddress sel Config.params.pageTxn 0#1) (acks 0), .fromMaster (hiByte raddr) (acks 1),
            .fromMaster (loByte raddr) (acks 2), .fromMaster data (acks 3)]
  afterRestart := none

/-- The frame of a RDREG; `r` is the byte ENV supplies as `RXREG`, and the master answers it with a not-acknowledge bit
(R66). -/
def rdregFrame (sel : Sel) (raddr : Addr16) (r : Byte) (acks : Nat → Bit) : Frame where
  slots := [.fromMaster (encodeAddress sel Config.params.pageTxn 0#1) (acks 0), .fromMaster (hiByte raddr) (acks 1),
            .fromMaster (loByte raddr) (acks 2)]
  afterRestart := some [.fromMaster (encodeAddress sel Config.params.pageTxn 1#1) (acks 3),
                        .fromDevice (msbFirst r) 1#1]

end Sys2Proof.Machine
end

