-- ==== Sys2Proof/Safety.lean ====
section
/-! DEFINITION. Runs, and what counts as a safe state, in the terms the statements use. -/

namespace Sys2Proof

open Machine

/-- A step function taken several times, stopping at the first fault or refusal. -/
def iterateSteps (f : State → Host.Outcome State Fault Refusal) : Nat → State → Host.Outcome State Fault Refusal
  | 0, s => .next s
  | n + 1, s =>
    match f s with
    | .next t => iterateSteps f n t
    | .fault r => .fault r
    | .refused r => .refused r

/-- Several steps of the machine. -/
def runSteps (n : Nat) (s : State) : Host.Outcome State Fault Refusal := iterateSteps step n s

/-- One instruction executed several times over: a micro-operation takes as many steps as its actions do (R92, R100). -/
def execSteps (i : Instr) (n : Nat) (s : State) : Host.Outcome State Fault Refusal := iterateSteps (exec i) n s

/-- A micro-operation is about to take its first step: `ACT`, `CNT` and `WAITING` are 0 (R25, R26). -/
def AtStart (s : State) : Prop := s.act = 0#2 ∧ s.cnt = 0#8 ∧ s.waiting = false

/-- The ROM holds R79's contents (R64). -/
def RomIntact (s : State) : Prop := s.rom = []

/-- The instruction the sequencer executes: what the ROM holds at `UPC` (R131). -/
def currentInstr (s : State) : Except DecodeError Instr := decodeMicro (romFetch s)

/-- How many of the first `n` actions of a list are polls. -/
def pollsAmong (l : List Action) (n : Nat) : Nat := (l.take n).countP Action.isPoll

/-- A poll's counters: inside a poll `CNT` is below the budget before a sample and between 1 and the budget before a
delay; outside a poll both are 0 (R26, R92). -/
def CountersOk (s : State) (inPoll : Bool) : Prop :=
  if inPoll then
    (if s.waiting then 1 ≤ s.cnt.toNat ∧ s.cnt.toNat ≤ Config.params.pollBudget
     else s.cnt.toNat < Config.params.pollBudget)
  else s.cnt = 0#8 ∧ s.waiting = false

/-- The sequencer is at a legal place: at a reachable address, at an action the micro-operation has, with the counters
of that action and as many completed polls as R142 numbers (R24 to R27). -/
def SequencerOk (s : State) : Prop :=
  reachableAddress s.upc.toNat = true ∧
  ∃ i, currentInstr s = .ok i ∧
    ∃ a, (actionsOf i s)[s.act.toNat]? = some a ∧
      CountersOk s a.isPoll ∧
      s.pidx.toNat = pollsBefore s.upc.toNat + pollsAmong (actionsOf i s) s.act.toNat

/-- The invariant of CORE: the ROM is intact; while `RUN = 1` the sequencer is at a legal place, `DONE` is 0 and
`INITED` says which routine can be running; `TO_MAP` has no bit at or above `PIDX`, `PIDX` is at most 12, and `TO_ANY` is
the or of `TO_MAP` (R24 to R30). -/
structure CoreInv (s : State) : Prop where
  rom : RomIntact s
  sequencer : s.run = true → SequencerOk s
  done : s.run = true → s.done = false
  inited : s.run = true → s.inited = decide (s.upc ≠ entryInit)
  pidx : s.pidx.toNat ≤ 12
  toMap : s.toMap.toNat < 2 ^ s.pidx.toNat
  toAny : s.toAny = ToMap.any s.toMap

/-- The memories of the machine: the ROM's listed cells, and the device register space where RefEnv is the chosen
environment (R50). -/
def memoriesOk (s : State) : Bool :=
  Memory.wf .rom s.rom &&
  match s.env with
  | .script _ _ => true
  | .ref e => Memory.wf .device e.device.mem

/-- One byte of the device register space as the environment holds it (R50); a script holds no device. -/
def deviceByteAt (s : State) (a : Nat) : Option Byte :=
  match s.env with
  | .script _ _ => none
  | .ref e => some (Memory.read .device e.device.mem a)

/-- Where a write of `TXREG` makes RefEnv's device store a byte: its target, when it awaits a data byte (D16). -/
def deviceStoreAddress (s : State) : Option Nat :=
  match s.env with
  | .script _ _ => none
  | .ref e => if e.device.ds = .dataW then some e.device.target else none

/-- What a bus primitive other than UINIT leaves alone, whatever its poll does (R100, R110). -/
structure KeepsRest (s t : State) : Prop where
  sel : t.sel = s.sel
  raddr : t.raddr = s.raddr
  wdata : t.wdata = s.wdata
  result : t.result = s.result
  resultValid : t.resultValid = s.resultValid
  run : t.run = s.run
  done : t.done = s.done
  inited : t.inited = s.inited
  rom : t.rom = s.rom
  host : t.host = s.host
  hostSeen : t.hostSeen = s.hostSeen

/-- At action `n`, executing `i` makes the port write `w` and goes on to the next action. -/
def WritesAt (i : Instr) (n : BitVec 2) (w : State → PortWrite) : Prop :=
  ∀ s, s.act = n → exec i s = .next { pifWrite (w s) s with act := n + 1#2 }

/-- At action `n`, executing `i` is one small step of its poll of `p` for 0 (R92); the poll is the last action or not. -/
def PollsAt (i : Instr) (n : BitVec 2) (p : StatusPort) (last : Bool) (prim : State → Primitive) : Prop :=
  ∀ s, s.act = n → exec i s = .next (pollStep p 0#1 last (some (prim s)) s)

/-- From its first action, executing `i` over and over makes the writes `pre`, the poll of `p` and the writes `post`, in
exactly the steps the poll's outcome takes, and completes: `UPC` and `PIDX` have gone on by one, the next
micro-operation is at its start, a timeout is recorded in the poll's bit, and nothing else has changed but ENV and the
ports (R100, R110, R131). -/
def RunsPoll (i : Instr) (pre : State → List PortWrite) (p : StatusPort) (post : List PortWrite)
    (prim : State → Primitive) : Prop :=
  ∀ s, AtStart s → ∃ o t, o.legal = true ∧
    execSteps i ((pre s).length + o.steps + post.length) s = .next t ∧
    t.trace = s.trace ++ ((pre s).map .wr ++ pollEvents p o ++ post.map .wr) ∧
    t.prims = s.prims ++ [prim s] ∧
    t.upc = s.upc + 1#6 ∧ AtStart t ∧ t.pidx = s.pidx + 1#4 ∧
    t.toMap = (if o = .timeout then ToMap.set s.toMap s.pidx else s.toMap) ∧
    t.toAny = (if o = .timeout then true else s.toAny) ∧
    KeepsRest s t

/-- The state a command finds when the contract of R11 holds: CORE not running, `init` has run, the ROM intact and HOST
waiting for END with whatever it does next. -/
structure Ready (s : State) : Prop where
  idle : s.run = false
  inited : s.inited = true
  rom : RomIntact s
  waits : s.hostWaits = true

/-- One form of WRB: load the transmit register with the byte, wait for the buffer-full indicator to clear. -/
def WritesByte (i : Instr) (b : State → Byte) : Prop :=
  WritesAt i 0#2 (fun s => .txreg (b s)) ∧ PollsAt i 1#2 .tbf true (fun s => .writeByte (b s)) ∧
  RunsPoll i (fun s => [.txreg (b s)]) .tbf [] (fun s => .writeByte (b s))

/-- WRB, in any of its forms. -/
def isWrb : Instr → Bool
  | .wrbHi => true
  | .wrbLo => true
  | .wrbD => true
  | .wrbA _ _ => true
  | .init _ _ _ => false
  | .wrreg _ _ _ => false
  | .rdreg _ _ _ => false
  | .endOp => false
  | .uinit => false
  | .start => false
  | .restart => false
  | .stop => false
  | .ack => false
  | .nack => false
  | .idle => false
  | .rden => false
  | .latch => false

/-- The accesses the port tables allow each micro-operation (R32 to R36); a delay belongs to a micro-operation with a
poll (R8). -/
def accessLegal (i : Instr) (e : Event) : Bool :=
  match e with
  | .wr (.reqStart v) => v == 1#1 && i == .start
  | .wr (.reqRestart v) => v == 1#1 && i == .restart
  | .wr (.reqStop v) => v == 1#1 && i == .stop
  | .wr (.reqAck v) => v == 1#1 && (i == .ack || i == .nack)
  | .wr (.ackdt v) => (v == 0#1 && (i == .start || i == .restart || i == .ack)) || (v == 1#1 && i == .nack)
  | .wr (.rcen v) => (v == 1#1 && i == .rden) || (v == 0#1 && i == .stop)
  | .wr (.tbf v) => v == 0#1 && i == .restart
  | .wr (.txreg _) => isWrb i
  | .wr (.cfg c) => c == configRecord && i == .uinit
  | .rd .staStart _ => i == .start
  | .rd .staRestart _ => i == .restart
  | .rd .staStop _ => i == .stop
  | .rd .staAck _ => i == .ack || i == .nack
  | .rd .staTrstat _ => i == .idle
  | .rd .tbf _ => isWrb i
  | .rdRx _ => i == .latch
  | .tick => i == .start || i == .restart || i == .stop || i == .ack || i == .nack || i == .idle || isWrb i

end Sys2Proof
end

