-- ==== Sys2Proof/Certificates/Slice0/Obligations.lean ====
section
/-! DEFINITION. The statements. The docstring of each names the rule it formalises, and says where a clause is the
spec's own decision (D<n> of 92_eei_decisions.md) or the model's (log <n>). -/

open Sys2Proof Sys2Proof.Machine

/-! Encodings, the codec and the splitter. -/

/-- Decoding the word of any instruction gives the instruction back, every operand included (R74 to R78; the codes are
D2 and D3, the ignored fields D27, carried by the constructors as log 21 says). -/
def Obligations.DecodeEncodeEveryInstruction : Prop := ∀ i : Instr, decode (encode i) = .ok i

/-- A word that decodes is the word of what it decodes to: no bit of a legal word is dropped, the ignored fields
included (R75, R77, R80; D2, D3, D27). -/
def Obligations.EncodeDecodeEveryWord : Prop := ∀ (c : Code) (i : Instr), decode c = .ok i → encode i = c

/-- Words written out from the encoding tables decode to what they stand for (R74, R77, R78; V80 to V91, V110 to V121;
the codes are D2 and D3, the ignored fields D27). -/
def Obligations.WordsOfTheSpecDecode : Prop :=
  decodeTableWord 32 0x10000000 = some (.init 0#2 0#16 0#8) ∧
  decodeTableWord 32 0x1C123456 = some (.init 3#2 0x1234#16 0x56#8) ∧
  decodeTableWord 32 0x2801007E = some (.wrreg 2#2 0x0100#16 0x7E#8) ∧
  decodeTableWord 32 0x34123400 = some (.rdreg 1#2 0x1234#16 0x00#8) ∧
  decodeTableWord 8 0x00 = some .endOp ∧ decodeTableWord 8 0x30 = some .restart ∧
  decodeTableWord 8 0x82 = some .wrbD ∧ decodeTableWord 8 0x89 = some (.wrbA 0#1 1#1) ∧
  decodeTableWord 8 0x8A = some (.wrbA 1#1 0#1) ∧ decodeTableWord 8 0xA0 = some .latch

/-- A command word is reserved exactly when `zero` is not 0 or `op` is none of 1, 2, 3, and the step that presents a
reserved word while `RUN = 0` is refused (R80, R130 (d); D14, log 11). -/
def Obligations.ReservedCommandWordsRefused : Prop :=
  ∀ w : CmdWord,
    ((∃ e, decodeCommand w = .error e) ↔
      zeroField w ≠ 0#2 ∨ (opField w ≠ 1#4 ∧ opField w ≠ 2#4 ∧ opField w ≠ 3#4)) ∧
    ∀ (s : State) (tm : HostTiming) (rest : List HostInput), s.run = false → s.host = ⟨tm, .present w⟩ :: rest →
      (∃ e, decodeCommand w = .error e) → step s = .refused .reservedCommandWord

/-- A micro-operation word is legal exactly when it is one of the seventeen of R77 and R78; every other byte is rejected
(R80; D3, D14). -/
def Obligations.ReservedMicroWordsRejected : Prop :=
  ∀ w : Byte, (∃ i, decodeMicro w = .ok i) ↔
    w ∈ [0x00#8, 0x10#8, 0x20#8, 0x30#8, 0x40#8, 0x50#8, 0x60#8, 0x70#8, 0x80#8] ++
        [0x81#8, 0x82#8, 0x88#8, 0x89#8, 0x8A#8, 0x8B#8, 0x90#8, 0xA0#8]

/-- R120: the address byte is `(DEVICE_ID << 4) | (select << 2) | (pageSelect << 1) | operation`, which is the four
fields side by side and `160 + 4*select + 2*pageSelect + operation`. -/
def Obligations.AddressByteFormula : Prop :=
  ∀ (sel : Sel) (page op : Bit),
    encodeAddress sel page op =
      (((Config.params.deviceId.zeroExtend 8) <<< 4) ||| ((sel.zeroExtend 8) <<< 2) |||
        ((page.zeroExtend 8) <<< 1) ||| (op.zeroExtend 8)) ∧
    encodeAddress sel page op = 0b1010#4 ++ sel ++ page ++ op ∧
    (encodeAddress sel page op).toNat = 160 + 4 * sel.toNat + 2 * page.toNat + op.toNat

/-- R71, format A: `deviceId` in bits 7:4, `select` in bits 3:2, `pageSelect` in bit 1, `operation` in bit 0; the packed
byte is `(deviceId<<4) | (select<<2) | (pageSelect<<1) | operation`, the same with `+`, for any family code; the codec
packs the constant 10. -/
def Obligations.AddressByteLayout : Prop :=
  (∀ (deviceId : BitVec 4) (sel : Sel) (page op : Bit),
    (packAddress deviceId sel page op).extractLsb' 4 4 = deviceId ∧
    (packAddress deviceId sel page op).extractLsb' 2 2 = sel ∧
    (packAddress deviceId sel page op).extractLsb' 1 1 = page ∧
    (packAddress deviceId sel page op).extractLsb' 0 1 = op ∧
    packAddress deviceId sel page op =
      (((deviceId.zeroExtend 8) <<< 4) ||| ((sel.zeroExtend 8) <<< 2) ||| ((page.zeroExtend 8) <<< 1) |||
        (op.zeroExtend 8)) ∧
    packAddress deviceId sel page op =
      ((deviceId.zeroExtend 8) <<< 4) + ((sel.zeroExtend 8) <<< 2) + ((page.zeroExtend 8) <<< 1) +
        (op.zeroExtend 8)) ∧
  ∀ (sel : Sel) (page op : Bit), encodeAddress sel page op = packAddress 0b1010#4 sel page op

/-- R121: `DEVICE_ID` is the constant 10, `10 << 4 = 160 = 0xA0`, and bits 7:4 of every address byte are `0b1010`, in
every state the machine can be in. -/
def Obligations.DeviceIdIsConstant : Prop :=
  Config.params.deviceId = 10#4 ∧ (Config.params.deviceId.zeroExtend 8) <<< 4 = 0xA0#8 ∧ (0xA0#8).toNat = 160 ∧
  (∀ (sel : Sel) (page op : Bit), (encodeAddress sel page op).extractLsb' 4 4 = 0b1010#4) ∧
  ∀ (s : State) (page op : Bit), (operandA page op s).extractLsb' 4 4 = 0b1010#4

/-- The codec is injective, its inputs are bits 3:0 of its output, and its image is exactly `0xA0` to `0xAF` (R122,
derived there from R120). -/
def Obligations.AddressBytesInjectiveInRange : Prop :=
  (∀ (sel : Sel) (page op : Bit), (encodeAddress sel page op).extractLsb' 2 2 = sel ∧
    (encodeAddress sel page op).extractLsb' 1 1 = page ∧ (encodeAddress sel page op).extractLsb' 0 1 = op) ∧
  ∀ b : Byte, (∃ (sel : Sel) (page op : Bit), encodeAddress sel page op = b) ↔ 0xA0 ≤ b.toNat ∧ b.toNat ≤ 0xAF

/-- The splitter: `hi(a) = a div 256`, `lo(a) = a mod 256`, `a = 256*hi(a) + lo(a)` (R124, R72; the source gives no
formula for the high byte: `a div 256` is D26, and R72 marks it derived). -/
def Obligations.RegisterAddressSplit : Prop :=
  ∀ a : Addr16, (hiByte a).toNat = a.toNat / 256 ∧ (loByte a).toNat = a.toNat % 256 ∧
    a.toNat = 256 * (hiByte a).toNat + (loByte a).toNat

/-- The assembler refuses a line exactly when an operand is out of its range, `sel` 0 to 3, `raddr` 0 to 65535, `data` 0
to 255, `page` and `op` 0 to 1, and never masks one: what it assembles has the operands that were written. A line without
numerals is never refused; the ignored fields of INIT and RDREG are 0 (R75, R82, R122, U16; the words are D2 and D3, the
ignored fields D27). -/
def Obligations.AssemblerRefusesOutOfRange : Prop :=
  (∀ sel raddr data : Nat,
    (sel < 4 ∧ raddr < 65536 ∧ data < 256 →
      ∃ (x : Sel) (y : Addr16) (z : Byte), assemble (.wrreg sel raddr data) = some (.wrreg x y z) ∧
        x.toNat = sel ∧ y.toNat = raddr ∧ z.toNat = data) ∧
    (4 ≤ sel ∨ 65536 ≤ raddr ∨ 256 ≤ data → assemble (.wrreg sel raddr data) = none)) ∧
  (∀ sel raddr : Nat,
    (sel < 4 ∧ raddr < 65536 →
      ∃ (x : Sel) (y : Addr16), assemble (.rdreg sel raddr) = some (.rdreg x y 0#8) ∧
        x.toNat = sel ∧ y.toNat = raddr) ∧
    (4 ≤ sel ∨ 65536 ≤ raddr → assemble (.rdreg sel raddr) = none)) ∧
  (∀ page op : Nat,
    (page < 2 ∧ op < 2 →
      ∃ x y : Bit, assemble (.wrb (.a page op)) = some (.wrbA x y) ∧ x.toNat = page ∧ y.toNat = op) ∧
    (2 ≤ page ∨ 2 ≤ op → assemble (.wrb (.a page op)) = none)) ∧
  assemble .init = some (.init 0#2 0#16 0#8) ∧
  assemble (.wrb .hi) = some .wrbHi ∧ assemble (.wrb .lo) = some .wrbLo ∧ assemble (.wrb .d) = some .wrbD ∧
  assemble .endOp = some .endOp ∧ assemble .uinit = some .uinit ∧ assemble .start = some .start ∧
  assemble .restart = some .restart ∧ assemble .stop = some .stop ∧ assemble .ack = some .ack ∧
  assemble .nack = some .nack ∧ assemble .idle = some .idle ∧ assemble .rden = some .rden ∧
  assemble .latch = some .latch

/-! Reset, and how a step chooses what runs. -/

/-- What reset leaves, of the elements the table of R41 gives a value (R41, R170; the values are D11). -/
def Obligations.ResetValues : Prop :=
  State.reset.run = false ∧ State.reset.done = false ∧ State.reset.inited = false ∧
  State.reset.toAny = false ∧ State.reset.toMap = 0#12 ∧ State.reset.cnt = 0#8 ∧ State.reset.waiting = false ∧
  State.reset.act = 0#2 ∧ State.reset.pidx = 0#4 ∧ State.reset.trace = []

/-- Reset meets the invariant of CORE and has canonical memories (R41, R50; the values are D11, nothing listed in the
ROM log 7, ENV's script log 5). -/
def Obligations.ResetMeetsTheInvariants : Prop := CoreInv State.reset ∧ memoriesOk State.reset = true

/-- A step is the instruction decoded where this machine takes it. (a) While `RUN = 1` and HOST does not move, the
micro-operation the ROM holds at `UPC` (R131; D3). (b) While `RUN = 0`, the command HOST's next input presents, that
input taken from the list (R130; D2, log 9). (c) While `RUN = 0` and HOST has no input, CORE waits: the state stays
(R131; log 9). -/
def Obligations.StepRunsTheDecodedInstruction : Prop :=
  (∀ (s : State) (i : Instr), s.run = true → s.hostWaits = true →
    decodeMicro (Memory.read .rom s.rom s.upc.toNat) = .ok i → step s = exec i s) ∧
  (∀ (s : State) (i : Instr) (w : CmdWord) (tm : HostTiming) (rest : List HostInput), s.run = false →
    s.host = ⟨tm, .present w⟩ :: rest → decodeCommand w = .ok i → step s = exec i { s with host := rest }) ∧
  ∀ s : State, s.run = false → s.host = [] → step s = .next s

/-- A word presented while `RUN = 1` is refused, whatever word it is (R130 (a), R63; D12, log 11; a reserved word too,
log 24; HOST's input is log 9). -/
def Obligations.WordPresentedWhileRunningRefused : Prop :=
  ∀ (s : State) (w : CmdWord) (rest : List HostInput), s.run = true → s.host = ⟨.now, .present w⟩ :: rest →
    step s = .refused .commandWhileRunning

/-- The ROM of a machine whose ROM is intact holds the three routines at 0, 16 and 32, END everywhere else, and no
location holds ACK or a page-1 WRB (R79; the addresses are D3). -/
def Obligations.RomHoldsTheRoutines : Prop :=
  (List.range 11).map (fun a => decodeMicro (romImage a)) = wrregRoutine.map .ok ∧
  (List.range 15).map (fun a => decodeMicro (romImage (16 + a))) = rdregRoutine.map .ok ∧
  (List.range 2).map (fun a => decodeMicro (romImage (32 + a))) = initRoutine.map .ok ∧
  ∀ a < 64, reachableAddress a = false → romImage a = 0x00#8

/-- The protocol phase of each address of the two transaction routines, and IDLE when `RUN = 0` (R40, R111; the
addresses are D3). -/
def Obligations.PhasesOfTheRoutines : Prop :=
  (List.range 11).map phaseAt =
    [.start, .address, .address, .data, .data, .data, .data, .data, .data, .stop, .idle] ∧
  (List.range 15).map (fun a => phaseAt (16 + a)) =
    [.start, .address, .address, .data, .data, .data, .data, .restart, .address, .address] ++
    [.data, .nack, .stop, .idle, .idle] ∧
  ∀ s : State, (s.run = false → s.phase = .idle) ∧ (s.run = true → s.phase = phaseAt s.upc.toNat)

/-! Commands. -/

/-- A command accepted: the latches, `UPC` at its entry address, the counters and flags cleared, `RUN` set; nothing
else changes, so `RESULT`, `INITED`, `TRACE`, the ports, the ROM and ENV stay (R130; D2, D3, D27, the ignored fields
log 21). -/
def Obligations.CommandsAccepted : Prop :=
  ∀ (s : State) (sel : Sel) (raddr : Addr16) (data : Byte), s.run = false →
    (s.inited = false → exec (.init sel raddr data) s = .next { s with
      sel := sel, raddr := raddr, wdata := data, upc := 32#6, act := 0#2, cnt := 0#8, waiting := false, pidx := 0#4,
      toMap := 0#12, toAny := false, done := false, run := true }) ∧
    (s.inited = true → exec (.wrreg sel raddr data) s = .next { s with
      sel := sel, raddr := raddr, wdata := data, upc := 0#6, act := 0#2, cnt := 0#8, waiting := false, pidx := 0#4,
      toMap := 0#12, toAny := false, done := false, run := true }) ∧
    (s.inited = true → exec (.rdreg sel raddr data) s = .next { s with
      sel := sel, raddr := raddr, wdata := data, upc := 16#6, act := 0#2, cnt := 0#8, waiting := false, pidx := 0#4,
      toMap := 0#12, toAny := false, done := false, run := true })

/-- A command refused: any of the three while `RUN = 1`, a transaction before INIT, a second INIT (R130 (a) to (c); D12,
D13, log 11). -/
def Obligations.CommandsRefused : Prop :=
  ∀ (s : State) (sel : Sel) (raddr : Addr16) (data : Byte),
    (s.run = true →
      exec (.init sel raddr data) s = .refused .commandWhileRunning ∧
      exec (.wrreg sel raddr data) s = .refused .commandWhileRunning ∧
      exec (.rdreg sel raddr data) s = .refused .commandWhileRunning) ∧
    (s.run = false → s.inited = false →
      exec (.wrreg sel raddr data) s = .refused .transactionBeforeInit ∧
      exec (.rdreg sel raddr data) s = .refused .transactionBeforeInit) ∧
    (s.run = false → s.inited = true → exec (.init sel raddr data) s = .refused .secondInit)

/-! PIF accesses, TimeoutPoll and PhaseTimeout. -/

/-- One PIF access is one event of `TRACE` and touches CORE's own state nowhere; a read answers what ENV supplies and
counts as one read. The port written or read then holds the value transferred, and no other port changes: that a port's
field is the value last transferred is log 4 (R8, R51; D20, log 4, log 5). -/
def Obligations.PifAccessesAreOneEvent : Prop :=
  (∀ (s : State) (w : PortWrite),
    pifWrite w s = { s with
      pif := (pifWrite w s).pif, env := s.env.observe w, trace := s.trace ++ [.wr w] }) ∧
  (∀ (s : State) (v : Bit) (b : Byte) (c : Cfg),
    (pifWrite (.reqStart v) s).pif = { s.pif with reqStart := v } ∧
    (pifWrite (.reqRestart v) s).pif = { s.pif with reqRestart := v } ∧
    (pifWrite (.reqStop v) s).pif = { s.pif with reqStop := v } ∧
    (pifWrite (.reqAck v) s).pif = { s.pif with reqAck := v } ∧
    (pifWrite (.ackdt v) s).pif = { s.pif with ackdt := v } ∧
    (pifWrite (.rcen v) s).pif = { s.pif with rcen := v } ∧
    (pifWrite (.tbf v) s).pif = { s.pif with tbf := v } ∧
    (pifWrite (.txreg b) s).pif = { s.pif with txreg := b } ∧
    (pifWrite (.cfg c) s).pif = { s.pif with cfg := c }) ∧
  (∀ (s : State) (p : StatusPort),
    pifSample p s = { s with
      pif := (pifSample p s).pif, env := (s.env.answer p s.draws).2,
      trace := s.trace ++ [.rd p (s.env.answer p s.draws).1], draws := s.draws + 1 }) ∧
  (∀ s : State,
    (pifSample .staStart s).pif = { s.pif with staStart := (s.env.answer .staStart s.draws).1 } ∧
    (pifSample .staRestart s).pif = { s.pif with staRestart := (s.env.answer .staRestart s.draws).1 } ∧
    (pifSample .staStop s).pif = { s.pif with staStop := (s.env.answer .staStop s.draws).1 } ∧
    (pifSample .staAck s).pif = { s.pif with staAck := (s.env.answer .staAck s.draws).1 } ∧
    (pifSample .staTrstat s).pif = { s.pif with staTrstat := (s.env.answer .staTrstat s.draws).1 } ∧
    (pifSample .tbf s).pif = { s.pif with tbf := (s.env.answer .tbf s.draws).1 } ∧
    pifReadRx s = { s with
      pif := { s.pif with rxreg := (s.env.answerRx s.draws).1 }, env := (s.env.answerRx s.draws).2,
      trace := s.trace ++ [.rdRx (s.env.answerRx s.draws).1], draws := s.draws + 1 } ∧
    delay s = { s with trace := s.trace ++ [.tick] })

/-- The small steps of a poll for 0 (R92; D7, D22, D23): a sample is taken and counted; on 0 the poll ends `Ok`, else
`WAITING` is set; a delay clears `WAITING`, and after the 240th failed sample the poll ends `Timeout`, setting bit
`PIDX` of `TO_MAP` and `TO_ANY`. The flags are D8, no bit for a `PIDX` above 11 is log 13, the sampled port's field log
4, the primitive recorded where the poll is the last action log 18. -/
def Obligations.PollSmallSteps : Prop :=
  ∀ (p : StatusPort) (last : Bool) (prim : Option Primitive) (s : State),
    (s.waiting = false → statusAnswer p s = 0#1 →
      pollStep p 0#1 last prim s =
        advance last prim { pifSample p s with cnt := 0#8, waiting := false, pidx := s.pidx + 1#4 }) ∧
    (s.waiting = false → statusAnswer p s = 1#1 →
      pollStep p 0#1 last prim s = { pifSample p s with cnt := s.cnt + 1#8, waiting := true }) ∧
    (s.waiting = true → s.cnt = 240#8 →
      pollStep p 0#1 last prim s =
        advance last prim { s with
          trace := s.trace ++ [.tick], cnt := 0#8, waiting := false, pidx := s.pidx + 1#4,
          toMap := ToMap.set s.toMap s.pidx, toAny := true }) ∧
    (s.waiting = true → s.cnt ≠ 240#8 →
      pollStep p 0#1 last prim s = { s with trace := s.trace ++ [.tick], waiting := false })

/-- The contract of a poll, for any target: if the first `n - 1` answers differ from the target and the `n`-th equals
it, `n` at most 240, the poll ends `Ok` after exactly `n` samples with one time unit between samples; if 240 answers
differ from it, the poll ends `Timeout` after exactly 240 samples and sets its bit of `TO_MAP` and `TO_ANY`. No later
answer is consumed; before its last step the poll has counted every sample taken, and nothing else changes (R90; one
delay after every failed sample, the 240th too, is D7, the small steps D22, `CNT` D23, the flags D8, the port's field
log 4, the primitive recorded where the poll is the last action log 18; no bit for a `PIDX` above 11 is log 13). -/
def Obligations.PollContract : Prop :=
  ∀ (p : StatusPort) (target : Bit) (last : Bool) (prim : Option Primitive) (s : State) (rest : List Bit)
    (rx : List Byte), s.cnt = 0#8 → s.waiting = false →
    (∀ n : Nat, 1 ≤ n → n ≤ 240 → s.env = .script (List.replicate (n - 1) (~~~target) ++ target :: rest) rx →
      (∀ k < n, ((pollStep p target last prim)^[2 * k] s).cnt.toNat = k) ∧
      (pollStep p target last prim)^[2 * n - 1] s = advance last prim { s with
        pif := s.pif.sampled p target, env := .script rest rx, draws := s.draws + n,
        trace := s.trace ++ (List.replicate (n - 1) [Event.rd p (~~~target), .tick]).flatten ++ [.rd p target],
        cnt := 0#8, waiting := false, pidx := s.pidx + 1#4 }) ∧
    (s.env = .script (List.replicate 240 (~~~target) ++ rest) rx →
      (∀ k < 240, ((pollStep p target last prim)^[2 * k] s).cnt.toNat = k) ∧
      ((pollStep p target last prim)^[479] s).cnt.toNat = 240 ∧
      (pollStep p target last prim)^[480] s = advance last prim { s with
        pif := s.pif.sampled p (~~~target), env := .script rest rx, draws := s.draws + 240,
        trace := s.trace ++ (List.replicate 240 [Event.rd p (~~~target), .tick]).flatten,
        cnt := 0#8, waiting := false, pidx := s.pidx + 1#4,
        toMap := ToMap.set s.toMap s.pidx, toAny := true })

/-- Raising PhaseTimeout sets the poll's bit of `TO_MAP` and `TO_ANY` and nothing else, so a poll that times out leaves
everything else, `UPC` with it, exactly as one that ends `Ok` (R152; the flags are D8, the end of a poll D22). For an
index or a `PIDX` of 12 to 15 the spec has no bit: that none is set and `TO_ANY` still is, is the model's choice,
log 13. -/
def Obligations.PhaseTimeoutOnlyRecords : Prop :=
  ∀ (s : State) (i : BitVec 4) (last : Bool) (prim : Option Primitive),
    raisePhaseTimeout i s = { s with toMap := s.toMap ||| BitVec.twoPow 12 i.toNat, toAny := true } ∧
    endPoll .timeout last prim s =
      { endPoll .ok last prim s with toMap := s.toMap ||| BitVec.twoPow 12 s.pidx.toNat, toAny := true }

/-! The micro-operations. -/

/-- UINIT writes the ten-field record of R36 whole and sets `INITED`, in one step, and completes (R101; one record is
D9, its open field log 15, the form of its fields log 14; the advance of `UPC` is D3, the single step D22, the port's
field log 4, the recorded primitive log 18). -/
def Obligations.UinitWritesTheConfiguration : Prop :=
  ∀ s : State, s.act = 0#2 →
    exec .uinit s = .next { pifWrite (.cfg
      {
        addrMode := .master7bit, slewDisable := 1#1, sclRelease := 1#1, enable := 1#1, sclDir := .input,
        sdaDir := .input, irqEnable := 0#1, irqFlag := 0#1, baud := 363, ownAddr := Config.ownAddr }) s with
      inited := true, upc := s.upc + 1#6, act := 0#2, prims := s.prims ++ [.init] }

/-- START, RESTART and STOP execute their action lists, action by action and as a whole (R102 to R104; that the
acknowledge bit is `ACKDT` is D5, STOP's write of `RCEN` D6, the order of RESTART's last writes D15; the advance of
`UPC` is D3, the timeout flags D8 with no bit for a `PIDX` above 11 by log 13, the delays D7, the small steps D22, the
ports' fields log 4; that the primitive is recorded at completion, and by no earlier action, is log 18, DESIGN CHOICE).
-/
def Obligations.StartRestartStopRun : Prop :=
  (WritesAt .start 0#2 (fun _ => .ackdt 0#1) ∧ WritesAt .start 1#2 (fun _ => .reqStart 1#1) ∧
    PollsAt .start 2#2 .staStart true (fun _ => .start) ∧
    RunsPoll .start (fun _ => [.ackdt 0#1, .reqStart 1#1]) .staStart [] (fun _ => .start)) ∧
  (WritesAt .restart 0#2 (fun _ => .reqRestart 1#1) ∧ PollsAt .restart 1#2 .staRestart false (fun _ => .restart) ∧
    WritesAt .restart 2#2 (fun _ => .ackdt 0#1) ∧
    (∀ s : State, s.act = 3#2 → exec .restart s = .next { pifWrite (.tbf 0#1) s with
      upc := s.upc + 1#6, act := 0#2, prims := s.prims ++ [.restart] }) ∧
    RunsPoll .restart (fun _ => [.reqRestart 1#1]) .staRestart [.ackdt 0#1, .tbf 0#1] (fun _ => .restart)) ∧
  (WritesAt .stop 0#2 (fun _ => .rcen 0#1) ∧ WritesAt .stop 1#2 (fun _ => .reqStop 1#1) ∧
    PollsAt .stop 2#2 .staStop true (fun _ => .stop) ∧
    RunsPoll .stop (fun _ => [.rcen 0#1, .reqStop 1#1]) .staStop [] (fun _ => .stop))

/-- ACK and NACK, words `0x50` and `0x60`: set the outgoing acknowledge bit to 0 or 1, trigger the acknowledge
sequence, wait for its completion, action by action and as a whole; ACK is at no ROM address (R105, R106; the codes and
the ROM's addresses are D3, `ACKDT` and `REQ_ACK` D5; the advance of `UPC` D3, the timeout flags D8 with no bit for a
`PIDX` above 11 by log 13, the delays D7, the small steps D22, the ports' fields log 4; that the primitive is recorded
at completion, and by no earlier action, is log 18, DESIGN CHOICE). -/
def Obligations.AckNackRun : Prop :=
  (decodeMicro 0x50#8 = .ok .ack ∧ (∀ a < 64, romImage a ≠ 0x50#8) ∧
    WritesAt .ack 0#2 (fun _ => .ackdt 0#1) ∧ WritesAt .ack 1#2 (fun _ => .reqAck 1#1) ∧
    PollsAt .ack 2#2 .staAck true (fun _ => .ack) ∧
    RunsPoll .ack (fun _ => [.ackdt 0#1, .reqAck 1#1]) .staAck [] (fun _ => .ack)) ∧
  (decodeMicro 0x60#8 = .ok .nack ∧
    WritesAt .nack 0#2 (fun _ => .ackdt 1#1) ∧ WritesAt .nack 1#2 (fun _ => .reqAck 1#1) ∧
    PollsAt .nack 2#2 .staAck true (fun _ => .nack) ∧
    RunsPoll .nack (fun _ => [.ackdt 1#1, .reqAck 1#1]) .staAck [] (fun _ => .nack))

/-- IDLE, word `0x70`: it waits for the transmit-status indicator to clear and writes no port (R107; the code is D3;
the advance of `UPC` D3, the timeout flags D8 with no bit for a `PIDX` above 11 by log 13, the delays D7, the small
steps D22, the ports' fields log 4; that the primitive is recorded at completion, and by no earlier action, is log 18,
DESIGN CHOICE). -/
def Obligations.IdleWaits : Prop :=
  decodeMicro 0x70#8 = .ok .idle ∧ PollsAt .idle 0#2 .staTrstat true (fun _ => .idle) ∧
  RunsPoll .idle (fun _ => []) .staTrstat [] (fun _ => .idle)

/-- WRB in its four operand forms: HI, LO, D and A(page, op), each with its words (R77, R108; the codes and operand
forms are D3; the advance of `UPC` D3, the timeout flags D8 with no bit for a `PIDX` above 11 by log 13, the delays D7,
the small steps D22, the ports' fields log 4; that the primitive is recorded at completion, and by no earlier action,
is log 18, DESIGN CHOICE). -/
def Obligations.WriteByteRuns : Prop :=
  decodeMicro 0x80#8 = .ok .wrbHi ∧ WritesByte .wrbHi (fun s => hiByte s.raddr) ∧
  decodeMicro 0x81#8 = .ok .wrbLo ∧ WritesByte .wrbLo (fun s => loByte s.raddr) ∧
  decodeMicro 0x82#8 = .ok .wrbD ∧ WritesByte .wrbD (fun s => s.wdata) ∧
  ∀ page op : Bit, decodeMicro (0b100010#6 ++ page ++ op) = .ok (.wrbA page op) ∧
    WritesByte (.wrbA page op) (fun s => encodeAddress s.sel page op)

/-- RDEN, word `0x90`: it asserts receive-enable, does not wait and does not read `RXREG`; it completes in one step. In
RDREG the micro-operation after it is NACK, and LATCH stands three micro-operations later (R109; the code, the ROM
addresses and the advance of `UPC` are D3, the single step D22, the port's field log 4, the recorded primitive is R143
and log 18). -/
def Obligations.ReceiveEnableRuns : Prop :=
  decodeMicro 0x90#8 = .ok .rden ∧
  (∀ s : State, s.act = 0#2 → exec .rden s = .next { pifWrite (.rcen 1#1) s with
    upc := s.upc + 1#6, act := 0#2, prims := s.prims ++ [.readEnable] }) ∧
  ∀ a < 64, romImage a = 0x90#8 →
    decodeMicro (romImage (a + 1)) = .ok .nack ∧ decodeMicro (romImage (a + 3)) = .ok .latch

/-- LATCH reads `RXREG` once: `RESULT` and the one event hold the byte ENV supplies, and it completes in one step
(R135; the one read is D18 and D20, the advance of `UPC` D3, the single step D22; that the port's field `rxreg` then
holds the byte is log 4, the validity bit log 10, the recorded primitive log 18). -/
def Obligations.LatchReadsTheReceiveRegister : Prop :=
  ∀ s : State, s.act = 0#2 → exec .latch s = .next { s with
    result := (s.env.answerRx s.draws).1, resultValid := true,
    pif := { s.pif with rxreg := (s.env.answerRx s.draws).1 }, env := (s.env.answerRx s.draws).2,
    trace := s.trace ++ [.rdRx (s.env.answerRx s.draws).1], draws := s.draws + 1,
    upc := s.upc + 1#6, act := 0#2, prims := s.prims ++ [.readReceiveRegister] }

/-- END: `RUN <- 0; DONE <- 1`, no port, no event, everything else kept (R136; D3; that `UPC`, `ACT`, `CNT` and `PIDX`
are kept is log 19, that no primitive is recorded R143 and log 18). -/
def Obligations.EndReturns : Prop :=
  ∀ s : State, s.act = 0#2 → exec .endOp s = .next { s with run := false, done := true }

/-- An `ACT` past the end of a micro-operation's action list is the model's own fault; the spec gives no step there
(log 12). -/
def Obligations.ActionPastTheListFaults : Prop :=
  ∀ (i : Instr) (s : State), i.isCommand = false → (actionsOf i s).length ≤ s.act.toNat →
    exec i s = .fault .noSuchAction

/-- The small steps of every micro-operation but END run its action list whole, each poll being the algorithm of R91,
in at most 483 steps (R91, R100, R131; D7, D8, D22; the states hold the ports' fields of log 4, the primitive recorded
at completion of log 18 and a timeout with a `PIDX` above 11 as in log 13). -/
def Obligations.MicroStepsRunTheAlgorithm : Prop :=
  ∀ (i : Instr) (s : State), i.isCommand = false → i ≠ .endOp → AtStart s →
    ∃ k, 1 ≤ k ∧ k ≤ 483 ∧ execSteps i k s = .next (runMicro i s)

/-! Frames. -/

/-- The frame of the micro-operations that send no byte (all but WRB): every byte of the device register space and of
the ROM, the operand latches and HOST's side stay; `RESULT` stays unless it is LATCH, `INITED` unless it is UINIT,
`RUN` and `DONE` unless it is END (R21, R22, R28, R30, R50). R50 and U4 leave the device to ENV: that its bytes stay is
a fact of RefEnv's device, the fixture of D16 (log 6, DESIGN CHOICE, unsafe); a scripted ENV holds no device byte. The
ROM as a memory is log 7, HOST's list log 9, what HOST has seen and the validity bit log 10. -/
def Obligations.FrameOfTheSilentMicroOperations : Prop :=
  ∀ i ∈ [Instr.endOp, .uinit, .start, .restart, .stop, .ack, .nack, .idle, .rden, .latch],
    ∀ s t : State, exec i s = .next t →
      (∀ a, deviceByteAt t a = deviceByteAt s a) ∧
      (∀ a, Memory.read .rom t.rom a = Memory.read .rom s.rom a) ∧
      t.sel = s.sel ∧ t.raddr = s.raddr ∧ t.wdata = s.wdata ∧ t.host = s.host ∧ t.hostSeen = s.hostSeen ∧
      (i ≠ .latch → t.result = s.result ∧ t.resultValid = s.resultValid) ∧
      (i ≠ .uinit → t.inited = s.inited) ∧
      (i ≠ .endOp → t.run = s.run ∧ t.done = s.done)

/-- The frame of WRB. Its first action stores a byte in the device register space only where RefEnv's device awaits
one, at the device's target; every other byte, and every byte in its poll's steps, stays, and so do the ROM, the
latches, `RESULT`, `RUN`, `DONE`, `INITED` and HOST's side (R50, R108; the device is the fixture of D16, log 6, DESIGN
CHOICE, unsafe; the ROM as a memory is log 7, HOST's list log 9, what HOST has seen and the validity bit log 10). -/
def Obligations.FrameOfWriteByte : Prop :=
  ∀ (i : Instr) (b : State → Byte),
    (i, b) ∈ [(Instr.wrbHi, fun s : State => hiByte s.raddr), (.wrbLo, fun s => loByte s.raddr),
      (.wrbD, fun s => s.wdata), (.wrbA 0#1 0#1, fun s => encodeAddress s.sel 0#1 0#1),
      (.wrbA 0#1 1#1, fun s => encodeAddress s.sel 0#1 1#1), (.wrbA 1#1 0#1, fun s => encodeAddress s.sel 1#1 0#1),
      (.wrbA 1#1 1#1, fun s => encodeAddress s.sel 1#1 1#1)] →
    ∀ s t : State, exec i s = .next t →
      KeepsRest s t ∧
      (s.act = 0#2 → ∀ a, deviceStoreAddress s = some a →
        deviceByteAt t a = some (b s) ∧ ∀ c, c ≠ a → deviceByteAt t c = deviceByteAt s c) ∧
      (s.act = 0#2 → deviceStoreAddress s = none → ∀ c, deviceByteAt t c = deviceByteAt s c) ∧
      (s.act ≠ 0#2 → ∀ c, deviceByteAt t c = deviceByteAt s c)

/-- The ports a micro-operation can change: those its row of R110 writes or polls, `RXREG` for LATCH, none for END. R31
gives every port to ENV and R93 says that a poll writes none: a port here is the model's field, the value last transferred
over it (log 4), so a poll changes the field it samples and every other field stays (R37, R110; log 4). -/
def Obligations.FrameOfThePorts : Prop :=
  ∀ s t : State,
    (exec .uinit s = .next t → t.pif = { s.pif with cfg := t.pif.cfg }) ∧
    (exec .start s = .next t → t.pif = { s.pif with
      ackdt := t.pif.ackdt, reqStart := t.pif.reqStart, staStart := t.pif.staStart }) ∧
    (exec .restart s = .next t → t.pif = { s.pif with
      reqRestart := t.pif.reqRestart, staRestart := t.pif.staRestart, ackdt := t.pif.ackdt, tbf := t.pif.tbf }) ∧
    (exec .stop s = .next t → t.pif = { s.pif with
      rcen := t.pif.rcen, reqStop := t.pif.reqStop, staStop := t.pif.staStop }) ∧
    (exec .ack s = .next t ∨ exec .nack s = .next t → t.pif = { s.pif with
      ackdt := t.pif.ackdt, reqAck := t.pif.reqAck, staAck := t.pif.staAck }) ∧
    (exec .idle s = .next t → t.pif = { s.pif with staTrstat := t.pif.staTrstat }) ∧
    (exec .wrbHi s = .next t ∨ exec .wrbLo s = .next t ∨ exec .wrbD s = .next t ∨
      (∃ page op, exec (.wrbA page op) s = .next t) →
      t.pif = { s.pif with txreg := t.pif.txreg, tbf := t.pif.tbf }) ∧
    (exec .rden s = .next t → t.pif = { s.pif with rcen := t.pif.rcen }) ∧
    (exec .latch s = .next t → t.pif = { s.pif with rxreg := t.pif.rxreg }) ∧
    (exec .endOp s = .next t → t.pif = s.pif)

/-- `TO_MAP`, `TO_ANY` and a poll's counters. A micro-operation records a timeout only in the delay step after the
240th failed sample, in bit `PIDX`, and changes no other bit; one without a poll leaves them, `PIDX`, `CNT` and
`WAITING` alone (R27, R29, R92, R152; D7, D8, D22). For a `PIDX` of 12 to 15 the spec has no bit, and that none is set
is log 13. R136 gives `PIDX` and `CNT` no meaning after END: that END keeps them is the model's choice, log 19 (DESIGN
CHOICE, unsafe). -/
def Obligations.FrameOfTheTimeoutFlags : Prop :=
  ∀ (i : Instr) (s t : State), i.isCommand = false → exec i s = .next t →
    ((t.toMap = s.toMap ∧ t.toAny = s.toAny) ∨
      (s.waiting = true ∧ s.cnt = 240#8 ∧ t.toMap = ToMap.set s.toMap s.pidx ∧ t.toAny = true ∧
        t.pidx = s.pidx + 1#4)) ∧
    (i ∈ [.endOp, .uinit, .rden, .latch] →
      t.toMap = s.toMap ∧ t.toAny = s.toAny ∧ t.pidx = s.pidx ∧ t.cnt = s.cnt ∧ t.waiting = s.waiting)

/-! Rules of the whole machine. -/

/-- The operand latches change only when a command is accepted, hence never during a routine (R21, R77; D2; a step that
takes no command is log 1 and log 9). -/
def Obligations.LatchesChangeOnlyAtAcceptance : Prop :=
  ∀ s t : State, step s = .next t →
    (t.sel = s.sel ∧ t.raddr = s.raddr ∧ t.wdata = s.wdata) ∨ (s.run = false ∧ t.run = true)

/-- `RESULT` is written only by LATCH, with ENV's answer to its one read of `RXREG` (R22; D18; the validity bit is log
10). -/
def Obligations.ResultWrittenOnlyByLatch : Prop :=
  ∀ s t : State, step s = .next t →
    (t.result = s.result ∧ t.resultValid = s.resultValid) ∨
    (s.run = true ∧ currentInstr s = .ok .latch ∧ t.result = rxAnswer s ∧ t.resultValid = true)

/-- `UPC` is set to an entry address when a command is accepted, goes on by exactly 1 when a micro-operation completes,
and changes in no other way (R24; D3; that END keeps `UPC` is log 19, the wrap from address 63 log 25). -/
def Obligations.UpcOnlySetAtAcceptanceOrIncremented : Prop :=
  ∀ s t : State, step s = .next t →
    t.upc = s.upc ∨
    (s.run = true ∧ t.run = true ∧ t.upc = s.upc + 1#6 ∧ t.act = 0#2) ∨
    (s.run = false ∧ t.run = true ∧ (t.upc = 0#6 ∨ t.upc = 16#6 ∨ t.upc = 32#6))

/-- No step changes the ROM, and a fetch from an intact ROM returns the fixed contents (R64; D3; the ROM as a memory is
log 7). -/
def Obligations.RomNeverChanges : Prop :=
  ∀ s t : State, step s = .next t →
    t.rom = s.rom ∧ (RomIntact s → ∀ a, Memory.read .rom t.rom a = romImage a)

/-- No step of CORE reads `TO_MAP` or `TO_ANY`: with other values in them the step does the same to everything else
(R29; D8; HOST's waiting is log 9). -/
def Obligations.TimeoutFlagsNeverRead : Prop :=
  ∀ (s t : State) (m : ToMap) (a : Bool), s.run = true → s.hostWaits = true → step s = .next t →
    ∃ m' a', step { s with toMap := m, toAny := a } = .next { t with toMap := m', toAny := a' }

/-- No step reads what stands on the ports or in the history: with other values there the step does the same to
everything else and appends the same events (R31, R39; D4, log 4). -/
def Obligations.PortsAndHistoryNeverRead : Prop :=
  ∀ (s t : State) (q : Pif) (tr : List Event), step s = .next t →
    ∃ q' evs, t.trace = s.trace ++ evs ∧
      step { s with pif := q, trace := tr } = .next { t with pif := q', trace := tr ++ evs }

/-- A step makes at most one PIF access or delay, and only one the tables of the ports allow the micro-operation at
`UPC` (R32 to R37, R39, R60; the rows of `ACKDT` and `RCEN` are D5 and D6, `TBF`'s D15, one `CFG` record D9; one access
in a step is D20 and D22). -/
def Obligations.PortAccessesAreThoseOfTheTables : Prop :=
  ∀ s t : State, step s = .next t →
    t.trace = s.trace ∨
    ∃ e i, t.trace = s.trace ++ [e] ∧ s.run = true ∧ currentInstr s = .ok i ∧ accessLegal i e = true

/-- Once a routine runs, whatever HOST keeps for after END changes no step of CORE: there is no abort input (R138; HOST's
inputs are log 9, what HOST does at once is refused or a read, D12, D28). -/
def Obligations.HostCannotDisturbARoutine : Prop :=
  ∀ (s t : State) (inputs : List HostInput), s.run = true → s.hostWaits = true →
    State.hostWaits { s with host := inputs } = true → step s = .next t →
    step { s with host := inputs } = .next { t with host := inputs }

/-- Every step keeps the invariant of CORE: reachable addresses, an action the micro-operation has, `CNT` within the
budget, `PIDX` as R142 numbers the polls, `TO_ANY` the or of `TO_MAP`, `INITED` telling which routine runs (R24 to R30,
R142; the addresses are D3, the flags D8, `INITED` D13, the small steps D22, `CNT` D23; that the kept `PIDX` is at most
12 after END too rests on log 19). -/
def Obligations.StepKeepsCoreInvariant : Prop :=
  ∀ s t : State, CoreInv s → step s = .next t → CoreInv t

/-- Every step keeps the memories in canonical form (R50; log 6, log 7). -/
def Obligations.StepKeepsMemoriesCanonical : Prop :=
  ∀ s t : State, memoriesOk s = true → step s = .next t → memoriesOk t = true

/-- While `RUN = 1` and HOST waits CORE always has its one enabled step; no step meets a reserved word in the ROM or an
action that is not there (R131; D3; the fault is log 12, the refusal log 20). -/
def Obligations.RunningCoreAlwaysSteps : Prop :=
  ∀ s : State, CoreInv s →
    (s.run = true → s.hostWaits = true → ∃ t, step s = .next t) ∧
    step s ≠ .fault .noSuchAction ∧ step s ≠ .refused .reservedMicroWord

/-- From any point of any routine, while HOST waits, END is reached within the bound of the longest routine, whatever
ENV answers (R167, R184; that every delay ends is R167's premise, log 17; the bound counts steps as D22 does). -/
def Obligations.EveryRoutineEnds : Prop :=
  ∀ s : State, CoreInv s → s.run = true → s.hostWaits = true →
    ∃ k t, k ≤ 5776 ∧ runSteps k s = .next t ∧ t.run = false ∧ t.done = true

/-- INIT, `op = 1`, its other fields ignored: accepted once, it runs UINIT and END in two more steps: the one `CFG`
write, `INITED` and `DONE` set, no poll and no timeout, `RESULT` and HOST's side untouched (R134; the word's fields are D2
and D27, the steps to END D3 and D22, the one `CFG` record D9 with `OWN_ADDR` of log 15, the recorded primitive log 18;
that `PIDX` is still 0 after END is the model's choice, log 19). -/
def Obligations.InitRunsToEnd : Prop :=
  decodeCommand 0x10000000#32 = .ok (.init 0#2 0#16 0#8) ∧
  (∀ (sel : Sel) (raddr : Addr16) (data : Byte),
    decodeCommand (0x1#4 ++ sel ++ 0b00#2 ++ raddr ++ data) = .ok (.init sel raddr data)) ∧
  ∀ (s : State) (sel : Sel) (raddr : Addr16) (data : Byte),
    s.run = false → s.inited = false → RomIntact s → s.hostWaits = true →
    ∃ u t, exec (.init sel raddr data) s = .next u ∧ runSteps 2 u = .next t ∧
      t.run = false ∧ t.done = true ∧ t.inited = true ∧ t.toMap = 0#12 ∧ t.toAny = false ∧ t.pidx = 0#4 ∧
      t.trace = s.trace ++ [.wr (.cfg configRecord)] ∧ t.prims = s.prims ++ [.init] ∧
      t.result = s.result ∧ t.resultValid = s.resultValid ∧ t.rom = s.rom ∧ t.host = s.host ∧ t.hostSeen = s.hostSeen

/-- WRREG, from any state the contract allows and for every ENV: accepted, it runs to END in exactly 1 + 8 + (its ten
polls) + 1 steps, at most 4810; its trace and primitive-level trace are those of R143 and R144, so the sequence and the
8 writes do not depend on any operand or poll outcome; `DONE` is set, the timed-out polls are recorded, `RESULT` is not
written (R132; the command word is D2, the ROM's addresses D3, one delay after every failed sample D7, the flags D8,
the poll's number D19, the steps D22, the latched fields D27; the primitive-level trace as a field is log 18, the
validity bit log 10, HOST's side log 9, that every delay ends log 17). -/
def Obligations.WrregRunsToEnd : Prop :=
  (∀ (sel : Sel) (raddr : Addr16) (data : Byte),
    decodeCommand (0x2#4 ++ sel ++ 0b00#2 ++ raddr ++ data) = .ok (.wrreg sel raddr data)) ∧
  ∀ (s : State) (sel : Sel) (raddr : Addr16) (data : Byte), Ready s →
    ∃ u os t, exec (.wrreg sel raddr data) s = .next u ∧
      os.length = 10 ∧ (∀ o ∈ os, PollOutcome.legal o = true) ∧
      runSteps (8 + pollSteps os + 1) u = .next t ∧ 1 + (8 + pollSteps os + 1) ≤ 4810 ∧
      t.run = false ∧ t.done = true ∧
      t.trace = s.trace ++ fillPolls (wrregItems sel raddr data) os ∧
      t.prims = s.prims ++ wrregPrimitives sel raddr data ∧
      t.toMap = timeoutBits 0 os ∧ t.toAny = os.any (fun o => o == .timeout) ∧
      t.result = s.result ∧ t.resultValid = s.resultValid ∧ t.sel = sel ∧ t.raddr = raddr ∧ t.wdata = data ∧
      t.inited = true ∧ t.rom = s.rom ∧ t.host = s.host ∧ t.hostSeen = s.hostSeen

/-- RDREG, likewise: exactly 1 + 14 + (its twelve polls) + 2 steps, at most 5777; after the trace of R144 the one
`Rd(RXREG, r)` with `RESULT = r`, no IDLE between RDEN and NACK; `DONE` is set (R133; the one read is D18; the command
word is D2, the ROM's addresses D3, one delay after every failed sample D7, the flags D8, the poll's number D19, the
steps D22, the latched fields D27; the primitive-level trace as a field is log 18, the validity bit log 10, HOST's side
log 9, that every delay ends log 17). -/
def Obligations.RdregRunsToEnd : Prop :=
  (∀ (sel : Sel) (raddr : Addr16) (data : Byte),
    decodeCommand (0x3#4 ++ sel ++ 0b00#2 ++ raddr ++ data) = .ok (.rdreg sel raddr data)) ∧
  ∀ (s : State) (sel : Sel) (raddr : Addr16) (data : Byte), Ready s →
    ∃ u os t, exec (.rdreg sel raddr data) s = .next u ∧
      os.length = 12 ∧ (∀ o ∈ os, PollOutcome.legal o = true) ∧
      runSteps (14 + pollSteps os + 2) u = .next t ∧ 1 + (14 + pollSteps os + 2) ≤ 5777 ∧
      t.run = false ∧ t.done = true ∧
      t.trace = s.trace ++ fillPolls (rdregItems sel raddr) os ++ [.rdRx t.result] ∧
      t.prims = s.prims ++ rdregPrimitives sel raddr ∧
      t.toMap = timeoutBits 0 os ∧ t.toAny = os.any (fun o => o == .timeout) ∧
      t.resultValid = true ∧ t.sel = sel ∧ t.raddr = raddr ∧ t.wdata = data ∧
      t.inited = true ∧ t.rom = s.rom ∧ t.host = s.host ∧ t.hostSeen = s.hostSeen

/-- Round trip under the reference environment, whatever its delay, its stuck ports and its device hold: RDREG of a
register after WRREG of it returns the byte written (R145; RefEnv is the fixture of D16, log 6; the commands are D2 and
D3, the steps D22, that every delay ends log 17). -/
def Obligations.ReadAfterWriteReturnsTheByte : Prop :=
  ∀ (s : State) (r : RefEnv) (sel : Sel) (raddr : Addr16) (v data : Byte), Ready s → s.env = .ref r →
    ∃ s1 k t t1 l u, exec (.wrreg sel raddr v) s = .next s1 ∧ runSteps k s1 = .next t ∧ t.run = false ∧
      exec (.rdreg sel raddr data) t = .next t1 ∧ runSteps l t1 = .next u ∧ u.run = false ∧ u.done = true ∧
      u.result = v

/-- The bits of a byte on the wire, both ways (R54, R73; the reading is log 22). A byte written to `TXREG` travels bit 7
first, and the device's acknowledge bit follows it. After receive-enable the device's eight bits travel, and the byte ENV
supplies as `RXREG` is the one whose bit 7 is the first of them. Assembling what a byte was sent as gives the byte. -/
def Obligations.BytesTravelMostSignificantBitFirst : Prop :=
  ∀ (dev : LineDevice) (c : WireCursor) (b r : Byte),
    wireImage dev c [.wr (.txreg b)] =
      [.dataBit (b.extractLsb' 7 1), .dataBit (b.extractLsb' 6 1), .dataBit (b.extractLsb' 5 1)] ++
      [.dataBit (b.extractLsb' 4 1), .dataBit (b.extractLsb' 3 1), .dataBit (b.extractLsb' 2 1)] ++
      [.dataBit (b.extractLsb' 1 1), .dataBit (b.extractLsb' 0 1), .deviceAck (dev.acks c.sent)] ∧
    wireImage dev c [.wr (.rcen 1#1)] =
      [.deviceBit (dev.sends c.received)[0], .deviceBit (dev.sends c.received)[1]] ++
      [.deviceBit (dev.sends c.received)[2], .deviceBit (dev.sends c.received)[3]] ++
      [.deviceBit (dev.sends c.received)[4], .deviceBit (dev.sends c.received)[5]] ++
      [.deviceBit (dev.sends c.received)[6], .deviceBit (dev.sends c.received)[7]] ∧
    (suppliesReceived dev c [.wr (.rcen 1#1), .rdRx r] = true ↔
      r.extractLsb' 7 1 = (dev.sends c.received)[0] ∧ r.extractLsb' 6 1 = (dev.sends c.received)[1] ∧
      r.extractLsb' 5 1 = (dev.sends c.received)[2] ∧ r.extractLsb' 4 1 = (dev.sends c.received)[3] ∧
      r.extractLsb' 3 1 = (dev.sends c.received)[4] ∧ r.extractLsb' 2 1 = (dev.sends c.received)[5] ∧
      r.extractLsb' 1 1 = (dev.sends c.received)[6] ∧ r.extractLsb' 0 1 = (dev.sends c.received)[7]) ∧
    assembleByte (msbFirst b) = b

/-- The wire of a cooperative ENV, read off a transaction's trace, is the frame of R65 and R66, whatever acknowledge bits
the device drives, however the polls end and whatever `ACKDT` was before. In a RDREG whose `RXREG` is what was received,
the one byte of the device is that byte, bit 7 first, and the master answers it with a not-acknowledge bit. Both frames
are of format W (R54, R65, R66, R73; log 22). -/
def Obligations.WireCarriesTheTransaction : Prop :=
  ∀ (dev : LineDevice) (c : WireCursor) (sel : Sel) (raddr : Addr16) (data r : Byte) (os : List PollOutcome),
    (os.length = 10 →
      wireImage dev c (fillPolls (wrregItems sel raddr data) os) =
        (wrregFrame sel raddr data (fun k => dev.acks (c.sent + k))).symbols) ∧
    (os.length = 12 → suppliesReceived dev c (fillPolls (rdregItems sel raddr) os ++ [.rdRx r]) = true →
      wireImage dev c (fillPolls (rdregItems sel raddr) os ++ [.rdRx r]) =
        (rdregFrame sel raddr r (fun k => dev.acks (c.sent + k))).symbols) ∧
    (wrregFrame sel raddr data (fun k => dev.acks (c.sent + k))).wf = true ∧
    (rdregFrame sel raddr r (fun k => dev.acks (c.sent + k))).wf = true

/-- HOST's reads. `BUSY` and `DONE` are read at any time; `RESULT`, `TO_ANY` and `TO_MAP` only while `RUN = 0`, whether
HOST reads at once or waited for END. `RESULT` gives its value once a LATCH has written it, else the read is a fault of
HOST's program and gives no value. A read changes nothing but what HOST has seen (R22, R42, R180; D11, D28; HOST's list
is log 9, that a read is a step and that the machine goes on after HOST's fault are log 10). That `DONE` is read while
`RUN = 1` too is the model's choice, log 10 (DEDUCED): R59 (c) and R141 say that HOST sees it only after END, R171 has
HOST wait for it, and R180 forbids only the other three. -/
def Obligations.HostReadsTheOutputs : Prop :=
  ∀ (s : State) (r : HostReg) (tm : HostTiming) (rest : List HostInput),
    (s.host = ⟨.now, .read r⟩ :: rest →
      (r = .busy → step s = .next { s with host := rest, hostSeen := s.hostSeen ++ [.busy s.run] }) ∧
      (r = .done → step s = .next { s with host := rest, hostSeen := s.hostSeen ++ [.done s.done] }) ∧
      (s.run = true → r = .result ∨ r = .toAny ∨ r = .toMap → step s = .refused .outputReadWhileRunning)) ∧
    (s.host = ⟨tm, .read r⟩ :: rest → s.run = false →
      (r = .busy → step s = .next { s with host := rest, hostSeen := s.hostSeen ++ [.busy false] }) ∧
      (r = .done → step s = .next { s with host := rest, hostSeen := s.hostSeen ++ [.done s.done] }) ∧
      (r = .toAny → step s = .next { s with host := rest, hostSeen := s.hostSeen ++ [.toAny s.toAny] }) ∧
      (r = .toMap → step s = .next { s with host := rest, hostSeen := s.hostSeen ++ [.toMap s.toMap] }) ∧
      (r = .result → s.resultValid = true →
        step s = .next { s with host := rest, hostSeen := s.hostSeen ++ [.result s.result] }) ∧
      (r = .result → s.resultValid = false →
        step s = .next { s with host := rest, hostSeen := s.hostSeen ++ [.resultFault] }))
end

