-- ==== Sys2Proof/Laws/Decode.lean ====
section
/-! SUPPORT. The fields of an encoded word, read back, and a word rebuilt from its fields (R74, R76, R77). -/

namespace Sys2Proof

@[simp] theorem opField_commandWord (op : BitVec 4) (sel : Sel) (raddr : Addr16) (data : Byte) :
    opField (commandWord op sel raddr data) = op := by
  ext i hi
  simp only [opField, commandWord, BitVec.getElem_extractLsb', BitVec.getLsbD_append]
  grind

@[simp] theorem selField_commandWord (op : BitVec 4) (sel : Sel) (raddr : Addr16) (data : Byte) :
    selField (commandWord op sel raddr data) = sel := by
  ext i hi
  simp only [selField, commandWord, BitVec.getElem_extractLsb', BitVec.getLsbD_append]
  grind

@[simp] theorem zeroField_commandWord (op : BitVec 4) (sel : Sel) (raddr : Addr16) (data : Byte) :
    zeroField (commandWord op sel raddr data) = 0b00#2 := by
  ext i hi
  simp only [zeroField, commandWord, BitVec.getElem_extractLsb', BitVec.getLsbD_append]
  grind

@[simp] theorem raddrField_commandWord (op : BitVec 4) (sel : Sel) (raddr : Addr16) (data : Byte) :
    raddrField (commandWord op sel raddr data) = raddr := by
  ext i hi
  simp only [raddrField, commandWord, BitVec.getElem_extractLsb', BitVec.getLsbD_append]
  grind

@[simp] theorem dataField_commandWord (op : BitVec 4) (sel : Sel) (raddr : Addr16) (data : Byte) :
    dataField (commandWord op sel raddr data) = data := by
  ext i hi
  simp only [dataField, commandWord, BitVec.getElem_extractLsb', BitVec.getLsbD_append]
  grind

@[simp] theorem uopField_microWord (uop arg : BitVec 4) : uopField (microWord uop arg) = uop := by
  ext i hi
  simp only [uopField, microWord, BitVec.getElem_extractLsb', BitVec.getLsbD_append]
  grind

@[simp] theorem argField_microWord (uop arg : BitVec 4) : argField (microWord uop arg) = arg := by
  ext i hi
  simp only [argField, microWord, BitVec.getElem_extractLsb', BitVec.getLsbD_append]
  grind

/-- The bits of a command word, from the table of R74. -/
theorem getLsbD_commandWord (op : BitVec 4) (sel : Sel) (raddr : Addr16) (data : Byte) (i : Nat) :
    (commandWord op sel raddr data).getLsbD i =
      if i < 8 then data.getLsbD i
      else if i < 24 then raddr.getLsbD (i - 8)
      else if i < 26 then false
      else if i < 28 then sel.getLsbD (i - 26)
      else op.getLsbD (i - 28) := by
  simp only [commandWord, BitVec.getLsbD_append]
  grind

/-- A command word is its five fields. -/
theorem commandWord_fields (w : CmdWord) (hz : zeroField w = 0b00#2) :
    commandWord (opField w) (selField w) (raddrField w) (dataField w) = w := by
  rw [commandWord, ← hz]
  ext i hi
  simp only [opField, selField, zeroField, raddrField, dataField, ← BitVec.getLsbD_eq_getElem,
    BitVec.getLsbD_append, BitVec.getLsbD_extractLsb']
  grind

/-- A micro-operation word is its two fields. -/
theorem microWord_fields (w : Byte) : microWord (uopField w) (argField w) = w := by
  ext i hi
  simp only [microWord, uopField, argField, ← BitVec.getLsbD_eq_getElem, BitVec.getLsbD_append,
    BitVec.getLsbD_extractLsb']
  grind

/-- WRB A's selector decodes to its page and operation bits (R77). -/
theorem decodeWrb_address (page op : Bit) : decodeWrb (wrbAddressArg page op) = .ok (.wrbA page op) := by
  revert page op; decide

/-- A command word chooses its command by `op`, once `zero` is 0 (R74, R80). -/
theorem decodeCommand_commandWord (op : BitVec 4) (sel : Sel) (raddr : Addr16) (data : Byte) :
    decodeCommand (commandWord op sel raddr data) =
      if op = 0x1#4 then .ok (.init sel raddr data)
      else if op = 0x2#4 then .ok (.wrreg sel raddr data)
      else if op = 0x3#4 then .ok (.rdreg sel raddr data)
      else .error .reservedOp := by
  simp [decodeCommand]

end Sys2Proof
end

