-- ==== Sys2Proof/Laws/Widths.lean ====
section
/-! SUPPORT. The ranges of the widths of R6 as numerals, for arithmetic that does not look into the parameters. -/

namespace Sys2Proof

/-- `select` is 0 to 3 (R6). -/
theorem Sel.toNat_lt (x : Sel) : x.toNat < 4 := x.isLt

/-- `registerAddress` is 0 to 65535 (R6). -/
theorem Addr16.toNat_lt (x : Addr16) : x.toNat < 65536 := x.isLt

/-- A byte is 0 to 255 (R6). -/
theorem Byte.toNat_lt (x : Byte) : x.toNat < 256 := x.isLt

end Sys2Proof
end

