-- ==== Sys2Proof/Laws/Memory.lean ====
section
/-! SUPPORT. The laws of memory: a read after a write, a write leaves every other byte alone, every operation keeps the
canonical form (R50). -/

namespace Sys2Proof.Machine

theorem read_erase_same (sp : Space) (m : Memory) (a : Nat) :
    Memory.read sp (Memory.erase m a) a = unlistedByte sp a := by
  unfold Memory.erase
  induction m with
  | nil => rfl
  | cons c m ih =>
    obtain ⟨k, b⟩ := c
    by_cases h : k = a
    · simpa [List.filter_cons, h] using ih
    · simp [h, Memory.read, Ne.symm h, ih]

theorem read_erase_other (sp : Space) (m : Memory) (a b : Nat) (h : b ≠ a) :
    Memory.read sp (Memory.erase m a) b = Memory.read sp m b := by
  unfold Memory.erase
  induction m with
  | nil => rfl
  | cons c m ih =>
    obtain ⟨k, v⟩ := c
    by_cases hk : k = a
    · subst hk; simpa [List.filter_cons, Memory.read, h] using ih
    · simp [hk, Memory.read, ih]

theorem read_insert_other (sp : Space) (m : Memory) (a b : Nat) (v : Byte) (h : b ≠ a) :
    Memory.read sp (Memory.insert a v m) b = Memory.read sp m b := by
  induction m with
  | nil => simp [Memory.insert, Memory.read, h]
  | cons c m ih =>
    obtain ⟨k, x⟩ := c
    by_cases hk : a < k <;> simp [Memory.insert, hk, Memory.read, h, ih]

theorem read_insert_same (sp : Space) (m : Memory) (a : Nat) (v : Byte) (h : ∀ c ∈ m, c.1 ≠ a) :
    Memory.read sp (Memory.insert a v m) a = v := by
  induction m with
  | nil => simp [Memory.insert, Memory.read]
  | cons c m ih =>
    obtain ⟨k, x⟩ := c
    have hk : a ≠ k := fun e => h (k, x) (by simp) e.symm
    by_cases hlt : a < k
    · simp [Memory.insert, hlt, Memory.read]
    · simp [Memory.insert, hlt, Memory.read, hk, ih fun c hc => h c (by simp [hc])]

theorem erase_keys (m : Memory) (a : Nat) : ∀ c ∈ Memory.erase m a, c.1 ≠ a := by
  simp [Memory.erase]

/-- A read after a write to the same address gives the byte written. -/
theorem read_write_same (sp : Space) (m : Memory) (a : Nat) (v : Byte) :
    Memory.read sp (Memory.write sp m a v) a = v := by
  unfold Memory.write
  split
  · rw [read_erase_same, ‹v = _›]
  · exact read_insert_same sp _ a v (erase_keys m a)

/-- A write leaves every other address alone. -/
theorem read_write_other (sp : Space) (m : Memory) (a b : Nat) (v : Byte) (h : b ≠ a) :
    Memory.read sp (Memory.write sp m a v) b = Memory.read sp m b := by
  unfold Memory.write
  split
  · exact read_erase_other sp m a b h
  · rw [read_insert_other sp _ a b v h, read_erase_other sp m a b h]

/-- The canonical form as a fact about the list: pairwise rising, each entry in the space and not the unlisted byte. -/
theorem rising_iff (m : Memory) : Memory.rising m = true ↔ m.Pairwise (fun c d => c.1 < d.1) := by
  induction m with
  | nil => simp [Memory.rising]
  | cons c m ih => obtain ⟨k, b⟩ := c; simp [Memory.rising, ih]

theorem memory_wf_iff (sp : Space) (m : Memory) :
    Memory.wf sp m = true ↔
      m.Pairwise (fun c d => c.1 < d.1) ∧ ∀ c ∈ m, c.1 < sp.size ∧ c.2 ≠ unlistedByte sp c.1 := by
  simp [Memory.wf, rising_iff]

theorem mem_insert (m : Memory) (a : Nat) (v : Byte) (c : Host.Cell) :
    c ∈ Memory.insert a v m ↔ c = (a, v) ∨ c ∈ m := by
  induction m with
  | nil => simp [Memory.insert]
  | cons d m ih =>
    obtain ⟨k, x⟩ := d
    by_cases hk : a < k
    · simp [Memory.insert, hk]
    · simp only [Memory.insert, hk, if_false, List.mem_cons, ih]; tauto

theorem insert_rising (m : Memory) (a : Nat) (v : Byte) (hm : m.Pairwise (fun c d => c.1 < d.1))
    (ha : ∀ c ∈ m, c.1 ≠ a) : (Memory.insert a v m).Pairwise (fun c d => c.1 < d.1) := by
  induction m with
  | nil => simp [Memory.insert]
  | cons d m ih =>
    obtain ⟨k, x⟩ := d
    obtain ⟨hk, hm⟩ := List.pairwise_cons.1 hm
    have hne : k ≠ a := ha (k, x) (by simp)
    by_cases hlt : a < k
    · simp only [Memory.insert, hlt, if_true, List.pairwise_cons]
      refine ⟨fun c hc => ?_, hk, hm⟩
      rcases List.mem_cons.1 hc with rfl | hc
      · exact hlt
      · exact hlt.trans (hk c hc)
    · simp only [Memory.insert, hlt, if_false, List.pairwise_cons]
      refine ⟨fun c hc => ?_, ih hm fun c hc => ha c (by simp [hc])⟩
      rcases (mem_insert m a v c).1 hc with rfl | hc
      · simp only; omega
      · exact hk c hc

/-- A write inside the space keeps the canonical form. -/
theorem write_wf (sp : Space) (m : Memory) (a : Nat) (v : Byte) (hm : Memory.wf sp m = true) (ha : a < sp.size) :
    Memory.wf sp (Memory.write sp m a v) = true := by
  rw [memory_wf_iff] at hm ⊢
  have he : (Memory.erase m a).Pairwise (fun c d => c.1 < d.1) := hm.1.filter _
  have hs : ∀ c ∈ Memory.erase m a, c.1 < sp.size ∧ c.2 ≠ unlistedByte sp c.1 := fun c hc =>
    hm.2 c (List.mem_of_mem_filter hc)
  unfold Memory.write
  split
  · exact ⟨he, hs⟩
  · rename_i hv
    refine ⟨insert_rising _ a v he (erase_keys m a), fun c hc => ?_⟩
    rcases (mem_insert _ a v c).1 hc with rfl | hc
    · exact ⟨ha, hv⟩
    · exact hs c hc

/-- Every device location is inside the space. -/
theorem deviceAddress_lt (sel : Sel) (page : Bit) (ptr : Addr16) : deviceAddress sel page ptr < Space.device.size := by
  have h1 := Sel.toNat_lt sel; have h2 := page.isLt; have h3 := Addr16.toNat_lt ptr
  simp only [deviceAddress, Space.size]; omega

/-- Different locations have different addresses (R50). -/
theorem deviceAddress_inj {s s' : Sel} {p p' : Bit} {a a' : Addr16} (h : deviceAddress s p a = deviceAddress s' p' a') :
    s = s' ∧ p = p' ∧ a = a' := by
  have h1 := s.isLt; have h2 := p.isLt; have h3 := a.isLt; have h4 := s'.isLt; have h5 := p'.isLt; have h6 := a'.isLt
  simp only [deviceAddress] at h
  refine ⟨BitVec.eq_of_toNat_eq ?_, BitVec.eq_of_toNat_eq ?_, BitVec.eq_of_toNat_eq ?_⟩ <;> omega

/-- The device's reaction to a write keeps its memory canonical. -/
theorem react_wf (v : RefDevice) (w : PortWrite) (h : Memory.wf .device v.mem = true) :
    Memory.wf .device (v.react w).mem = true := by
  cases w with
  | txreg b =>
    simp only [RefDevice.react, RefDevice.byte]
    split
    · simp only [RefDevice.address]; split <;> exact h
    · exact h
    · exact h
    · exact write_wf _ _ _ _ h (deviceAddress_lt _ _ _)
    · exact h
    · exact h
  | rcen x =>
    simp only [RefDevice.react, RefDevice.receive]
    split
    · split <;> exact h
    · exact h
  | reqStart x => simp only [RefDevice.react]; split <;> exact h
  | reqRestart x => simp only [RefDevice.react]; split <;> exact h
  | reqStop x => simp only [RefDevice.react]; split <;> exact h
  | reqAck x => exact h
  | ackdt x => exact h
  | tbf x => exact h
  | cfg c => exact h

/-- The device stores a byte only when it awaits one, and only at its target (D16). -/
theorem react_read (v : RefDevice) (w : PortWrite) (a : Nat)
    (h : (∃ b, w = .txreg b) → v.ds = .dataW → a ≠ v.target) :
    Memory.read .device (v.react w).mem a = Memory.read .device v.mem a := by
  cases w with
  | txreg b =>
    simp only [RefDevice.react, RefDevice.byte]
    split
    · simp only [RefDevice.address]; split <;> rfl
    · rfl
    · rfl
    · exact read_write_other _ _ _ _ _ (h ⟨b, rfl⟩ ‹_›)
    · rfl
    · rfl
  | rcen x =>
    simp only [RefDevice.react, RefDevice.receive]
    split
    · split <;> rfl
    · rfl
  | reqStart x => simp only [RefDevice.react]; split <;> rfl
  | reqRestart x => simp only [RefDevice.react]; split <;> rfl
  | reqStop x => simp only [RefDevice.react]; split <;> rfl
  | reqAck x => rfl
  | ackdt x => rfl
  | tbf x => rfl
  | cfg c => rfl

end Sys2Proof.Machine
end

