-- ==== Sys2Proof/Laws/State.lean ====
section
/-! SUPPORT. What each shared operation leaves in each field of State: one lemma for each field of each update. -/

namespace Sys2Proof.Machine

/-! `pifWrite` -/

@[simp] theorem pifWrite_sel (w : PortWrite) (s : State) :
    (pifWrite w s).sel = s.sel := rfl
@[simp] theorem pifWrite_raddr (w : PortWrite) (s : State) :
    (pifWrite w s).raddr = s.raddr := rfl
@[simp] theorem pifWrite_wdata (w : PortWrite) (s : State) :
    (pifWrite w s).wdata = s.wdata := rfl
@[simp] theorem pifWrite_result (w : PortWrite) (s : State) :
    (pifWrite w s).result = s.result := rfl
@[simp] theorem pifWrite_run (w : PortWrite) (s : State) :
    (pifWrite w s).run = s.run := rfl
@[simp] theorem pifWrite_upc (w : PortWrite) (s : State) :
    (pifWrite w s).upc = s.upc := rfl
@[simp] theorem pifWrite_act (w : PortWrite) (s : State) :
    (pifWrite w s).act = s.act := rfl
@[simp] theorem pifWrite_cnt (w : PortWrite) (s : State) :
    (pifWrite w s).cnt = s.cnt := rfl
@[simp] theorem pifWrite_waiting (w : PortWrite) (s : State) :
    (pifWrite w s).waiting = s.waiting := rfl
@[simp] theorem pifWrite_pidx (w : PortWrite) (s : State) :
    (pifWrite w s).pidx = s.pidx := rfl
@[simp] theorem pifWrite_done (w : PortWrite) (s : State) :
    (pifWrite w s).done = s.done := rfl
@[simp] theorem pifWrite_toAny (w : PortWrite) (s : State) :
    (pifWrite w s).toAny = s.toAny := rfl
@[simp] theorem pifWrite_toMap (w : PortWrite) (s : State) :
    (pifWrite w s).toMap = s.toMap := rfl
@[simp] theorem pifWrite_inited (w : PortWrite) (s : State) :
    (pifWrite w s).inited = s.inited := rfl
@[simp] theorem pifWrite_pif (w : PortWrite) (s : State) :
    (pifWrite w s).pif = s.pif.put w := rfl
@[simp] theorem pifWrite_trace (w : PortWrite) (s : State) :
    (pifWrite w s).trace = s.trace ++ [.wr w] := rfl
@[simp] theorem pifWrite_rom (w : PortWrite) (s : State) :
    (pifWrite w s).rom = s.rom := rfl
@[simp] theorem pifWrite_prims (w : PortWrite) (s : State) :
    (pifWrite w s).prims = s.prims := rfl
@[simp] theorem pifWrite_host (w : PortWrite) (s : State) :
    (pifWrite w s).host = s.host := rfl
@[simp] theorem pifWrite_hostSeen (w : PortWrite) (s : State) :
    (pifWrite w s).hostSeen = s.hostSeen := rfl
@[simp] theorem pifWrite_resultValid (w : PortWrite) (s : State) :
    (pifWrite w s).resultValid = s.resultValid := rfl
@[simp] theorem pifWrite_env (w : PortWrite) (s : State) :
    (pifWrite w s).env = s.env.observe w := rfl
@[simp] theorem pifWrite_draws (w : PortWrite) (s : State) :
    (pifWrite w s).draws = s.draws := rfl

/-! `pifSample` -/

@[simp] theorem pifSample_sel (p : StatusPort) (s : State) :
    (pifSample p s).sel = s.sel := rfl
@[simp] theorem pifSample_raddr (p : StatusPort) (s : State) :
    (pifSample p s).raddr = s.raddr := rfl
@[simp] theorem pifSample_wdata (p : StatusPort) (s : State) :
    (pifSample p s).wdata = s.wdata := rfl
@[simp] theorem pifSample_result (p : StatusPort) (s : State) :
    (pifSample p s).result = s.result := rfl
@[simp] theorem pifSample_run (p : StatusPort) (s : State) :
    (pifSample p s).run = s.run := rfl
@[simp] theorem pifSample_upc (p : StatusPort) (s : State) :
    (pifSample p s).upc = s.upc := rfl
@[simp] theorem pifSample_act (p : StatusPort) (s : State) :
    (pifSample p s).act = s.act := rfl
@[simp] theorem pifSample_cnt (p : StatusPort) (s : State) :
    (pifSample p s).cnt = s.cnt := rfl
@[simp] theorem pifSample_waiting (p : StatusPort) (s : State) :
    (pifSample p s).waiting = s.waiting := rfl
@[simp] theorem pifSample_pidx (p : StatusPort) (s : State) :
    (pifSample p s).pidx = s.pidx := rfl
@[simp] theorem pifSample_done (p : StatusPort) (s : State) :
    (pifSample p s).done = s.done := rfl
@[simp] theorem pifSample_toAny (p : StatusPort) (s : State) :
    (pifSample p s).toAny = s.toAny := rfl
@[simp] theorem pifSample_toMap (p : StatusPort) (s : State) :
    (pifSample p s).toMap = s.toMap := rfl
@[simp] theorem pifSample_inited (p : StatusPort) (s : State) :
    (pifSample p s).inited = s.inited := rfl
@[simp] theorem pifSample_pif (p : StatusPort) (s : State) :
    (pifSample p s).pif = s.pif.sampled p (statusAnswer p s) := rfl
@[simp] theorem pifSample_trace (p : StatusPort) (s : State) :
    (pifSample p s).trace = s.trace ++ [.rd p (statusAnswer p s)] := rfl
@[simp] theorem pifSample_rom (p : StatusPort) (s : State) :
    (pifSample p s).rom = s.rom := rfl
@[simp] theorem pifSample_prims (p : StatusPort) (s : State) :
    (pifSample p s).prims = s.prims := rfl
@[simp] theorem pifSample_host (p : StatusPort) (s : State) :
    (pifSample p s).host = s.host := rfl
@[simp] theorem pifSample_hostSeen (p : StatusPort) (s : State) :
    (pifSample p s).hostSeen = s.hostSeen := rfl
@[simp] theorem pifSample_resultValid (p : StatusPort) (s : State) :
    (pifSample p s).resultValid = s.resultValid := rfl
@[simp] theorem pifSample_env (p : StatusPort) (s : State) :
    (pifSample p s).env = (s.env.answer p s.draws).2 := rfl
@[simp] theorem pifSample_draws (p : StatusPort) (s : State) :
    (pifSample p s).draws = s.draws + 1 := rfl

/-! `countSample` -/

@[simp] theorem countSample_sel (p : StatusPort) (s : State) :
    (countSample p s).sel = s.sel := rfl
@[simp] theorem countSample_raddr (p : StatusPort) (s : State) :
    (countSample p s).raddr = s.raddr := rfl
@[simp] theorem countSample_wdata (p : StatusPort) (s : State) :
    (countSample p s).wdata = s.wdata := rfl
@[simp] theorem countSample_result (p : StatusPort) (s : State) :
    (countSample p s).result = s.result := rfl
@[simp] theorem countSample_run (p : StatusPort) (s : State) :
    (countSample p s).run = s.run := rfl
@[simp] theorem countSample_upc (p : StatusPort) (s : State) :
    (countSample p s).upc = s.upc := rfl
@[simp] theorem countSample_act (p : StatusPort) (s : State) :
    (countSample p s).act = s.act := rfl
@[simp] theorem countSample_cnt (p : StatusPort) (s : State) :
    (countSample p s).cnt = s.cnt + 1#8 := rfl
@[simp] theorem countSample_waiting (p : StatusPort) (s : State) :
    (countSample p s).waiting = s.waiting := rfl
@[simp] theorem countSample_pidx (p : StatusPort) (s : State) :
    (countSample p s).pidx = s.pidx := rfl
@[simp] theorem countSample_done (p : StatusPort) (s : State) :
    (countSample p s).done = s.done := rfl
@[simp] theorem countSample_toAny (p : StatusPort) (s : State) :
    (countSample p s).toAny = s.toAny := rfl
@[simp] theorem countSample_toMap (p : StatusPort) (s : State) :
    (countSample p s).toMap = s.toMap := rfl
@[simp] theorem countSample_inited (p : StatusPort) (s : State) :
    (countSample p s).inited = s.inited := rfl
@[simp] theorem countSample_pif (p : StatusPort) (s : State) :
    (countSample p s).pif = s.pif.sampled p (statusAnswer p s) := rfl
@[simp] theorem countSample_trace (p : StatusPort) (s : State) :
    (countSample p s).trace = s.trace ++ [.rd p (statusAnswer p s)] := rfl
@[simp] theorem countSample_rom (p : StatusPort) (s : State) :
    (countSample p s).rom = s.rom := rfl
@[simp] theorem countSample_prims (p : StatusPort) (s : State) :
    (countSample p s).prims = s.prims := rfl
@[simp] theorem countSample_host (p : StatusPort) (s : State) :
    (countSample p s).host = s.host := rfl
@[simp] theorem countSample_hostSeen (p : StatusPort) (s : State) :
    (countSample p s).hostSeen = s.hostSeen := rfl
@[simp] theorem countSample_resultValid (p : StatusPort) (s : State) :
    (countSample p s).resultValid = s.resultValid := rfl
@[simp] theorem countSample_env (p : StatusPort) (s : State) :
    (countSample p s).env = (s.env.answer p s.draws).2 := rfl
@[simp] theorem countSample_draws (p : StatusPort) (s : State) :
    (countSample p s).draws = s.draws + 1 := rfl

/-! `pifReadRx` -/

@[simp] theorem pifReadRx_sel (s : State) :
    (pifReadRx s).sel = s.sel := rfl
@[simp] theorem pifReadRx_raddr (s : State) :
    (pifReadRx s).raddr = s.raddr := rfl
@[simp] theorem pifReadRx_wdata (s : State) :
    (pifReadRx s).wdata = s.wdata := rfl
@[simp] theorem pifReadRx_result (s : State) :
    (pifReadRx s).result = s.result := rfl
@[simp] theorem pifReadRx_run (s : State) :
    (pifReadRx s).run = s.run := rfl
@[simp] theorem pifReadRx_upc (s : State) :
    (pifReadRx s).upc = s.upc := rfl
@[simp] theorem pifReadRx_act (s : State) :
    (pifReadRx s).act = s.act := rfl
@[simp] theorem pifReadRx_cnt (s : State) :
    (pifReadRx s).cnt = s.cnt := rfl
@[simp] theorem pifReadRx_waiting (s : State) :
    (pifReadRx s).waiting = s.waiting := rfl
@[simp] theorem pifReadRx_pidx (s : State) :
    (pifReadRx s).pidx = s.pidx := rfl
@[simp] theorem pifReadRx_done (s : State) :
    (pifReadRx s).done = s.done := rfl
@[simp] theorem pifReadRx_toAny (s : State) :
    (pifReadRx s).toAny = s.toAny := rfl
@[simp] theorem pifReadRx_toMap (s : State) :
    (pifReadRx s).toMap = s.toMap := rfl
@[simp] theorem pifReadRx_inited (s : State) :
    (pifReadRx s).inited = s.inited := rfl
@[simp] theorem pifReadRx_pif (s : State) :
    (pifReadRx s).pif = { s.pif with rxreg := rxAnswer s } := rfl
@[simp] theorem pifReadRx_trace (s : State) :
    (pifReadRx s).trace = s.trace ++ [.rdRx (rxAnswer s)] := rfl
@[simp] theorem pifReadRx_rom (s : State) :
    (pifReadRx s).rom = s.rom := rfl
@[simp] theorem pifReadRx_prims (s : State) :
    (pifReadRx s).prims = s.prims := rfl
@[simp] theorem pifReadRx_host (s : State) :
    (pifReadRx s).host = s.host := rfl
@[simp] theorem pifReadRx_hostSeen (s : State) :
    (pifReadRx s).hostSeen = s.hostSeen := rfl
@[simp] theorem pifReadRx_resultValid (s : State) :
    (pifReadRx s).resultValid = s.resultValid := rfl
@[simp] theorem pifReadRx_env (s : State) :
    (pifReadRx s).env = (s.env.answerRx s.draws).2 := rfl
@[simp] theorem pifReadRx_draws (s : State) :
    (pifReadRx s).draws = s.draws + 1 := rfl

/-! `latchResult` -/

@[simp] theorem latchResult_sel (s : State) :
    (latchResult s).sel = s.sel := rfl
@[simp] theorem latchResult_raddr (s : State) :
    (latchResult s).raddr = s.raddr := rfl
@[simp] theorem latchResult_wdata (s : State) :
    (latchResult s).wdata = s.wdata := rfl
@[simp] theorem latchResult_result (s : State) :
    (latchResult s).result = rxAnswer s := rfl
@[simp] theorem latchResult_run (s : State) :
    (latchResult s).run = s.run := rfl
@[simp] theorem latchResult_upc (s : State) :
    (latchResult s).upc = s.upc := rfl
@[simp] theorem latchResult_act (s : State) :
    (latchResult s).act = s.act := rfl
@[simp] theorem latchResult_cnt (s : State) :
    (latchResult s).cnt = s.cnt := rfl
@[simp] theorem latchResult_waiting (s : State) :
    (latchResult s).waiting = s.waiting := rfl
@[simp] theorem latchResult_pidx (s : State) :
    (latchResult s).pidx = s.pidx := rfl
@[simp] theorem latchResult_done (s : State) :
    (latchResult s).done = s.done := rfl
@[simp] theorem latchResult_toAny (s : State) :
    (latchResult s).toAny = s.toAny := rfl
@[simp] theorem latchResult_toMap (s : State) :
    (latchResult s).toMap = s.toMap := rfl
@[simp] theorem latchResult_inited (s : State) :
    (latchResult s).inited = s.inited := rfl
@[simp] theorem latchResult_pif (s : State) :
    (latchResult s).pif = { s.pif with rxreg := rxAnswer s } := rfl
@[simp] theorem latchResult_trace (s : State) :
    (latchResult s).trace = s.trace ++ [.rdRx (rxAnswer s)] := rfl
@[simp] theorem latchResult_rom (s : State) :
    (latchResult s).rom = s.rom := rfl
@[simp] theorem latchResult_prims (s : State) :
    (latchResult s).prims = s.prims := rfl
@[simp] theorem latchResult_host (s : State) :
    (latchResult s).host = s.host := rfl
@[simp] theorem latchResult_hostSeen (s : State) :
    (latchResult s).hostSeen = s.hostSeen := rfl
@[simp] theorem latchResult_resultValid (s : State) :
    (latchResult s).resultValid = true := rfl
@[simp] theorem latchResult_env (s : State) :
    (latchResult s).env = (s.env.answerRx s.draws).2 := rfl
@[simp] theorem latchResult_draws (s : State) :
    (latchResult s).draws = s.draws + 1 := rfl

/-! `configure` -/

@[simp] theorem configure_sel (s : State) :
    (configure s).sel = s.sel := rfl
@[simp] theorem configure_raddr (s : State) :
    (configure s).raddr = s.raddr := rfl
@[simp] theorem configure_wdata (s : State) :
    (configure s).wdata = s.wdata := rfl
@[simp] theorem configure_result (s : State) :
    (configure s).result = s.result := rfl
@[simp] theorem configure_run (s : State) :
    (configure s).run = s.run := rfl
@[simp] theorem configure_upc (s : State) :
    (configure s).upc = s.upc := rfl
@[simp] theorem configure_act (s : State) :
    (configure s).act = s.act := rfl
@[simp] theorem configure_cnt (s : State) :
    (configure s).cnt = s.cnt := rfl
@[simp] theorem configure_waiting (s : State) :
    (configure s).waiting = s.waiting := rfl
@[simp] theorem configure_pidx (s : State) :
    (configure s).pidx = s.pidx := rfl
@[simp] theorem configure_done (s : State) :
    (configure s).done = s.done := rfl
@[simp] theorem configure_toAny (s : State) :
    (configure s).toAny = s.toAny := rfl
@[simp] theorem configure_toMap (s : State) :
    (configure s).toMap = s.toMap := rfl
@[simp] theorem configure_inited (s : State) :
    (configure s).inited = true := rfl
@[simp] theorem configure_pif (s : State) :
    (configure s).pif = s.pif.put (.cfg configRecord) := rfl
@[simp] theorem configure_trace (s : State) :
    (configure s).trace = s.trace ++ [.wr (.cfg configRecord)] := rfl
@[simp] theorem configure_rom (s : State) :
    (configure s).rom = s.rom := rfl
@[simp] theorem configure_prims (s : State) :
    (configure s).prims = s.prims := rfl
@[simp] theorem configure_host (s : State) :
    (configure s).host = s.host := rfl
@[simp] theorem configure_hostSeen (s : State) :
    (configure s).hostSeen = s.hostSeen := rfl
@[simp] theorem configure_resultValid (s : State) :
    (configure s).resultValid = s.resultValid := rfl
@[simp] theorem configure_env (s : State) :
    (configure s).env = s.env.observe (.cfg configRecord) := rfl
@[simp] theorem configure_draws (s : State) :
    (configure s).draws = s.draws := rfl

/-! `delay` -/

@[simp] theorem delay_sel (s : State) :
    (delay s).sel = s.sel := rfl
@[simp] theorem delay_raddr (s : State) :
    (delay s).raddr = s.raddr := rfl
@[simp] theorem delay_wdata (s : State) :
    (delay s).wdata = s.wdata := rfl
@[simp] theorem delay_result (s : State) :
    (delay s).result = s.result := rfl
@[simp] theorem delay_run (s : State) :
    (delay s).run = s.run := rfl
@[simp] theorem delay_upc (s : State) :
    (delay s).upc = s.upc := rfl
@[simp] theorem delay_act (s : State) :
    (delay s).act = s.act := rfl
@[simp] theorem delay_cnt (s : State) :
    (delay s).cnt = s.cnt := rfl
@[simp] theorem delay_waiting (s : State) :
    (delay s).waiting = s.waiting := rfl
@[simp] theorem delay_pidx (s : State) :
    (delay s).pidx = s.pidx := rfl
@[simp] theorem delay_done (s : State) :
    (delay s).done = s.done := rfl
@[simp] theorem delay_toAny (s : State) :
    (delay s).toAny = s.toAny := rfl
@[simp] theorem delay_toMap (s : State) :
    (delay s).toMap = s.toMap := rfl
@[simp] theorem delay_inited (s : State) :
    (delay s).inited = s.inited := rfl
@[simp] theorem delay_pif (s : State) :
    (delay s).pif = s.pif := rfl
@[simp] theorem delay_trace (s : State) :
    (delay s).trace = s.trace ++ [.tick] := rfl
@[simp] theorem delay_rom (s : State) :
    (delay s).rom = s.rom := rfl
@[simp] theorem delay_prims (s : State) :
    (delay s).prims = s.prims := rfl
@[simp] theorem delay_host (s : State) :
    (delay s).host = s.host := rfl
@[simp] theorem delay_hostSeen (s : State) :
    (delay s).hostSeen = s.hostSeen := rfl
@[simp] theorem delay_resultValid (s : State) :
    (delay s).resultValid = s.resultValid := rfl
@[simp] theorem delay_env (s : State) :
    (delay s).env = s.env := rfl
@[simp] theorem delay_draws (s : State) :
    (delay s).draws = s.draws := rfl

/-! `beginDelay` -/

@[simp] theorem beginDelay_sel (s : State) :
    (beginDelay s).sel = s.sel := rfl
@[simp] theorem beginDelay_raddr (s : State) :
    (beginDelay s).raddr = s.raddr := rfl
@[simp] theorem beginDelay_wdata (s : State) :
    (beginDelay s).wdata = s.wdata := rfl
@[simp] theorem beginDelay_result (s : State) :
    (beginDelay s).result = s.result := rfl
@[simp] theorem beginDelay_run (s : State) :
    (beginDelay s).run = s.run := rfl
@[simp] theorem beginDelay_upc (s : State) :
    (beginDelay s).upc = s.upc := rfl
@[simp] theorem beginDelay_act (s : State) :
    (beginDelay s).act = s.act := rfl
@[simp] theorem beginDelay_cnt (s : State) :
    (beginDelay s).cnt = s.cnt := rfl
@[simp] theorem beginDelay_waiting (s : State) :
    (beginDelay s).waiting = true := rfl
@[simp] theorem beginDelay_pidx (s : State) :
    (beginDelay s).pidx = s.pidx := rfl
@[simp] theorem beginDelay_done (s : State) :
    (beginDelay s).done = s.done := rfl
@[simp] theorem beginDelay_toAny (s : State) :
    (beginDelay s).toAny = s.toAny := rfl
@[simp] theorem beginDelay_toMap (s : State) :
    (beginDelay s).toMap = s.toMap := rfl
@[simp] theorem beginDelay_inited (s : State) :
    (beginDelay s).inited = s.inited := rfl
@[simp] theorem beginDelay_pif (s : State) :
    (beginDelay s).pif = s.pif := rfl
@[simp] theorem beginDelay_trace (s : State) :
    (beginDelay s).trace = s.trace := rfl
@[simp] theorem beginDelay_rom (s : State) :
    (beginDelay s).rom = s.rom := rfl
@[simp] theorem beginDelay_prims (s : State) :
    (beginDelay s).prims = s.prims := rfl
@[simp] theorem beginDelay_host (s : State) :
    (beginDelay s).host = s.host := rfl
@[simp] theorem beginDelay_hostSeen (s : State) :
    (beginDelay s).hostSeen = s.hostSeen := rfl
@[simp] theorem beginDelay_resultValid (s : State) :
    (beginDelay s).resultValid = s.resultValid := rfl
@[simp] theorem beginDelay_env (s : State) :
    (beginDelay s).env = s.env := rfl
@[simp] theorem beginDelay_draws (s : State) :
    (beginDelay s).draws = s.draws := rfl

/-! `endDelay` -/

@[simp] theorem endDelay_sel (s : State) :
    (endDelay s).sel = s.sel := rfl
@[simp] theorem endDelay_raddr (s : State) :
    (endDelay s).raddr = s.raddr := rfl
@[simp] theorem endDelay_wdata (s : State) :
    (endDelay s).wdata = s.wdata := rfl
@[simp] theorem endDelay_result (s : State) :
    (endDelay s).result = s.result := rfl
@[simp] theorem endDelay_run (s : State) :
    (endDelay s).run = s.run := rfl
@[simp] theorem endDelay_upc (s : State) :
    (endDelay s).upc = s.upc := rfl
@[simp] theorem endDelay_act (s : State) :
    (endDelay s).act = s.act := rfl
@[simp] theorem endDelay_cnt (s : State) :
    (endDelay s).cnt = s.cnt := rfl
@[simp] theorem endDelay_waiting (s : State) :
    (endDelay s).waiting = false := rfl
@[simp] theorem endDelay_pidx (s : State) :
    (endDelay s).pidx = s.pidx := rfl
@[simp] theorem endDelay_done (s : State) :
    (endDelay s).done = s.done := rfl
@[simp] theorem endDelay_toAny (s : State) :
    (endDelay s).toAny = s.toAny := rfl
@[simp] theorem endDelay_toMap (s : State) :
    (endDelay s).toMap = s.toMap := rfl
@[simp] theorem endDelay_inited (s : State) :
    (endDelay s).inited = s.inited := rfl
@[simp] theorem endDelay_pif (s : State) :
    (endDelay s).pif = s.pif := rfl
@[simp] theorem endDelay_trace (s : State) :
    (endDelay s).trace = s.trace ++ [.tick] := rfl
@[simp] theorem endDelay_rom (s : State) :
    (endDelay s).rom = s.rom := rfl
@[simp] theorem endDelay_prims (s : State) :
    (endDelay s).prims = s.prims := rfl
@[simp] theorem endDelay_host (s : State) :
    (endDelay s).host = s.host := rfl
@[simp] theorem endDelay_hostSeen (s : State) :
    (endDelay s).hostSeen = s.hostSeen := rfl
@[simp] theorem endDelay_resultValid (s : State) :
    (endDelay s).resultValid = s.resultValid := rfl
@[simp] theorem endDelay_env (s : State) :
    (endDelay s).env = s.env := rfl
@[simp] theorem endDelay_draws (s : State) :
    (endDelay s).draws = s.draws := rfl

/-! `raisePhaseTimeout` -/

@[simp] theorem raisePhaseTimeout_sel (i : BitVec 4) (s : State) :
    (raisePhaseTimeout i s).sel = s.sel := rfl
@[simp] theorem raisePhaseTimeout_raddr (i : BitVec 4) (s : State) :
    (raisePhaseTimeout i s).raddr = s.raddr := rfl
@[simp] theorem raisePhaseTimeout_wdata (i : BitVec 4) (s : State) :
    (raisePhaseTimeout i s).wdata = s.wdata := rfl
@[simp] theorem raisePhaseTimeout_result (i : BitVec 4) (s : State) :
    (raisePhaseTimeout i s).result = s.result := rfl
@[simp] theorem raisePhaseTimeout_run (i : BitVec 4) (s : State) :
    (raisePhaseTimeout i s).run = s.run := rfl
@[simp] theorem raisePhaseTimeout_upc (i : BitVec 4) (s : State) :
    (raisePhaseTimeout i s).upc = s.upc := rfl
@[simp] theorem raisePhaseTimeout_act (i : BitVec 4) (s : State) :
    (raisePhaseTimeout i s).act = s.act := rfl
@[simp] theorem raisePhaseTimeout_cnt (i : BitVec 4) (s : State) :
    (raisePhaseTimeout i s).cnt = s.cnt := rfl
@[simp] theorem raisePhaseTimeout_waiting (i : BitVec 4) (s : State) :
    (raisePhaseTimeout i s).waiting = s.waiting := rfl
@[simp] theorem raisePhaseTimeout_pidx (i : BitVec 4) (s : State) :
    (raisePhaseTimeout i s).pidx = s.pidx := rfl
@[simp] theorem raisePhaseTimeout_done (i : BitVec 4) (s : State) :
    (raisePhaseTimeout i s).done = s.done := rfl
@[simp] theorem raisePhaseTimeout_toAny (i : BitVec 4) (s : State) :
    (raisePhaseTimeout i s).toAny = true := rfl
@[simp] theorem raisePhaseTimeout_toMap (i : BitVec 4) (s : State) :
    (raisePhaseTimeout i s).toMap = ToMap.set s.toMap i := rfl
@[simp] theorem raisePhaseTimeout_inited (i : BitVec 4) (s : State) :
    (raisePhaseTimeout i s).inited = s.inited := rfl
@[simp] theorem raisePhaseTimeout_pif (i : BitVec 4) (s : State) :
    (raisePhaseTimeout i s).pif = s.pif := rfl
@[simp] theorem raisePhaseTimeout_trace (i : BitVec 4) (s : State) :
    (raisePhaseTimeout i s).trace = s.trace := rfl
@[simp] theorem raisePhaseTimeout_rom (i : BitVec 4) (s : State) :
    (raisePhaseTimeout i s).rom = s.rom := rfl
@[simp] theorem raisePhaseTimeout_prims (i : BitVec 4) (s : State) :
    (raisePhaseTimeout i s).prims = s.prims := rfl
@[simp] theorem raisePhaseTimeout_host (i : BitVec 4) (s : State) :
    (raisePhaseTimeout i s).host = s.host := rfl
@[simp] theorem raisePhaseTimeout_hostSeen (i : BitVec 4) (s : State) :
    (raisePhaseTimeout i s).hostSeen = s.hostSeen := rfl
@[simp] theorem raisePhaseTimeout_resultValid (i : BitVec 4) (s : State) :
    (raisePhaseTimeout i s).resultValid = s.resultValid := rfl
@[simp] theorem raisePhaseTimeout_env (i : BitVec 4) (s : State) :
    (raisePhaseTimeout i s).env = s.env := rfl
@[simp] theorem raisePhaseTimeout_draws (i : BitVec 4) (s : State) :
    (raisePhaseTimeout i s).draws = s.draws := rfl

/-! `finish` -/

@[simp] theorem finish_sel (s : State) :
    (s.finish).sel = s.sel := rfl
@[simp] theorem finish_raddr (s : State) :
    (s.finish).raddr = s.raddr := rfl
@[simp] theorem finish_wdata (s : State) :
    (s.finish).wdata = s.wdata := rfl
@[simp] theorem finish_result (s : State) :
    (s.finish).result = s.result := rfl
@[simp] theorem finish_run (s : State) :
    (s.finish).run = false := rfl
@[simp] theorem finish_upc (s : State) :
    (s.finish).upc = s.upc := rfl
@[simp] theorem finish_act (s : State) :
    (s.finish).act = s.act := rfl
@[simp] theorem finish_cnt (s : State) :
    (s.finish).cnt = s.cnt := rfl
@[simp] theorem finish_waiting (s : State) :
    (s.finish).waiting = s.waiting := rfl
@[simp] theorem finish_pidx (s : State) :
    (s.finish).pidx = s.pidx := rfl
@[simp] theorem finish_done (s : State) :
    (s.finish).done = true := rfl
@[simp] theorem finish_toAny (s : State) :
    (s.finish).toAny = s.toAny := rfl
@[simp] theorem finish_toMap (s : State) :
    (s.finish).toMap = s.toMap := rfl
@[simp] theorem finish_inited (s : State) :
    (s.finish).inited = s.inited := rfl
@[simp] theorem finish_pif (s : State) :
    (s.finish).pif = s.pif := rfl
@[simp] theorem finish_trace (s : State) :
    (s.finish).trace = s.trace := rfl
@[simp] theorem finish_rom (s : State) :
    (s.finish).rom = s.rom := rfl
@[simp] theorem finish_prims (s : State) :
    (s.finish).prims = s.prims := rfl
@[simp] theorem finish_host (s : State) :
    (s.finish).host = s.host := rfl
@[simp] theorem finish_hostSeen (s : State) :
    (s.finish).hostSeen = s.hostSeen := rfl
@[simp] theorem finish_resultValid (s : State) :
    (s.finish).resultValid = s.resultValid := rfl
@[simp] theorem finish_env (s : State) :
    (s.finish).env = s.env := rfl
@[simp] theorem finish_draws (s : State) :
    (s.finish).draws = s.draws := rfl

/-! `hostSees` -/

@[simp] theorem hostSees_sel (v : HostReading) (s : State) :
    (hostSees v s).sel = s.sel := rfl
@[simp] theorem hostSees_raddr (v : HostReading) (s : State) :
    (hostSees v s).raddr = s.raddr := rfl
@[simp] theorem hostSees_wdata (v : HostReading) (s : State) :
    (hostSees v s).wdata = s.wdata := rfl
@[simp] theorem hostSees_result (v : HostReading) (s : State) :
    (hostSees v s).result = s.result := rfl
@[simp] theorem hostSees_run (v : HostReading) (s : State) :
    (hostSees v s).run = s.run := rfl
@[simp] theorem hostSees_upc (v : HostReading) (s : State) :
    (hostSees v s).upc = s.upc := rfl
@[simp] theorem hostSees_act (v : HostReading) (s : State) :
    (hostSees v s).act = s.act := rfl
@[simp] theorem hostSees_cnt (v : HostReading) (s : State) :
    (hostSees v s).cnt = s.cnt := rfl
@[simp] theorem hostSees_waiting (v : HostReading) (s : State) :
    (hostSees v s).waiting = s.waiting := rfl
@[simp] theorem hostSees_pidx (v : HostReading) (s : State) :
    (hostSees v s).pidx = s.pidx := rfl
@[simp] theorem hostSees_done (v : HostReading) (s : State) :
    (hostSees v s).done = s.done := rfl
@[simp] theorem hostSees_toAny (v : HostReading) (s : State) :
    (hostSees v s).toAny = s.toAny := rfl
@[simp] theorem hostSees_toMap (v : HostReading) (s : State) :
    (hostSees v s).toMap = s.toMap := rfl
@[simp] theorem hostSees_inited (v : HostReading) (s : State) :
    (hostSees v s).inited = s.inited := rfl
@[simp] theorem hostSees_pif (v : HostReading) (s : State) :
    (hostSees v s).pif = s.pif := rfl
@[simp] theorem hostSees_trace (v : HostReading) (s : State) :
    (hostSees v s).trace = s.trace := rfl
@[simp] theorem hostSees_rom (v : HostReading) (s : State) :
    (hostSees v s).rom = s.rom := rfl
@[simp] theorem hostSees_prims (v : HostReading) (s : State) :
    (hostSees v s).prims = s.prims := rfl
@[simp] theorem hostSees_host (v : HostReading) (s : State) :
    (hostSees v s).host = s.host := rfl
@[simp] theorem hostSees_hostSeen (v : HostReading) (s : State) :
    (hostSees v s).hostSeen = s.hostSeen ++ [v] := rfl
@[simp] theorem hostSees_resultValid (v : HostReading) (s : State) :
    (hostSees v s).resultValid = s.resultValid := rfl
@[simp] theorem hostSees_env (v : HostReading) (s : State) :
    (hostSees v s).env = s.env := rfl
@[simp] theorem hostSees_draws (v : HostReading) (s : State) :
    (hostSees v s).draws = s.draws := rfl

/-! `accept` -/

@[simp] theorem accept_sel (e : Upc) (sel : Sel) (raddr : Addr16) (data : Byte) (s : State) :
    (accept e sel raddr data s).sel = sel := rfl
@[simp] theorem accept_raddr (e : Upc) (sel : Sel) (raddr : Addr16) (data : Byte) (s : State) :
    (accept e sel raddr data s).raddr = raddr := rfl
@[simp] theorem accept_wdata (e : Upc) (sel : Sel) (raddr : Addr16) (data : Byte) (s : State) :
    (accept e sel raddr data s).wdata = data := rfl
@[simp] theorem accept_result (e : Upc) (sel : Sel) (raddr : Addr16) (data : Byte) (s : State) :
    (accept e sel raddr data s).result = s.result := rfl
@[simp] theorem accept_run (e : Upc) (sel : Sel) (raddr : Addr16) (data : Byte) (s : State) :
    (accept e sel raddr data s).run = true := rfl
@[simp] theorem accept_upc (e : Upc) (sel : Sel) (raddr : Addr16) (data : Byte) (s : State) :
    (accept e sel raddr data s).upc = e := rfl
@[simp] theorem accept_act (e : Upc) (sel : Sel) (raddr : Addr16) (data : Byte) (s : State) :
    (accept e sel raddr data s).act = 0#2 := rfl
@[simp] theorem accept_cnt (e : Upc) (sel : Sel) (raddr : Addr16) (data : Byte) (s : State) :
    (accept e sel raddr data s).cnt = 0#8 := rfl
@[simp] theorem accept_waiting (e : Upc) (sel : Sel) (raddr : Addr16) (data : Byte) (s : State) :
    (accept e sel raddr data s).waiting = false := rfl
@[simp] theorem accept_pidx (e : Upc) (sel : Sel) (raddr : Addr16) (data : Byte) (s : State) :
    (accept e sel raddr data s).pidx = 0#4 := rfl
@[simp] theorem accept_done (e : Upc) (sel : Sel) (raddr : Addr16) (data : Byte) (s : State) :
    (accept e sel raddr data s).done = false := rfl
@[simp] theorem accept_toAny (e : Upc) (sel : Sel) (raddr : Addr16) (data : Byte) (s : State) :
    (accept e sel raddr data s).toAny = false := rfl
@[simp] theorem accept_toMap (e : Upc) (sel : Sel) (raddr : Addr16) (data : Byte) (s : State) :
    (accept e sel raddr data s).toMap = 0#12 := rfl
@[simp] theorem accept_inited (e : Upc) (sel : Sel) (raddr : Addr16) (data : Byte) (s : State) :
    (accept e sel raddr data s).inited = s.inited := rfl
@[simp] theorem accept_pif (e : Upc) (sel : Sel) (raddr : Addr16) (data : Byte) (s : State) :
    (accept e sel raddr data s).pif = s.pif := rfl
@[simp] theorem accept_trace (e : Upc) (sel : Sel) (raddr : Addr16) (data : Byte) (s : State) :
    (accept e sel raddr data s).trace = s.trace := rfl
@[simp] theorem accept_rom (e : Upc) (sel : Sel) (raddr : Addr16) (data : Byte) (s : State) :
    (accept e sel raddr data s).rom = s.rom := rfl
@[simp] theorem accept_prims (e : Upc) (sel : Sel) (raddr : Addr16) (data : Byte) (s : State) :
    (accept e sel raddr data s).prims = s.prims := rfl
@[simp] theorem accept_host (e : Upc) (sel : Sel) (raddr : Addr16) (data : Byte) (s : State) :
    (accept e sel raddr data s).host = s.host := rfl
@[simp] theorem accept_hostSeen (e : Upc) (sel : Sel) (raddr : Addr16) (data : Byte) (s : State) :
    (accept e sel raddr data s).hostSeen = s.hostSeen := rfl
@[simp] theorem accept_resultValid (e : Upc) (sel : Sel) (raddr : Addr16) (data : Byte) (s : State) :
    (accept e sel raddr data s).resultValid = s.resultValid := rfl
@[simp] theorem accept_env (e : Upc) (sel : Sel) (raddr : Addr16) (data : Byte) (s : State) :
    (accept e sel raddr data s).env = s.env := rfl
@[simp] theorem accept_draws (e : Upc) (sel : Sel) (raddr : Addr16) (data : Byte) (s : State) :
    (accept e sel raddr data s).draws = s.draws := rfl

/-! `advance` -/

@[simp] theorem advance_sel (last : Bool) (prim : Option Primitive) (s : State) :
    (advance last prim s).sel = s.sel := by cases last <;> rfl
@[simp] theorem advance_raddr (last : Bool) (prim : Option Primitive) (s : State) :
    (advance last prim s).raddr = s.raddr := by cases last <;> rfl
@[simp] theorem advance_wdata (last : Bool) (prim : Option Primitive) (s : State) :
    (advance last prim s).wdata = s.wdata := by cases last <;> rfl
@[simp] theorem advance_result (last : Bool) (prim : Option Primitive) (s : State) :
    (advance last prim s).result = s.result := by cases last <;> rfl
@[simp] theorem advance_run (last : Bool) (prim : Option Primitive) (s : State) :
    (advance last prim s).run = s.run := by cases last <;> rfl
@[simp] theorem advance_cnt (last : Bool) (prim : Option Primitive) (s : State) :
    (advance last prim s).cnt = s.cnt := by cases last <;> rfl
@[simp] theorem advance_waiting (last : Bool) (prim : Option Primitive) (s : State) :
    (advance last prim s).waiting = s.waiting := by cases last <;> rfl
@[simp] theorem advance_pidx (last : Bool) (prim : Option Primitive) (s : State) :
    (advance last prim s).pidx = s.pidx := by cases last <;> rfl
@[simp] theorem advance_done (last : Bool) (prim : Option Primitive) (s : State) :
    (advance last prim s).done = s.done := by cases last <;> rfl
@[simp] theorem advance_toAny (last : Bool) (prim : Option Primitive) (s : State) :
    (advance last prim s).toAny = s.toAny := by cases last <;> rfl
@[simp] theorem advance_toMap (last : Bool) (prim : Option Primitive) (s : State) :
    (advance last prim s).toMap = s.toMap := by cases last <;> rfl
@[simp] theorem advance_inited (last : Bool) (prim : Option Primitive) (s : State) :
    (advance last prim s).inited = s.inited := by cases last <;> rfl
@[simp] theorem advance_pif (last : Bool) (prim : Option Primitive) (s : State) :
    (advance last prim s).pif = s.pif := by cases last <;> rfl
@[simp] theorem advance_trace (last : Bool) (prim : Option Primitive) (s : State) :
    (advance last prim s).trace = s.trace := by cases last <;> rfl
@[simp] theorem advance_rom (last : Bool) (prim : Option Primitive) (s : State) :
    (advance last prim s).rom = s.rom := by cases last <;> rfl
@[simp] theorem advance_host (last : Bool) (prim : Option Primitive) (s : State) :
    (advance last prim s).host = s.host := by cases last <;> rfl
@[simp] theorem advance_hostSeen (last : Bool) (prim : Option Primitive) (s : State) :
    (advance last prim s).hostSeen = s.hostSeen := by cases last <;> rfl
@[simp] theorem advance_resultValid (last : Bool) (prim : Option Primitive) (s : State) :
    (advance last prim s).resultValid = s.resultValid := by cases last <;> rfl
@[simp] theorem advance_env (last : Bool) (prim : Option Primitive) (s : State) :
    (advance last prim s).env = s.env := by cases last <;> rfl
@[simp] theorem advance_draws (last : Bool) (prim : Option Primitive) (s : State) :
    (advance last prim s).draws = s.draws := by cases last <;> rfl
@[simp] theorem advance_last_upc (prim : Option Primitive) (s : State) :
    (advance true prim s).upc = s.upc + 1#6 := rfl
@[simp] theorem advance_inner_upc (prim : Option Primitive) (s : State) :
    (advance false prim s).upc = s.upc := rfl
@[simp] theorem advance_last_act (prim : Option Primitive) (s : State) :
    (advance true prim s).act = 0#2 := rfl
@[simp] theorem advance_inner_act (prim : Option Primitive) (s : State) :
    (advance false prim s).act = s.act + 1#2 := rfl
@[simp] theorem advance_last_prims (prim : Option Primitive) (s : State) :
    (advance true prim s).prims = s.prims ++ prim.toList := rfl
@[simp] theorem advance_inner_prims (prim : Option Primitive) (s : State) :
    (advance false prim s).prims = s.prims := rfl

/-! `closePoll` -/

@[simp] theorem closePoll_sel (o : PollEnd) (s : State) :
    (closePoll o s).sel = s.sel := by cases o <;> rfl
@[simp] theorem closePoll_raddr (o : PollEnd) (s : State) :
    (closePoll o s).raddr = s.raddr := by cases o <;> rfl
@[simp] theorem closePoll_wdata (o : PollEnd) (s : State) :
    (closePoll o s).wdata = s.wdata := by cases o <;> rfl
@[simp] theorem closePoll_result (o : PollEnd) (s : State) :
    (closePoll o s).result = s.result := by cases o <;> rfl
@[simp] theorem closePoll_run (o : PollEnd) (s : State) :
    (closePoll o s).run = s.run := by cases o <;> rfl
@[simp] theorem closePoll_upc (o : PollEnd) (s : State) :
    (closePoll o s).upc = s.upc := by cases o <;> rfl
@[simp] theorem closePoll_act (o : PollEnd) (s : State) :
    (closePoll o s).act = s.act := by cases o <;> rfl
@[simp] theorem closePoll_cnt (o : PollEnd) (s : State) :
    (closePoll o s).cnt = 0#8 := by cases o <;> rfl
@[simp] theorem closePoll_waiting (o : PollEnd) (s : State) :
    (closePoll o s).waiting = false := by cases o <;> rfl
@[simp] theorem closePoll_pidx (o : PollEnd) (s : State) :
    (closePoll o s).pidx = s.pidx + 1#4 := by cases o <;> rfl
@[simp] theorem closePoll_done (o : PollEnd) (s : State) :
    (closePoll o s).done = s.done := by cases o <;> rfl
@[simp] theorem closePoll_inited (o : PollEnd) (s : State) :
    (closePoll o s).inited = s.inited := by cases o <;> rfl
@[simp] theorem closePoll_pif (o : PollEnd) (s : State) :
    (closePoll o s).pif = s.pif := by cases o <;> rfl
@[simp] theorem closePoll_trace (o : PollEnd) (s : State) :
    (closePoll o s).trace = s.trace := by cases o <;> rfl
@[simp] theorem closePoll_rom (o : PollEnd) (s : State) :
    (closePoll o s).rom = s.rom := by cases o <;> rfl
@[simp] theorem closePoll_prims (o : PollEnd) (s : State) :
    (closePoll o s).prims = s.prims := by cases o <;> rfl
@[simp] theorem closePoll_host (o : PollEnd) (s : State) :
    (closePoll o s).host = s.host := by cases o <;> rfl
@[simp] theorem closePoll_hostSeen (o : PollEnd) (s : State) :
    (closePoll o s).hostSeen = s.hostSeen := by cases o <;> rfl
@[simp] theorem closePoll_resultValid (o : PollEnd) (s : State) :
    (closePoll o s).resultValid = s.resultValid := by cases o <;> rfl
@[simp] theorem closePoll_env (o : PollEnd) (s : State) :
    (closePoll o s).env = s.env := by cases o <;> rfl
@[simp] theorem closePoll_draws (o : PollEnd) (s : State) :
    (closePoll o s).draws = s.draws := by cases o <;> rfl
@[simp] theorem closePoll_ok_toMap (s : State) :
    (closePoll .ok s).toMap = s.toMap := rfl
@[simp] theorem closePoll_timeout_toMap (s : State) :
    (closePoll .timeout s).toMap = ToMap.set s.toMap s.pidx := rfl
@[simp] theorem closePoll_ok_toAny (s : State) :
    (closePoll .ok s).toAny = s.toAny := rfl
@[simp] theorem closePoll_timeout_toAny (s : State) :
    (closePoll .timeout s).toAny = true := rfl

end Sys2Proof.Machine
end

