-- ==== Sys2Proof/Laws/Sequencer.lean ====
section
/-! SUPPORT. What one step can do: every micro-operation is its action list, an action keeps the operand latches, the ROM
and HOST's inputs, and a step is a HOST input, an action or a wait. -/

namespace Sys2Proof

open Machine

/-! Instructions. -/

/-- The decoder of format U gives micro-operations only. -/
theorem decodeMicro_not_command {w : Byte} {i : Instr} (h : decodeMicro w = .ok i) : i.isCommand = false := by
  have key : ∀ w : Byte, ((decodeMicro w).toOption.map Instr.isCommand).getD false = false := by decide +kernel
  simpa [h, Except.toOption] using key w

/-- The decoder of format H gives host commands only. -/
theorem decodeCommand_command {w : CmdWord} {i : Instr} (h : decodeCommand w = .ok i) : i.isCommand = true := by
  unfold decodeCommand at h
  split at h
  · cases h
  split at h
  · cases h; rfl
  split at h
  · cases h; rfl
  split at h
  · cases h; rfl
  · cases h

/-- A micro-operation executes one action of its list (R110, R131). -/
theorem exec_micro {i : Instr} (h : i.isCommand = false) (s : State) :
    exec i s = microStep (actionsOf i s) (primitiveOf i s) s := by
  cases i <;> first | rfl | cases h

/-- The action list depends on the operand latches only. -/
theorem actionsOf_congr (i : Instr) {s t : State} (h1 : t.sel = s.sel) (h2 : t.raddr = s.raddr)
    (h3 : t.wdata = s.wdata) : actionsOf i t = actionsOf i s := by
  cases i <;> simp [actionsOf, operandHi, operandLo, operandD, operandA, h1, h2, h3]

/-- So does the primitive. -/
theorem primitiveOf_congr (i : Instr) {s t : State} (h1 : t.sel = s.sel) (h2 : t.raddr = s.raddr)
    (h3 : t.wdata = s.wdata) : primitiveOf i t = primitiveOf i s := by
  cases i <;> simp [primitiveOf, operandHi, operandLo, operandD, operandA, h1, h2, h3]

/-- A micro-operation answers a next state or the one fault. -/
theorem microStep_next_iff {l : List Action} {prim : Option Primitive} {s t : State} :
    microStep l prim s = .next t ↔
      ∃ a, l[s.act.toNat]? = some a ∧ t = perform a (s.act.toNat + 1 == l.length) prim s := by
  unfold microStep
  split <;> rename_i h <;> simp [h, eq_comm]

theorem microStep_of_action {l : List Action} {prim : Option Primitive} {s : State} {a : Action}
    (h : l[s.act.toNat]? = some a) : microStep l prim s = .next (perform a (s.act.toNat + 1 == l.length) prim s) := by
  simp [microStep, h]

/-! What an action keeps. -/

section PerformKeeps

variable (a : Action) (last : Bool) (prim : Option Primitive) (s : State)

theorem pollStep_cases (p : StatusPort) (target : Bit) :
    (s.waiting = true ∧ s.cnt.toNat = 240 ∧
      pollStep p target last prim s = advance last prim (closePoll .timeout (endDelay s))) ∨
    (s.waiting = true ∧ s.cnt.toNat ≠ 240 ∧ pollStep p target last prim s = endDelay s) ∨
    (s.waiting = false ∧ statusAnswer p s = target ∧
      pollStep p target last prim s = advance last prim (closePoll .ok (countSample p s))) ∨
    (s.waiting = false ∧ statusAnswer p s ≠ target ∧
      pollStep p target last prim s = (beginDelay (countSample p s))) := by
  unfold pollStep delayStep sampleStep endPoll budgetSpent
  cases hw : s.waiting
  · by_cases hv : statusAnswer p s = target <;> simp [hv]
  · by_cases hc : s.cnt.toNat = 240 <;> simp [hc]

@[simp] theorem perform_sel : (perform a last prim s).sel = s.sel := by
  cases a with
  | poll p t => rcases pollStep_cases last prim s p t with h | h | h | h <;> simp [perform, h]
  | _ => simp [perform]

@[simp] theorem perform_raddr : (perform a last prim s).raddr = s.raddr := by
  cases a with
  | poll p t => rcases pollStep_cases last prim s p t with h | h | h | h <;> simp [perform, h]
  | _ => simp [perform]

@[simp] theorem perform_wdata : (perform a last prim s).wdata = s.wdata := by
  cases a with
  | poll p t => rcases pollStep_cases last prim s p t with h | h | h | h <;> simp [perform, h]
  | _ => simp [perform]

@[simp] theorem perform_rom : (perform a last prim s).rom = s.rom := by
  cases a with
  | poll p t => rcases pollStep_cases last prim s p t with h | h | h | h <;> simp [perform, h]
  | _ => simp [perform]

@[simp] theorem perform_host : (perform a last prim s).host = s.host := by
  cases a with
  | poll p t => rcases pollStep_cases last prim s p t with h | h | h | h <;> simp [perform, h]
  | _ => simp [perform]

@[simp] theorem perform_hostSeen : (perform a last prim s).hostSeen = s.hostSeen := by
  cases a with
  | poll p t => rcases pollStep_cases last prim s p t with h | h | h | h <;> simp [perform, h]
  | _ => simp [perform]

theorem perform_result (h : a ≠ .latch) : (perform a last prim s).result = s.result := by
  cases a with
  | poll p t => rcases pollStep_cases last prim s p t with h | h | h | h <;> simp [perform, h]
  | latch => exact absurd rfl h
  | _ => simp [perform]

theorem perform_resultValid (h : a ≠ .latch) : (perform a last prim s).resultValid = s.resultValid := by
  cases a with
  | poll p t => rcases pollStep_cases last prim s p t with h | h | h | h <;> simp [perform, h]
  | latch => exact absurd rfl h
  | _ => simp [perform]

theorem perform_inited (h : a ≠ .config) : (perform a last prim s).inited = s.inited := by
  cases a with
  | poll p t => rcases pollStep_cases last prim s p t with h | h | h | h <;> simp [perform, h]
  | config => exact absurd rfl h
  | _ => simp [perform]

theorem perform_run (h : a ≠ .finish) : (perform a last prim s).run = s.run := by
  cases a with
  | poll p t => rcases pollStep_cases last prim s p t with h | h | h | h <;> simp [perform, h]
  | finish => exact absurd rfl h
  | _ => simp [perform]

theorem perform_done (h : a ≠ .finish) : (perform a last prim s).done = s.done := by
  cases a with
  | poll p t => rcases pollStep_cases last prim s p t with h | h | h | h <;> simp [perform, h]
  | finish => exact absurd rfl h
  | _ => simp [perform]

end PerformKeeps

/-! Steps. -/

/-- A command that answers a next state is accepted at its entry address (R130). -/
theorem exec_command_next {i : Instr} (hi : i.isCommand = true) {s t : State} (h : exec i s = .next t) :
    s.run = false ∧ ∃ entry sel raddr data, t = accept entry sel raddr data s ∧
      ((i = .init sel raddr data ∧ entry = entryInit ∧ s.inited = false) ∨
       (i = .wrreg sel raddr data ∧ entry = entryWrreg ∧ s.inited = true) ∨
       (i = .rdreg sel raddr data ∧ entry = entryRdreg ∧ s.inited = true)) := by
  cases i with
  | init sel raddr data =>
    simp only [exec, execInit] at h
    split at h
    · cases h
    split at h
    · cases h
    cases h
    exact ⟨by simp_all, _, sel, raddr, data, rfl, .inl ⟨rfl, rfl, by simp_all⟩⟩
  | wrreg sel raddr data =>
    simp only [exec, execWrreg] at h
    split at h
    · cases h
    split at h
    · cases h
      exact ⟨by simp_all, _, sel, raddr, data, rfl, .inr (.inl ⟨rfl, rfl, by simp_all⟩)⟩
    · cases h
  | rdreg sel raddr data =>
    simp only [exec, execRdreg] at h
    split at h
    · cases h
    split at h
    · cases h
      exact ⟨by simp_all, _, sel, raddr, data, rfl, .inr (.inr ⟨rfl, rfl, by simp_all⟩)⟩
    · cases h
  | _ => cases hi

/-- HOST moves: its next input is taken from the list. -/
theorem hostTurn_some {s s' : State} {a : HostAct} (h : hostTurn s = some (a, s')) :
    ∃ x rest, s.host = x :: rest ∧ a = x.act ∧ s' = { s with host := rest } ∧ (x.timing = .now ∨ s.run = false) := by
  unfold hostTurn at h
  split at h
  · cases h
  · rename_i x rest hx
    split at h
    · cases h; exact ⟨x, rest, hx, rfl, rfl, .inl ‹_›⟩
    · split at h
      · cases h
      · cases h; exact ⟨x, rest, hx, rfl, rfl, .inr (by simp_all)⟩

/-- While a routine runs, CORE moves exactly where HOST waits. -/
theorem hostTurn_none {s : State} (hr : s.run = true) (hw : s.hostWaits = true) : hostTurn s = none := by
  unfold hostTurn
  unfold State.hostWaits at hw
  split
  · rfl
  · rename_i x rest hx
    simp only [hx, beq_iff_eq] at hw
    simp [hw, hr]

/-- A HOST read changes only what HOST has seen. -/
theorem hostRead_next {r : HostReg} {s t : State} (h : hostRead r s = .next t) : ∃ v, t = hostSees v s := by
  cases r <;> simp only [hostRead, readAfterRun] at h
  · cases h; exact ⟨_, rfl⟩
  · cases h; exact ⟨_, rfl⟩
  all_goals
    split at h
    · cases h
    · cases h; exact ⟨_, rfl⟩

/-- Everything a step that answers a next state can have done: HOST read an output, a command was accepted, the
sequencer performed one action, or CORE waited. -/
theorem step_cases {s t : State} (h : step s = .next t) :
    (∃ v rest, t = hostSees v { s with host := rest }) ∨
    (s.run = false ∧ ∃ rest entry sel raddr data, t = accept entry sel raddr data { s with host := rest } ∧
      ((entry = entryInit ∧ s.inited = false) ∨
       ((entry = entryWrreg ∨ entry = entryRdreg) ∧ s.inited = true))) ∨
    (s.run = true ∧ hostTurn s = none ∧ ∃ i a, currentInstr s = .ok i ∧ i.isCommand = false ∧
      (actionsOf i s)[s.act.toNat]? = some a ∧
      t = perform a (s.act.toNat + 1 == (actionsOf i s).length) (primitiveOf i s) s) ∨
    (s.run = false ∧ t = s) := by
  unfold step at h
  split at h
  · rename_i a s' ht
    obtain ⟨x, rest, hx, rfl, rfl, -⟩ := hostTurn_some ht
    unfold hostStep at h
    split at h
    · obtain ⟨v, rfl⟩ := hostRead_next h
      exact .inl ⟨v, rest, rfl⟩
    · split at h
      · cases h
      split at h
      · rename_i i hi
        obtain ⟨hr, e, sel, raddr, data, rfl, hc⟩ := exec_command_next (decodeCommand_command hi) h
        refine .inr (.inl ⟨hr, rest, e, sel, raddr, data, rfl, ?_⟩)
        rcases hc with ⟨-, he, hi⟩ | ⟨-, he, hi⟩ | ⟨-, he, hi⟩
        · exact .inl ⟨he, hi⟩
        · exact .inr ⟨.inl he, hi⟩
        · exact .inr ⟨.inr he, hi⟩
      · cases h
  · rename_i ht
    unfold coreStep at h
    split at h
    · rename_i hr
      split at h
      · rename_i i hi
        have hc := decodeMicro_not_command hi
        rw [exec_micro hc, microStep_next_iff] at h
        obtain ⟨a, ha, rfl⟩ := h
        exact .inr (.inr (.inl ⟨hr, ht, i, a, hi, hc, ha, rfl⟩))
      · cases h
    · cases h
      exact .inr (.inr (.inr ⟨by simp_all, rfl⟩))

/-- While a routine runs and HOST waits, a step is the micro-operation at `UPC` (R131). -/
theorem step_of_run {s : State} {i : Instr} (hr : s.run = true) (hw : s.hostWaits = true)
    (hi : currentInstr s = .ok i) : step s = exec i s := by
  simp only [step, hostTurn_none hr hw, coreStep, hr, if_true]
  rw [show decodeMicro (romFetch s) = .ok i from hi]

/-! Iterated steps. -/

theorem iterateSteps_add (f : State → Host.Outcome State Fault Refusal) (m n : Nat) {s t : State}
    (h : iterateSteps f m s = .next t) : iterateSteps f (m + n) s = iterateSteps f n t := by
  induction m generalizing s with
  | zero => cases h; simp
  | succ m ih =>
    rw [Nat.succ_add]
    simp only [iterateSteps] at h ⊢
    split at h
    · exact ih h
    · cases h
    · cases h

theorem iterateSteps_one (f : State → Host.Outcome State Fault Refusal) {s t : State} (h : f s = .next t) :
    iterateSteps f 1 s = .next t := by
  simp [iterateSteps, h]

end Sys2Proof
end

