-- ==== Sys2Proof/Laws/Poll.lean ====
section
/-! SUPPORT. TimeoutPoll: what the algorithm of R91 leaves, and that the small steps of R92 run it. -/

namespace Sys2Proof

open Machine

/-- The reference device inside an environment, if there is one. -/
def envDevice : Env → Option RefDevice
  | .script _ _ => none
  | .ref e => some e.device

theorem envDevice_answer (e : Env) (p : StatusPort) (k : Nat) : envDevice (e.answer p k).2 = envDevice e := by
  cases e with
  | script st rx => cases st <;> rfl
  | ref r =>
    simp only [Env.answer, envDevice, RefEnv.sample]
    split
    · rfl
    · split <;> rfl

theorem envDevice_answerRx (e : Env) (k : Nat) : envDevice (e.answerRx k).2 = envDevice e := by
  cases e with
  | script st rx => cases rx <;> rfl
  | ref r => rfl

theorem envDevice_observe (e : Env) (w : PortWrite) : envDevice (e.observe w) = (envDevice e).map (·.react w) := by
  cases e <;> rfl

/-- How a poll's outcome ends it. -/
def endOf : PollOutcome → PollEnd
  | .ok _ => .ok
  | .timeout => .timeout

/-- The events of a poll with `n` samples left. -/
def eventsWithin (p : StatusPort) (n : Nat) : PollOutcome → List Event
  | .ok j => failedSamples p (j - 1) ++ [.rd p 0#1]
  | .timeout => failedSamples p n

/-- The steps of a poll with `n` samples left. -/
def stepsWithin (n : Nat) : PollOutcome → Nat
  | .ok j => 2 * j - 1
  | .timeout => 2 * n

/-- The outcomes a poll with `n` samples left can have. -/
def legalWithin (n : Nat) : PollOutcome → Prop
  | .ok j => 1 ≤ j ∧ j ≤ n
  | .timeout => True

theorem failedSamples_succ (p : StatusPort) (n : Nat) :
    failedSamples p (n + 1) = [.rd p 1#1, .tick] ++ failedSamples p n := by
  simp [failedSamples, List.replicate_succ]

theorem bit_ne_zero {v : Bit} (h : v ≠ 0#1) : v = 1#1 := by
  revert h; revert v; decide

/-- One failed sample more. -/
def oneMore : PollOutcome → PollOutcome
  | .ok j => .ok (j + 1)
  | .timeout => .timeout

/-- How a poll with `n` samples left ends, as a function of the state, that is of ENV's answers. -/
def pollOutcome (p : StatusPort) : Nat → State → PollOutcome
  | 0, _ => .timeout
  | n + 1, s => if statusAnswer p s = 0#1 then .ok 1 else oneMore (pollOutcome p n (delay (countSample p s)))

theorem pollOutcome_legal (p : StatusPort) : ∀ (n : Nat) (s : State), legalWithin n (pollOutcome p n s)
  | 0, s => trivial
  | n + 1, s => by
    have ih := pollOutcome_legal p n (delay (countSample p s))
    unfold pollOutcome
    split
    · exact ⟨le_refl 1, by omega⟩
    · revert ih
      cases pollOutcome p n (delay (countSample p s)) with
      | ok j => intro ih; exact ⟨by omega, Nat.succ_le_succ ih.2⟩
      | timeout => intro ih; exact trivial

theorem events_oneMore (p : StatusPort) (n : Nat) (o : PollOutcome) (h : legalWithin n o) :
    eventsWithin p (n + 1) (oneMore o) = [.rd p 1#1, .tick] ++ eventsWithin p n o := by
  cases o with
  | ok j =>
    obtain ⟨i, rfl⟩ : ∃ i, j = i + 1 := ⟨j - 1, by have := h.1; omega⟩
    simp [oneMore, eventsWithin, failedSamples_succ]
  | timeout => simp [oneMore, eventsWithin, failedSamples_succ]

theorem steps_oneMore (n : Nat) (o : PollOutcome) (h : legalWithin n o) :
    stepsWithin (n + 1) (oneMore o) = stepsWithin n o + 1 + 1 := by
  cases o with
  | ok j => have := h.1; simp only [oneMore, stepsWithin]; omega
  | timeout => simp only [oneMore, stepsWithin]; omega

theorem endOf_oneMore (o : PollOutcome) : endOf (oneMore o) = endOf o := by cases o <;> rfl

/-- What a poll of `n` samples leaves: ENV has answered, the samples and delays are in `TRACE`, and nothing but the
port, ENV, the read index and `CNT` has changed. -/
theorem pollLoop_spec (p : StatusPort) : ∀ (n : Nat) (s : State), ∃ q e d c, envDevice e = envDevice s.env ∧
    pollLoop p 0#1 n s = (endOf (pollOutcome p n s),
      { s with pif := q, env := e, draws := d, cnt := c, trace := s.trace ++ eventsWithin p n (pollOutcome p n s) }) := by
  intro n
  induction n with
  | zero =>
    intro s
    exact ⟨s.pif, s.env, s.draws, s.cnt, rfl, by simp [pollLoop, pollOutcome, endOf, eventsWithin, failedSamples]⟩
  | succ n ih =>
    intro s
    by_cases hv : statusAnswer p s = 0#1
    · refine ⟨(countSample p s).pif, (countSample p s).env, (countSample p s).draws, (countSample p s).cnt,
        envDevice_answer s.env p s.draws, ?_⟩
      simp [pollLoop, pollOutcome, hv, endOf, eventsWithin, failedSamples, countSample, pifSample]
    · obtain ⟨q, e, d, c, he, hp⟩ := ih (delay (countSample p s))
      refine ⟨q, e, d, c, he.trans (envDevice_answer s.env p s.draws), ?_⟩
      simp only [pollLoop, pollOutcome, hv, if_false, hp, endOf_oneMore,
        events_oneMore p n _ (pollOutcome_legal p n _)]
      simp [delay, countSample, pifSample, bit_ne_zero hv]

theorem cnt_succ {s : State} (h : s.cnt.toNat < 240) : (s.cnt + 1#8).toNat = s.cnt.toNat + 1 := by
  rw [BitVec.toNat_add]; simp; omega

/-- A port sampled twice holds the later answer (log 4). -/
@[simp] theorem sampled_sampled (q : Pif) (p : StatusPort) (v w : Bit) : (q.sampled p v).sampled p w = q.sampled p w := by
  cases p <;> rfl

/-- The small steps of a poll with `n` samples left run the loop of R91 and then end the poll, in exactly the steps its
outcome takes. `f` is any step function that performs the poll's step wherever `P` holds. -/
theorem poll_steps (f : State → Host.Outcome State Fault Refusal) (P : State → Prop) (p : StatusPort) (last : Bool)
    (prim : Option Primitive) (hf : ∀ s, P s → f s = .next (pollStep p 0#1 last prim s))
    (hP : ∀ s, P s → P (beginDelay (countSample p s))) (hD : ∀ s, P s → P (endDelay s)) :
    ∀ (n : Nat) (s : State), 1 ≤ n → P s → s.waiting = false → s.cnt.toNat + n = 240 →
      iterateSteps f (stepsWithin n (pollOutcome p n s)) s =
        .next (endPoll (pollLoop p 0#1 n s).1 last prim (pollLoop p 0#1 n s).2) := by
  intro n
  induction n with
  | zero => intro s h; omega
  | succ n ih =>
    intro s _ hs hw hc
    have hcnt : (s.cnt + 1#8).toNat = s.cnt.toNat + 1 := cnt_succ (by omega)
    by_cases hv : statusAnswer p s = 0#1
    · simp only [pollOutcome, hv, if_true, stepsWithin]
      apply iterateSteps_one
      rw [hf s hs]
      simp [pollStep, hw, sampleStep, hv, pollLoop]
    · have h1 : f s = .next (beginDelay (countSample p s)) := by
        rw [hf s hs]; simp [pollStep, hw, sampleStep, hv]
      have hP1 := hP s hs
      have heq : endDelay (beginDelay (countSample p s)) = delay (countSample p s) := by
        simp [endDelay, beginDelay, delay, countSample, pifSample, hw]
      have h2 : f (beginDelay (countSample p s)) =
          .next (delayStep last prim (beginDelay (countSample p s))) := by
        rw [hf _ hP1]; simp [pollStep]
      have hlegal := pollOutcome_legal p n (delay (countSample p s))
      simp only [pollOutcome, hv, if_false, pollLoop, steps_oneMore n _ hlegal, iterateSteps, h1, h2]
      by_cases hn : n = 0
      · subst hn
        have hb : budgetSpent (beginDelay (countSample p s)) = true := by
          simp [budgetSpent, hcnt]; omega
        simp [pollOutcome, stepsWithin, iterateSteps, delayStep, hb, heq, pollLoop]
      · have hb : budgetSpent (beginDelay (countSample p s)) = false := by
          simp [budgetSpent, hcnt]; omega
        have hP2 : P (delay (countSample p s)) := heq ▸ hD _ hP1
        simp only [delayStep, hb, heq]
        exact ih (delay (countSample p s)) (by omega) hP2 (by simp [hw]) (by simp [hcnt]; omega)

end Sys2Proof
end

