-- ==== Sys2Proof/Laws/Micro.lean ====
section
/-! SUPPORT. A whole micro-operation: its steps run its action list (R100, R131), and what the list leaves. -/

namespace Sys2Proof

open Machine

/-- What no action of a micro-operation changes before it completes. -/
structure SamePlace (s t : State) : Prop where
  sel : t.sel = s.sel
  raddr : t.raddr = s.raddr
  wdata : t.wdata = s.wdata
  run : t.run = s.run
  upc : t.upc = s.upc
  host : t.host = s.host
  rom : t.rom = s.rom

theorem SamePlace.refl (s : State) : SamePlace s s := ⟨rfl, rfl, rfl, rfl, rfl, rfl, rfl⟩

theorem SamePlace.trans {s t u : State} (h : SamePlace s t) (k : SamePlace t u) : SamePlace s u :=
  ⟨k.sel.trans h.sel, k.raddr.trans h.raddr, k.wdata.trans h.wdata, k.run.trans h.run, k.upc.trans h.upc,
   k.host.trans h.host, k.rom.trans h.rom⟩

theorem clear_cnt {s : State} (h : s.cnt = 0#8) : { s with cnt := 0#8 } = s := by
  cases s; simp_all

theorem poll_eq_loop (p : StatusPort) {s : State} (h : s.cnt = 0#8) : poll p 0#1 s = pollLoop p 0#1 240 s := by
  simp only [poll, clear_cnt h]

/-- The steps of a whole action. -/
def actionSteps (a : Action) (s : State) : Nat :=
  match a with
  | .poll p _ => stepsWithin 240 (pollOutcome p 240 s)
  | .write _ => 1
  | .config => 1
  | .latch => 1
  | .finish => 1

/-- The steps of a whole action list. -/
def listSteps (prim : Option Primitive) : List Action → State → Nat
  | [], _ => 0
  | a :: rest, s => actionSteps a s + listSteps prim rest (performWhole a rest.isEmpty prim s)

/-- An action of the lists of R110: its poll, if it is one, has target 0 (R94), and it is not END's. -/
def Action.plain : Action → Bool
  | .poll _ t => t == 0#1
  | .write _ => true
  | .config => true
  | .latch => true
  | .finish => false

/-- A whole action that is not the last leaves the next one at its start. -/
theorem performWhole_inner {a : Action} (ha : Action.plain a = true) (prim : Option Primitive) {s : State}
    (hc : s.cnt = 0#8) (hw : s.waiting = false) :
    SamePlace s (performWhole a false prim s) ∧ (performWhole a false prim s).act = s.act + 1#2 ∧
      (performWhole a false prim s).cnt = 0#8 ∧ (performWhole a false prim s).waiting = false := by
  cases a with
  | poll p t =>
    obtain rfl : t = 0#1 := by simpa [Action.plain] using ha
    obtain ⟨q, e, d, c, -, hp⟩ := pollLoop_spec p 240 s
    simp only [performWhole, poll_eq_loop p hc, hp, endPoll]
    exact ⟨⟨by simp, by simp, by simp, by simp, by simp, by simp, by simp⟩, by simp, by simp, by simp⟩
  | finish => cases ha
  | _ => exact ⟨⟨by simp [performWhole, perform], by simp [performWhole, perform], by simp [performWhole, perform],
      by simp [performWhole, perform], by simp [performWhole, perform], by simp [performWhole, perform],
      by simp [performWhole, perform]⟩, by simp [performWhole, perform], by simp [performWhole, perform, hc],
      by simp [performWhole, perform, hw]⟩

/-- The steps of one action run it whole. -/
theorem action_steps (f : State → Host.Outcome State Fault Refusal) (l : List Action) (prim : Option Primitive)
    (s : State) (hf : ∀ t, SamePlace s t → f t = microStep l prim t) {a : Action} (ha : Action.plain a = true)
    (hl : l[s.act.toNat]? = some a) (hc : s.cnt = 0#8) (hw : s.waiting = false) :
    iterateSteps f (actionSteps a s) s = .next (performWhole a (s.act.toNat + 1 == l.length) prim s) := by
  cases a with
  | poll p t =>
    obtain rfl : t = 0#1 := by simpa [Action.plain] using ha
    have h := poll_steps f (fun t => SamePlace s t ∧ t.act = s.act) p (s.act.toNat + 1 == l.length) prim
      (fun t ht => by rw [hf t ht.1, microStep_of_action (a := .poll p 0#1) (by rw [ht.2]; exact hl), ht.2]; rfl)
      (fun t ht => ⟨ht.1.trans ⟨by simp, by simp, by simp, by simp, by simp, by simp, by simp⟩, by simp [ht.2]⟩)
      (fun t ht => ⟨ht.1.trans ⟨by simp, by simp, by simp, by simp, by simp, by simp, by simp⟩, by simp [ht.2]⟩)
      240 s (by omega) ⟨SamePlace.refl s, rfl⟩ hw (by simp [hc])
    simpa [actionSteps, performWhole, poll_eq_loop p hc] using h
  | finish => cases ha
  | _ =>
    apply iterateSteps_one
    rw [hf s (SamePlace.refl s), microStep_of_action hl]
    rfl

/-- The steps of an action list, from any action on, run the rest of it whole (R100, R131). -/
theorem list_steps (f : State → Host.Outcome State Fault Refusal) (l : List Action) (prim : Option Primitive)
    (hlen : l.length ≤ 4) (s0 : State) (hf : ∀ t, SamePlace s0 t → f t = microStep l prim t) :
    ∀ (rest before : List Action) (s : State), l = before ++ rest → (∀ a ∈ rest, Action.plain a = true) →
      SamePlace s0 s → s.act.toNat = before.length → s.cnt = 0#8 → s.waiting = false →
      iterateSteps f (listSteps prim rest s) s = .next (runActions prim rest s) := by
  intro rest
  induction rest with
  | nil => intro before s _ _ _ _ _ _; rfl
  | cons a rest ih =>
    intro before s hl hplain hs hact hc hw
    have ha : Action.plain a = true := hplain a (by simp)
    have hget : l[s.act.toNat]? = some a := by rw [hact, hl]; simp
    have hlast : (s.act.toNat + 1 == l.length) = rest.isEmpty := by
      rw [hact, hl]; cases rest <;> simp
    have h1 := action_steps f l prim s (fun t ht => hf t (hs.trans ht)) ha hget hc hw
    rw [hlast] at h1
    simp only [listSteps, runActions]
    rw [iterateSteps_add f _ _ h1]
    cases rest with
    | nil => rfl
    | cons b rest =>
      obtain ⟨h2, h3, h4, h5⟩ := performWhole_inner ha prim hc hw
      refine ih (before ++ [a]) _ (by rw [hl]; simp) (fun x hx => hplain x (by simp [hx])) (hs.trans h2) ?_ h4 h5
      have hb : before.length + 1 < 4 := by
        have : l.length = before.length + (rest.length + 1 + 1) := by rw [hl]; simp
        omega
      rw [List.isEmpty_cons, h3, BitVec.toNat_add, hact]
      simp; omega

/-- Every action list has at most four actions (R25, R100). -/
theorem actionsOf_length (i : Instr) (s : State) : (actionsOf i s).length ≤ 4 := by
  cases i <;> simp [actionsOf, endActions, uinitActions, startActions, restartActions, stopActions, ackActions,
    nackActions, idleActions, wrbActions, rdenActions, latchActions]

/-- Every list but END's is of plain actions. -/
theorem actionsOf_plain {i : Instr} (hi : i ≠ .endOp) (s : State) : ∀ a ∈ actionsOf i s, Action.plain a = true := by
  cases i <;> first | exact absurd rfl hi | simp [actionsOf, Action.plain, uinitActions, startActions,
    restartActions, stopActions, ackActions, nackActions, idleActions, wrbActions, rdenActions, latchActions]

/-- The steps a whole micro-operation takes. -/
def microSteps (i : Instr) (s : State) : Nat := listSteps (primitiveOf i s) (actionsOf i s) s

/-- Executing a micro-operation over and over runs it whole. -/
theorem exec_runs_micro {i : Instr} (hi : i.isCommand = false) (he : i ≠ .endOp) {s : State} (hs : AtStart s) :
    iterateSteps (exec i) (microSteps i s) s = .next (runMicro i s) :=
  list_steps (exec i) (actionsOf i s) (primitiveOf i s) (actionsOf_length i s) s
    (fun t ht => by
      rw [exec_micro hi, actionsOf_congr i ht.sel ht.raddr ht.wdata, primitiveOf_congr i ht.sel ht.raddr ht.wdata])
    (actionsOf i s) [] s rfl (actionsOf_plain he s) (SamePlace.refl s) (by simp [hs.1]) hs.2.1 hs.2.2

/-- So does stepping the machine, while HOST waits. -/
theorem step_runs_micro {i : Instr} (he : i ≠ .endOp) {s : State} (hs : AtStart s) (hr : s.run = true)
    (hw : s.hostWaits = true) (hi : currentInstr s = .ok i) :
    runSteps (microSteps i s) s = .next (runMicro i s) :=
  list_steps step (actionsOf i s) (primitiveOf i s) (actionsOf_length i s) s
    (fun t ht => by
      have hw' : t.hostWaits = true := by unfold State.hostWaits at hw ⊢; rw [ht.host]; exact hw
      have hi' : currentInstr t = .ok i := by unfold currentInstr romFetch at hi ⊢; rw [ht.rom, ht.upc]; exact hi
      rw [step_of_run (ht.run.trans hr) hw' hi', exec_micro (decodeMicro_not_command hi),
        actionsOf_congr i ht.sel ht.raddr ht.wdata, primitiveOf_congr i ht.sel ht.raddr ht.wdata])
    (actionsOf i s) [] s rfl (actionsOf_plain he s) (SamePlace.refl s) (by simp [hs.1]) hs.2.1 hs.2.2

/-! What a list with one poll leaves. -/

/-- Several port writes in a row, each an action that is not the last. -/
def afterWrites (ws : List PortWrite) (s : State) : State := ws.foldl (fun t w => advance false none (pifWrite w t)) s

/-- `TO_MAP` and `TO_ANY` after a poll (R92, R152). -/
def toMapAfter (o : PollOutcome) (s : State) : ToMap :=
  match o with
  | .ok _ => s.toMap
  | .timeout => ToMap.set s.toMap s.pidx

def toAnyAfter (o : PollOutcome) (s : State) : Bool :=
  match o with
  | .ok _ => s.toAny
  | .timeout => true

/-- The device's reaction to several writes. -/
def reactAll (ws : List PortWrite) (v : RefDevice) : RefDevice := ws.foldl RefDevice.react v

/-- The state after writes, a poll and writes: the whole effect of a polling micro-operation (R110). -/
structure Polled (prim : Option Primitive) (pre : List PortWrite) (p : StatusPort) (post : List PortWrite)
    (o : PollOutcome) (s t : State) : Prop where
  legal : legalWithin 240 o
  upc : t.upc = s.upc + 1#6
  start : AtStart t
  pidx : t.pidx = s.pidx + 1#4
  toMap : t.toMap = toMapAfter o s
  toAny : t.toAny = toAnyAfter o s
  trace : t.trace = s.trace ++ (pre.map .wr ++ eventsWithin p 240 o ++ post.map .wr)
  prims : t.prims = s.prims ++ prim.toList
  device : envDevice t.env = (envDevice s.env).map (reactAll (pre ++ post))
  sel : t.sel = s.sel
  raddr : t.raddr = s.raddr
  wdata : t.wdata = s.wdata
  result : t.result = s.result
  resultValid : t.resultValid = s.resultValid
  run : t.run = s.run
  done : t.done = s.done
  inited : t.inited = s.inited
  rom : t.rom = s.rom
  host : t.host = s.host
  hostSeen : t.hostSeen = s.hostSeen

theorem map_reactAll_append (x : Option RefDevice) (a b : List PortWrite) :
    (x.map (reactAll a)).map (reactAll b) = x.map (reactAll (a ++ b)) := by
  cases x <;> simp [reactAll]

/-- The first writes of a list. -/
theorem Polled.cons_write {prim : Option Primitive} {w : PortWrite} {pre : List PortWrite} {p : StatusPort}
    {post : List PortWrite} {o : PollOutcome} {s t : State}
    (h : Polled prim pre p post o (advance false prim (pifWrite w s)) t) : Polled prim (w :: pre) p post o s t where
  legal := h.legal
  upc := by rw [h.upc]; simp
  start := h.start
  pidx := by rw [h.pidx]; simp
  toMap := by rw [h.toMap]; cases o <;> simp [toMapAfter]
  toAny := by rw [h.toAny]; cases o <;> simp [toAnyAfter]
  trace := by rw [h.trace]; simp
  prims := by rw [h.prims]; simp
  device := by
    rw [h.device]
    simp only [advance_env, pifWrite_env, envDevice_observe]
    cases envDevice s.env <;> simp [reactAll]
  sel := by rw [h.sel]; simp
  raddr := by rw [h.raddr]; simp
  wdata := by rw [h.wdata]; simp
  result := by rw [h.result]; simp
  resultValid := by rw [h.resultValid]; simp
  run := by rw [h.run]; simp
  done := by rw [h.done]; simp
  inited := by rw [h.inited]; simp
  rom := by rw [h.rom]; simp
  host := by rw [h.host]; simp
  hostSeen := by rw [h.hostSeen]; simp

theorem eventsWithin_budget (p : StatusPort) (o : PollOutcome) : eventsWithin p 240 o = pollEvents p o := by
  cases o <;> rfl

theorem stepsWithin_budget (o : PollOutcome) : stepsWithin 240 o = o.steps := by cases o <;> rfl

theorem legalWithin_budget (o : PollOutcome) : legalWithin 240 o ↔ o.legal = true := by
  cases o with
  | ok n => simp only [PollOutcome.legal, Bool.and_eq_true, decide_eq_true_eq]; rfl
  | timeout => simp [legalWithin, PollOutcome.legal]

/-- A poll that is the last action. -/
theorem polled_last (prim : Option Primitive) (p : StatusPort) {s : State} (hc : s.cnt = 0#8) :
    Polled prim [] p [] (pollOutcome p 240 s) s (runActions prim [.poll p 0#1] s) := by
  obtain ⟨q, e, d, c, he, hp⟩ := pollLoop_spec p 240 s
  simp only [runActions, performWhole, List.isEmpty_nil, poll_eq_loop p hc, hp, endPoll]
  exact
    { legal := pollOutcome_legal p 240 s
      upc := by simp
      start := ⟨by simp, by simp, by simp⟩
      pidx := by simp
      toMap := by cases pollOutcome p 240 s <;> simp [toMapAfter, endOf]
      toAny := by cases pollOutcome p 240 s <;> simp [toAnyAfter, endOf]
      trace := by simp
      prims := by simp
      device := by simp only [advance_env, closePoll_env, he]; cases envDevice s.env <;> simp [reactAll]
      sel := by simp
      raddr := by simp
      wdata := by simp
      result := by simp
      resultValid := by simp
      run := by simp
      done := by simp
      inited := by simp
      rom := by simp
      host := by simp
      hostSeen := by simp }

/-- A poll followed by two writes (RESTART, R103). -/
theorem polled_two (prim : Option Primitive) (p : StatusPort) (a b : PortWrite) {s : State} (hc : s.cnt = 0#8) :
    Polled prim [] p [a, b] (pollOutcome p 240 s) s (runActions prim [.poll p 0#1, .write a, .write b] s) := by
  obtain ⟨q, e, d, c, he, hp⟩ := pollLoop_spec p 240 s
  simp only [runActions, performWhole, List.isEmpty_nil, List.isEmpty_cons, poll_eq_loop p hc, hp, endPoll, perform]
  exact
    { legal := pollOutcome_legal p 240 s
      upc := by simp
      start := ⟨by simp, by simp, by simp⟩
      pidx := by simp
      toMap := by cases pollOutcome p 240 s <;> simp [toMapAfter, endOf]
      toAny := by cases pollOutcome p 240 s <;> simp [toAnyAfter, endOf]
      trace := by simp
      prims := by simp
      device := by
        simp only [advance_env, pifWrite_env, closePoll_env, envDevice_observe, he]
        cases envDevice s.env <;> simp [reactAll]
      sel := by simp
      raddr := by simp
      wdata := by simp
      result := by simp
      resultValid := by simp
      run := by simp
      done := by simp
      inited := by simp
      rom := by simp
      host := by simp
      hostSeen := by simp }

/-- The polling micro-operations, as R110's table has them: the writes before the poll, the port, the writes after. -/
def pollShape (i : Instr) (s : State) : Option (List PortWrite × StatusPort × List PortWrite) :=
  match i with
  | .start => some ([.ackdt 0#1, .reqStart 1#1], .staStart, [])
  | .restart => some ([.reqRestart 1#1], .staRestart, [.ackdt 0#1, .tbf 0#1])
  | .stop => some ([.rcen 0#1, .reqStop 1#1], .staStop, [])
  | .ack => some ([.ackdt 0#1, .reqAck 1#1], .staAck, [])
  | .nack => some ([.ackdt 1#1, .reqAck 1#1], .staAck, [])
  | .idle => some ([], .staTrstat, [])
  | .wrbHi => some ([.txreg (operandHi s)], .tbf, [])
  | .wrbLo => some ([.txreg (operandLo s)], .tbf, [])
  | .wrbD => some ([.txreg (operandD s)], .tbf, [])
  | .wrbA page op => some ([.txreg (operandA page op s)], .tbf, [])
  | .init _ _ _ => none
  | .wrreg _ _ _ => none
  | .rdreg _ _ _ => none
  | .endOp => none
  | .uinit => none
  | .rden => none
  | .latch => none

/-- The whole effect and the exact number of steps of every polling micro-operation. -/
theorem polled_micro {i : Instr} {s : State} {pre : List PortWrite} {p : StatusPort} {post : List PortWrite}
    (hi : pollShape i s = some (pre, p, post)) (hs : AtStart s) :
    ∃ o, Polled (primitiveOf i s) pre p post o s (runMicro i s) ∧
      microSteps i s = pre.length + o.steps + post.length := by
  obtain ⟨-, hc, -⟩ := hs
  have hc1 (w : PortWrite) : (advance false (primitiveOf i s) (pifWrite w s)).cnt = 0#8 := by simp [hc]
  have hc2 (w x : PortWrite) :
      (advance false (primitiveOf i s) (pifWrite x (advance false (primitiveOf i s) (pifWrite w s)))).cnt = 0#8 := by
    simp [hc]
  cases i with
  | start =>
    simp only [pollShape, Option.some.injEq, Prod.mk.injEq] at hi
    obtain ⟨rfl, rfl, rfl⟩ := hi
    exact ⟨_, (polled_last _ _ (hc2 _ _)).cons_write.cons_write, by
      simp [microSteps, listSteps, actionsOf, startActions, actionSteps, stepsWithin_budget, performWhole, perform]
      omega⟩
  | stop =>
    simp only [pollShape, Option.some.injEq, Prod.mk.injEq] at hi
    obtain ⟨rfl, rfl, rfl⟩ := hi
    exact ⟨_, (polled_last _ _ (hc2 _ _)).cons_write.cons_write, by
      simp [microSteps, listSteps, actionsOf, stopActions, actionSteps, stepsWithin_budget, performWhole, perform]
      omega⟩
  | ack =>
    simp only [pollShape, Option.some.injEq, Prod.mk.injEq] at hi
    obtain ⟨rfl, rfl, rfl⟩ := hi
    exact ⟨_, (polled_last _ _ (hc2 _ _)).cons_write.cons_write, by
      simp [microSteps, listSteps, actionsOf, ackActions, actionSteps, stepsWithin_budget, performWhole, perform]
      omega⟩
  | nack =>
    simp only [pollShape, Option.some.injEq, Prod.mk.injEq] at hi
    obtain ⟨rfl, rfl, rfl⟩ := hi
    exact ⟨_, (polled_last _ _ (hc2 _ _)).cons_write.cons_write, by
      simp [microSteps, listSteps, actionsOf, nackActions, actionSteps, stepsWithin_budget, performWhole, perform]
      omega⟩
  | restart =>
    simp only [pollShape, Option.some.injEq, Prod.mk.injEq] at hi
    obtain ⟨rfl, rfl, rfl⟩ := hi
    exact ⟨_, (polled_two _ _ _ _ (hc1 _)).cons_write, by
      simp [microSteps, listSteps, actionsOf, restartActions, actionSteps, stepsWithin_budget, performWhole, perform]
      omega⟩
  | idle =>
    simp only [pollShape, Option.some.injEq, Prod.mk.injEq] at hi
    obtain ⟨rfl, rfl, rfl⟩ := hi
    exact ⟨_, polled_last _ _ hc, by
      simp [microSteps, listSteps, actionsOf, idleActions, actionSteps, stepsWithin_budget]⟩
  | wrbHi =>
    simp only [pollShape, Option.some.injEq, Prod.mk.injEq] at hi
    obtain ⟨rfl, rfl, rfl⟩ := hi
    exact ⟨_, (polled_last _ _ (hc1 _)).cons_write, by
      simp [microSteps, listSteps, actionsOf, wrbActions, actionSteps, stepsWithin_budget, performWhole, perform]⟩
  | wrbLo =>
    simp only [pollShape, Option.some.injEq, Prod.mk.injEq] at hi
    obtain ⟨rfl, rfl, rfl⟩ := hi
    exact ⟨_, (polled_last _ _ (hc1 _)).cons_write, by
      simp [microSteps, listSteps, actionsOf, wrbActions, actionSteps, stepsWithin_budget, performWhole, perform]⟩
  | wrbD =>
    simp only [pollShape, Option.some.injEq, Prod.mk.injEq] at hi
    obtain ⟨rfl, rfl, rfl⟩ := hi
    exact ⟨_, (polled_last _ _ (hc1 _)).cons_write, by
      simp [microSteps, listSteps, actionsOf, wrbActions, actionSteps, stepsWithin_budget, performWhole, perform]⟩
  | wrbA page op =>
    simp only [pollShape, Option.some.injEq, Prod.mk.injEq] at hi
    obtain ⟨rfl, rfl, rfl⟩ := hi
    exact ⟨_, (polled_last _ _ (hc1 _)).cons_write, by
      simp [microSteps, listSteps, actionsOf, wrbActions, actionSteps, stepsWithin_budget, performWhole, perform]⟩
  | _ => simp [pollShape] at hi

/-! The micro-operations without a poll. -/

theorem runMicro_rden (s : State) : runMicro .rden s = advance true (some .readEnable) (pifWrite (.rcen 1#1) s) := rfl

theorem runMicro_latch (s : State) :
    runMicro .latch s = advance true (some .readReceiveRegister) (latchResult s) := rfl

theorem runMicro_uinit (s : State) : runMicro .uinit s = advance true (some .init) (configure s) := rfl

theorem exec_end {s : State} (h : s.act = 0#2) : exec .endOp s = .next s.finish := by
  rw [exec_micro rfl, microStep_of_action (a := .finish) (by simp [actionsOf, endActions, h])]; rfl

end Sys2Proof
end

