-- ==== Sys2Proof/Laws/Frame.lean ====
section
/-! SUPPORT. What an action leaves alone and what it does not read: the device register space, the ports, the timeout
flags, the
history and HOST's inputs. -/

namespace Sys2Proof

open Machine

/-- All that an action cannot change, unless it is the one that does. -/
theorem exec_micro_next {i : Instr} (hi : i.isCommand = false) {s t : State} (h : exec i s = .next t) :
    ∃ a, (actionsOf i s)[s.act.toNat]? = some a ∧
      t = perform a (s.act.toNat + 1 == (actionsOf i s).length) (primitiveOf i s) s := by
  rwa [exec_micro hi, microStep_next_iff] at h

/-- The reference device after an action: only a port write reaches it. -/
theorem envDevice_perform (a : Action) (last : Bool) (prim : Option Primitive) (s : State) :
    envDevice (perform a last prim s).env = (envDevice s.env).map (reactAll a.portWrites) := by
  have hid : (envDevice s.env).map (reactAll []) = envDevice s.env := by cases envDevice s.env <;> rfl
  cases a with
  | poll p t =>
    rw [show Action.portWrites (.poll p t) = [] from rfl, hid]
    rcases pollStep_cases last prim s p t with h | h | h | h <;> simp [perform, h, envDevice_answer]
  | write w => simp [perform, envDevice_observe, Action.portWrites]; cases envDevice s.env <;> rfl
  | config => simp [perform, envDevice_observe, Action.portWrites]; cases envDevice s.env <;> rfl
  | latch => rw [show Action.portWrites .latch = [] from rfl, hid]; simp [perform, envDevice_answerRx]
  | finish => rw [show Action.portWrites .finish = [] from rfl, hid]; simp [perform]

/-- A byte of the device register space, read through `envDevice`. -/
theorem deviceByteAt_eq (s : State) (a : Nat) :
    deviceByteAt s a = (envDevice s.env).map (fun v => Memory.read .device v.mem a) := by
  unfold deviceByteAt envDevice; cases s.env <;> rfl

/-- Where the device stores, read through `envDevice`. -/
theorem deviceStoreAddress_eq (s : State) :
    deviceStoreAddress s = (envDevice s.env).bind (fun v => if v.ds = .dataW then some v.target else none) := by
  unfold deviceStoreAddress envDevice; cases s.env <;> rfl

/-- A write of any port but `TXREG` leaves every byte of the device register space. -/
theorem react_mem {v : RefDevice} {w : PortWrite} (h : ∀ b, w ≠ .txreg b) : (v.react w).mem = v.mem := by
  cases w with
  | txreg b => exact absurd rfl (h b)
  | reqStart x => simp only [RefDevice.react]; split <;> rfl
  | reqRestart x => simp only [RefDevice.react]; split <;> rfl
  | reqStop x => simp only [RefDevice.react]; split <;> rfl
  | rcen x => simp only [RefDevice.react, RefDevice.receive, RefDevice.bumpPtr]; split <;> (try split) <;> rfl
  | _ => rfl

/-- What a write of `TXREG` does to the device register space. -/
theorem byte_mem (v : RefDevice) (b : Byte) :
    (v.react (.txreg b)).mem = if v.ds = .dataW then Memory.write .device v.mem v.target b else v.mem := by
  simp only [RefDevice.react, RefDevice.byte]
  cases h : v.ds <;> simp [RefDevice.address, RefDevice.bumpPtr]
  split <;> rfl

/-- An action that does not write `TXREG` leaves every byte of the device register space. -/
theorem deviceByteAt_perform {a : Action} (h : ∀ w ∈ a.portWrites, ∀ b, w ≠ .txreg b) (last : Bool)
    (prim : Option Primitive) (s : State) (c : Nat) :
    deviceByteAt (perform a last prim s) c = deviceByteAt s c := by
  rw [deviceByteAt_eq, deviceByteAt_eq, envDevice_perform]
  have hm : ∀ v : RefDevice, (reactAll a.portWrites v).mem = v.mem := by
    intro v
    cases a with
    | write w => exact react_mem (h w (by simp [Action.portWrites]))
    | config => rfl
    | _ => rfl
  cases envDevice s.env <;> simp [hm]

/-- The ports after an action. -/
theorem pif_perform (a : Action) (last : Bool) (prim : Option Primitive) (s : State) :
    (perform a last prim s).pif = match a with
      | .write w => s.pif.put w
      | .poll p _ => if s.waiting then s.pif else s.pif.sampled p (statusAnswer p s)
      | .config => s.pif.put (.cfg configRecord)
      | .latch => { s.pif with rxreg := rxAnswer s }
      | .finish => s.pif := by
  cases a with
  | poll p t => rcases pollStep_cases last prim s p t with h | h | h | h <;> simp [perform, h]
  | _ => simp [perform]

/-- `UPC` after an action: the same, or the next address with `ACT = 0`. -/
theorem upc_perform (a : Action) (last : Bool) (prim : Option Primitive) (s : State) :
    (perform a last prim s).upc = s.upc ∨ ((perform a last prim s).upc = s.upc + 1#6 ∧
        (perform a last prim s).act = 0#2 ∧ a ≠ .finish) := by
  cases a with
  | poll p t =>
    rcases pollStep_cases last prim s p t with h | h | h | h <;> simp only [perform, h] <;> cases last <;>
        simp [endDelay, beginDelay, delay, countSample, pifSample]
  | finish => left; simp [perform]
  | _ => cases last <;> simp [perform]

section PollSteps

variable (p : StatusPort) (target : Bit) (last : Bool) (prim : Option Primitive) (s : State)

/-- The delay step after the 240th failed sample (R92). -/
theorem pollStep_timeout (h : s.waiting = true) (hc : s.cnt.toNat = 240) :
    pollStep p target last prim s = advance last prim (closePoll .timeout (endDelay s)) := by
  simp [pollStep, h, delayStep, budgetSpent, hc, endPoll]

/-- A delay step below the budget (R92). -/
theorem pollStep_delay (h : s.waiting = true) (hc : s.cnt.toNat ≠ 240) :
    pollStep p target last prim s = endDelay s := by
  simp [pollStep, h, delayStep, budgetSpent, hc]

/-- A sample that equals the target (R92). -/
theorem pollStep_ok (h : s.waiting = false) (hv : statusAnswer p s = target) :
    pollStep p target last prim s = advance last prim (closePoll .ok (countSample p s)) := by
  simp [pollStep, h, sampleStep, hv, endPoll]

/-- A sample that differs from the target (R92). -/
theorem pollStep_failed (h : s.waiting = false) (hv : statusAnswer p s ≠ target) :
    pollStep p target last prim s = beginDelay (countSample p s) := by
  simp [pollStep, h, sampleStep, hv]

end PollSteps

/-- An action does the same whatever `TO_MAP` and `TO_ANY` hold. -/
theorem perform_flags (a : Action) (last : Bool) (prim : Option Primitive) (s : State) (m : ToMap) (b : Bool) :
    ∃ m' b', perform a last prim { s with toMap := m, toAny := b } =
      { perform a last prim s with toMap := m', toAny := b' } := by
  cases a with
  | poll p t =>
    simp only [perform]
    rcases Bool.eq_false_or_eq_true s.waiting with h1 | h1
    rotate_left
    · by_cases h2 : statusAnswer p s = t
      · rw [pollStep_ok p t last prim s h1 h2,
          pollStep_ok p t last prim { s with toMap := m, toAny := b } h1 h2]; cases last <;> exact ⟨_, _, rfl⟩
      · rw [pollStep_failed p t last prim s h1 h2,
          pollStep_failed p t last prim { s with toMap := m, toAny := b } h1 h2]; exact ⟨_, _, rfl⟩
    · by_cases h2 : s.cnt.toNat = 240
      · rw [pollStep_timeout p t last prim s h1 h2,
          pollStep_timeout p t last prim { s with toMap := m, toAny := b } h1 h2]; cases last <;> exact ⟨_, _, rfl⟩
      · rw [pollStep_delay p t last prim s h1 h2,
          pollStep_delay p t last prim { s with toMap := m, toAny := b } h1 h2]; exact ⟨_, _, rfl⟩
  | finish => exact ⟨_, _, rfl⟩
  | _ => cases last <;> exact ⟨_, _, rfl⟩

/-- An action does the same whatever the ports and the history hold. -/
theorem perform_history (a : Action) (last : Bool) (prim : Option Primitive) (s : State) :
    ∃ evs, (perform a last prim s).trace = s.trace ++ evs ∧ ∀ q tr, ∃ q',
      perform a last prim { s with pif := q, trace := tr } =
        { perform a last prim s with pif := q', trace := tr ++ evs } := by
  cases a with
  | poll p t =>
    simp only [perform]
    rcases Bool.eq_false_or_eq_true s.waiting with h1 | h1
    rotate_left
    · by_cases h2 : statusAnswer p s = t
      · rw [pollStep_ok p t last prim s h1 h2]; refine ⟨[.rd p (statusAnswer p s)], by simp, fun q tr => ?_⟩
        rw [pollStep_ok p t last prim { s with pif := q, trace := tr } h1 h2]; cases last <;> exact ⟨_, rfl⟩
      · rw [pollStep_failed p t last prim s h1 h2]; refine ⟨[.rd p (statusAnswer p s)], by simp, fun q tr => ?_⟩
        rw [pollStep_failed p t last prim { s with pif := q, trace := tr } h1 h2]; exact ⟨_, rfl⟩
    · by_cases h2 : s.cnt.toNat = 240
      · rw [pollStep_timeout p t last prim s h1 h2]; refine ⟨[.tick], by simp, fun q tr => ?_⟩
        rw [pollStep_timeout p t last prim { s with pif := q, trace := tr } h1 h2]; cases last <;> exact ⟨_, rfl⟩
      · rw [pollStep_delay p t last prim s h1 h2]; refine ⟨[.tick], by simp, fun q tr => ?_⟩
        rw [pollStep_delay p t last prim { s with pif := q, trace := tr } h1 h2]; exact ⟨_, rfl⟩
  | finish => exact ⟨[], by simp [perform], fun q tr => ⟨q, by simp [perform, State.finish]⟩⟩
  | write w => refine ⟨[.wr w], by simp [perform], fun q tr => ?_⟩; cases last <;> exact ⟨_, rfl⟩
  | config => refine ⟨[.wr (.cfg configRecord)], by simp [perform], fun q tr => ?_⟩; cases last <;> exact ⟨_, rfl⟩
  | latch => refine ⟨[.rdRx (rxAnswer s)], by simp [perform], fun q tr => ?_⟩; cases last <;> exact ⟨_, rfl⟩

/-- An action does the same whatever HOST has pending. -/
theorem perform_host_irrelevant (a : Action) (last : Bool) (prim : Option Primitive) (s : State)
    (hs : List HostInput) :
    perform a last prim { s with host := hs } = { perform a last prim s with host := hs } := by
  cases a with
  | poll p t =>
    simp only [perform]
    rcases Bool.eq_false_or_eq_true s.waiting with h1 | h1
    rotate_left
    · by_cases h2 : statusAnswer p s = t
      · rw [pollStep_ok p t last prim s h1 h2, pollStep_ok p t last prim { s with host := hs } h1 h2]
        cases last <;> rfl
      · rw [pollStep_failed p t last prim s h1 h2, pollStep_failed p t last prim { s with host := hs } h1 h2]; rfl
    · by_cases h2 : s.cnt.toNat = 240
      · rw [pollStep_timeout p t last prim s h1 h2,
          pollStep_timeout p t last prim { s with host := hs } h1 h2]
        cases last <;> rfl
      · rw [pollStep_delay p t last prim s h1 h2, pollStep_delay p t last prim { s with host := hs } h1 h2]; rfl
  | finish => rfl
  | _ => cases last <;> rfl

/-- The actions of a micro-operation make only the accesses the port tables allow it. -/
theorem access_ok {i : Instr} {s : State} {a : Action} (ha : a ∈ actionsOf i s) :
    (∀ w ∈ a.portWrites, accessLegal i (.wr w) = true) ∧
    (∀ p tgt, a = .poll p tgt → ∀ v, accessLegal i (.rd p v) = true ∧ accessLegal i .tick = true) ∧
    (a = .latch → ∀ b, accessLegal i (.rdRx b) = true) := by
  cases i <;>
    simp [actionsOf, uinitActions, startActions, restartActions, stopActions, idleActions, rdenActions, latchActions,
      endActions, ackActions, nackActions, wrbActions] at ha <;>
    (try rcases ha with rfl | rfl | rfl | rfl) <;>
    simp_all [Action.portWrites, accessLegal, isWrb]

/-- A micro-operation whose action at a place is a port write and not its last action. -/
theorem writes_at {i : Instr} (hi : i.isCommand = false) {n : BitVec 2} {w : State → PortWrite}
    (h : ∀ s, (actionsOf i s)[n.toNat]? = some (.write (w s)))
    (hl : ∀ s, n.toNat + 1 ≠ (actionsOf i s).length) : WritesAt i n w := by
  intro s hs
  rw [exec_micro hi, microStep_of_action (a := .write (w s)) (by rw [hs]; exact h s), perform, advance,
      if_neg (by simp [hs, hl s])]
  rw [← hs]; rfl

/-- A micro-operation whose action at a place is a poll. -/
theorem polls_at {i : Instr} (hi : i.isCommand = false) {n : BitVec 2} {p : StatusPort} {last : Bool} {prim : State →
    Primitive}
    (h : ∀ s, (actionsOf i s)[n.toNat]? = some (.poll p 0#1))
    (hl : ∀ s, (n.toNat + 1 == (actionsOf i s).length) = last) (hp : ∀ s,
        primitiveOf i s = some (prim s)) : PollsAt i n p last prim := by
  intro s hs
  rw [exec_micro hi, microStep_of_action (a := .poll p 0#1) (by rw [hs]; exact h s), perform, hs, hl, hp]

/-- The whole run of a polling micro-operation, from its shape. -/
theorem runs_poll {i : Instr} (hi : i.isCommand = false) {pre : State →
    List PortWrite} {p : StatusPort} {post : List PortWrite} {prim : State → Primitive}
    (h : ∀ s, pollShape i s = some (pre s, p, post)) (hp : ∀ s,
        primitiveOf i s = some (prim s)) : RunsPoll i pre p post prim := by
  intro s hs
  have he : i ≠ .endOp := by rintro rfl; cases h s
  obtain ⟨o, h1, h2⟩ := polled_micro (h s) hs
  refine ⟨o, runMicro i s, (legalWithin_budget o).1 h1.legal, ?_, ?_, ?_, h1.upc, h1.start, h1.pidx, ?_, ?_, ?_⟩
  · rw [← h2]; exact exec_runs_micro hi he hs
  · rw [h1.trace, eventsWithin_budget]
  · rw [h1.prims, hp]; rfl
  · rw [h1.toMap]; cases o <;> rfl
  · rw [h1.toAny]; cases o <;> rfl
  · exact ⟨h1.sel, h1.raddr, h1.wdata, h1.result, h1.resultValid, h1.run, h1.done, h1.inited, h1.rom, h1.host,
        h1.hostSeen⟩

/-- A bit and its complement differ. -/
theorem bit_not {v : Bit} : ~~~v ≠ v := by revert v; decide

/-- So many failed samples, each with the delay after it, below the budget (R92). -/
theorem fail_steps (p : StatusPort) (target : Bit) (last : Bool) (prim : Option Primitive) (more : List Bit)
   (rx : List Byte) : ∀ (k : Nat) (s : State), s.waiting = false → s.cnt.toNat + k < 240 →
    s.env = .script (List.replicate k (~~~target) ++ more) rx →
    ∃ u : State, (pollStep p target last prim)^[2 * k] s = u ∧ u.waiting = false ∧ u.cnt.toNat = s.cnt.toNat + k ∧
      u.env = .script more rx ∧ u.trace = s.trace ++ (List.replicate k [Event.rd p (~~~target), .tick]).flatten ∧
      u.pidx = s.pidx ∧ u.toMap = s.toMap ∧ u.toAny = s.toAny := by
  intro k
  induction k with
  | zero => intro s hw hc he; exact ⟨s, rfl, hw, rfl, he, by simp, rfl, rfl, rfl⟩
  | succ k ih =>
    intro s hw hc he
    have hv : statusAnswer p s = ~~~target := by simp [statusAnswer, he, Env.answer, List.replicate_succ]
    have h1 : pollStep p target last prim s = beginDelay (countSample p s) := by
      simp [pollStep, hw, sampleStep, hv]
    have hcnt : (s.cnt + 1#8).toNat = s.cnt.toNat + 1 := by
      rw [BitVec.toNat_add]; simp; omega
    have h2 : pollStep p target last prim (beginDelay (countSample p s)) = endDelay (beginDelay
        (countSample p s)) := by
      have : ¬ (s.cnt + 1#8).toNat = 240 := by omega
      rw [pollStep, if_pos (by rfl), delayStep, if_neg]
      simp only [budgetSpent, beq_iff_eq]; exact this
    have hcnt' : (endDelay (beginDelay (countSample p s))).cnt.toNat = s.cnt.toNat + 1 := hcnt
    obtain ⟨u, hu, h3, h4, h5, h6, h7, h8, h9⟩ := ih (endDelay (beginDelay (countSample p s))) rfl (by omega) (by
      simp [endDelay, delay, beginDelay, countSample, pifSample, he, Env.answer, List.replicate_succ])
    refine ⟨u, ?_, h3, by omega, h5, ?_, h7, h8, h9⟩
    · rw [show 2 * (k + 1) = (2 * k + 1) + 1 from by omega, Function.iterate_succ_apply, Function.iterate_succ_apply,
          h1, h2, hu]
    · rw [h6]; simp [endDelay, delay, beginDelay, countSample, pifSample, hv, List.replicate_succ]

end Sys2Proof
end

