-- ==== Sys2Proof/Laws/Invariant.lean ====
section
/-! SUPPORT. The place of the sequencer in the ROM: what completing an action does to the invariant of CORE, and the
budget of
steps from a place to END. -/

namespace Sys2Proof

open Machine

/-- Which actions of a micro-operation are polls. -/
def pollFlags (i : Instr) : List Bool := (actionsOf i State.reset).map Action.isPoll

/-- Which actions are polls does not depend on the operands. -/
theorem map_isPoll (i : Instr) (s : State) : (actionsOf i s).map Action.isPoll = pollFlags i := by cases i <;> rfl

/-- Nor does the number of actions. -/
theorem length_flags (i : Instr) (s : State) : (actionsOf i s).length = (pollFlags i).length := by
  rw [← map_isPoll i s, List.length_map]

/-- `pollsAmong`, read through `pollFlags`. -/
theorem pollsAmong_flags (i : Instr) (s : State) (n : Nat) : pollsAmong (actionsOf i s) n =
    ((pollFlags i).take n).count true := by
  rw [← map_isPoll i s, pollsAmong, ← List.map_take, List.count, List.countP_map]
  congr 1; funext a; cases a <;> rfl

/-- What the ROM's contents say of a reachable address. -/
def addressOk (u : Nat) : Bool :=
  match decodeMicro (romImage u) with
  | .error _ => false
  | .ok i =>
    !(pollFlags i).isEmpty &&
    (pollsBefore u + (pollFlags i).count true ≤ 12) && (decide (i = .uinit) == decide (u = 32)) &&
    (decide (i = .endOp) || (reachableAddress (u + 1) && decide (u + 1 < 64) && decide (u + 1 ≠ 32) &&
      pollsBefore (u + 1) == pollsBefore u + (pollFlags i).count true))

/-- The ROM's contents pass the check at every reachable address. -/
theorem addresses_ok : ∀ u < 64, reachableAddress u = true → addressOk u = true := by decide

/-- What the ROM says of a reachable address and the micro-operation it holds. -/
structure AddressFacts (u : Upc) (i : Instr) : Prop where
  nonempty : 0 < (pollFlags i).length
  polls : pollsBefore u.toNat + (pollFlags i).count true ≤ 12
  uinit : i = .uinit ↔ u = 32#6
  next : i ≠ .endOp → reachableAddress (u + 1#6).toNat = true ∧ u + 1#6 ≠ 32#6 ∧
    pollsBefore (u + 1#6).toNat = pollsBefore u.toNat + (pollFlags i).count true

/-- `addressOk`, as facts. -/
theorem address_facts {u : Upc} {i : Instr} (hu : reachableAddress u.toNat = true)
    (hi : decodeMicro (romImage u.toNat) = .ok i) : AddressFacts u i := by
  have h := addresses_ok _ u.isLt hu
  simp only [addressOk, hi, Bool.and_eq_true, Bool.or_eq_true, decide_eq_true_eq, beq_iff_eq, decide_eq_decide] at h
  obtain ⟨⟨⟨h1, h2⟩, h3⟩, h4⟩ := h
  refine ⟨?_, h2, ?_, ?_⟩
  · cases hp : pollFlags i <;> simp_all
  · rw [h3]; exact ⟨fun h => BitVec.eq_of_toNat_eq h, fun h => by rw [h]; rfl⟩
  · intro he
    rcases h4 with h4 | ⟨⟨⟨h4, h5⟩, h6⟩, h7⟩
    · exact absurd h4 he
    have hn : (u + 1#6).toNat = u.toNat + 1 := by
      rw [BitVec.toNat_add]; simp; omega
    rw [hn]
    exact ⟨h4, fun h => h6 (by rw [← hn, h]; rfl), h7⟩

/-- The fetch from an intact ROM. -/
theorem currentInstr_rom {s : State} (h : RomIntact s) : currentInstr s = decodeMicro (romImage s.upc.toNat) := by
  unfold currentInstr romFetch; rw [h]; rfl

/-- A reachable address holds a legal word. -/
theorem reachable_decodes {u : Upc} (hu : reachableAddress u.toNat = true) : ∃ i,
    decodeMicro (romImage u.toNat) = .ok i := by
  have h := addresses_ok _ u.isLt hu
  unfold addressOk at h
  cases hd : decodeMicro (romImage u.toNat) with
  | ok i => exact ⟨i, rfl⟩
  | error e => rw [hd] at h; cases h

/-- A state about to begin a micro-operation at a reachable address. -/
theorem sequencerOk_start {s : State} (hrom : RomIntact s) (hu : reachableAddress s.upc.toNat = true) (hs : AtStart s)
    (hp : s.pidx.toNat = pollsBefore s.upc.toNat) : SequencerOk s := by
  obtain ⟨i, hi⟩ := reachable_decodes hu
  have hf := (address_facts hu hi).nonempty
  rw [← length_flags i s] at hf
  refine ⟨hu, i, (currentInstr_rom hrom).trans hi, (actionsOf i s)[0],
      by rw [hs.1]; exact List.getElem?_eq_getElem hf, ?_, ?_⟩
  · unfold CountersOk
    rw [hs.2.1, hs.2.2]
    split
    · simp
    · simp
  · rw [hp, hs.1]; simp [pollsAmong]

/-- Recording poll `p` keeps `TO_MAP` below bit `p + 1`. -/
theorem toMap_lt {m : ToMap} {p : BitVec 4} (hp : p.toNat < 12) (hm : m.toNat < 2 ^ p.toNat) :
    (ToMap.set m p).toNat < 2 ^ (p + 1#4).toNat := by
  have hn : (p + 1#4).toNat = p.toNat + 1 := by rw [BitVec.toNat_add]; simp; omega
  rw [hn, ToMap.set, BitVec.toNat_or, BitVec.toNat_twoPow]
  apply Nat.or_lt_two_pow
  · exact lt_trans hm (Nat.pow_lt_pow_right (by omega) (by omega))
  · exact lt_of_le_of_lt (Nat.mod_le _ _) (Nat.pow_lt_pow_right (by omega) (by omega))

/-- After a timeout `TO_MAP` is not 0. -/
theorem toMap_any (m : ToMap) (p : BitVec 4) (hp : p.toNat < 12) : ToMap.any (ToMap.set m p) = true := by
  simp only [ToMap.any, ToMap.set, bne_iff_ne, ne_eq]
  intro h
  have := congrArg (fun v : BitVec 12 => v.getLsbD p.toNat) h
  simp [hp] at this

/-- A prefix has no more polls than the whole. -/
theorem counts_take (l : List Bool) (n : Nat) : (l.take n).count true ≤ l.count true :=
  List.Sublist.count_le _ (List.take_sublist n l)

/-- An action that completes: the next action of the micro-operation, or the next micro-operation. -/
theorem inv_advance {s v : State} {i : Instr} {a : Action} (h : CoreInv s) (hr : s.run = true)
    (hi : currentInstr s = .ok i) (ha : (actionsOf i s)[s.act.toNat]? = some a) (hfin : i ≠ .endOp)
    (hp : s.pidx.toNat = pollsBefore s.upc.toNat + pollsAmong (actionsOf i s) s.act.toNat)
    (hu : reachableAddress s.upc.toNat = true)
    (h1 : v.rom = s.rom) (h2 : v.upc = s.upc) (h3 : v.act = s.act) (h4 : v.cnt = 0#8) (h5 : v.waiting = false)
    (h6 : v.pidx = s.pidx + (if a.isPoll then 1#4 else 0#4)) (h7 : v.done = s.done)
    (h8 : v.inited = (decide (a = .config) || s.inited))
    (h9 : v.toMap.toNat < 2 ^ v.pidx.toNat) (h10 : v.toAny = ToMap.any v.toMap)
    (h12 : v.sel = s.sel) (h13 : v.raddr = s.raddr) (h14 : v.wdata = s.wdata) (prim : Option Primitive)
    (hcfg : a = .config ↔ i = .uinit) :
    CoreInv (advance (s.act.toNat + 1 == (actionsOf i s).length) prim v) := by
  have hrom : RomIntact v := h1.trans h.rom
  have hi' : decodeMicro (romImage s.upc.toNat) = .ok i := (currentInstr_rom h.rom).symm.trans hi
  have hf := address_facts hu hi'
  have hact := (List.getElem?_eq_some_iff.1 ha).1
  have hpn : v.pidx.toNat = pollsBefore s.upc.toNat + pollsAmong (actionsOf i s) (s.act.toNat + 1) ∧
      v.pidx.toNat ≤ 12 := by
    have hstep : pollsAmong (actionsOf i s) (s.act.toNat + 1) = pollsAmong (actionsOf i s) s.act.toNat +
        (if a.isPoll then 1 else 0) := by
      unfold pollsAmong
      rw [List.take_add_one, ha]
      simp [List.countP_append, List.countP_cons]
    have hle : pollsAmong (actionsOf i s) (s.act.toNat + 1) ≤ (pollFlags i).count true := by
      rw [pollsAmong_flags]; exact counts_take _ _
    have := hf.polls
    rw [h6]
    cases hap : a.isPoll <;> simp only [hap, if_true] at hstep ⊢ <;> simp at hstep ⊢ <;>
        omega
  have hinit : s.inited = decide (s.upc ≠ entryInit) := h.inited hr
  cases hlast : (s.act.toNat + 1 == (actionsOf i s).length)
  · have hlt : s.act.toNat + 1 < (actionsOf i s).length := by simp at hlast; omega
    have hlen := actionsOf_length i s
    refine ⟨by simpa [RomIntact] using hrom, fun _ => ⟨by simpa [h2] using hu, i, ?_, ?_⟩, ?_, ?_, ?_, ?_, ?_⟩
    · rw [currentInstr_rom (by simpa [RomIntact] using hrom)]; simpa [h2] using hi'
    · have hc : actionsOf i (advance false prim v) = actionsOf i s :=
        actionsOf_congr i (by simpa using h12) (by simpa using h13) (by simpa using h14)
      have hn : (advance false prim v).act.toNat = s.act.toNat + 1 := by
        rw [advance_inner_act, h3, BitVec.toNat_add]; simp; omega
      rw [hc, hn]
      refine ⟨_, List.getElem?_eq_getElem hlt, ?_, ?_⟩
      · unfold CountersOk
        simp only [advance_cnt, advance_waiting, h4, h5]
        split <;> simp
      · simpa [h2] using hpn.1
    · intro _; simpa [h7] using h.done hr
    · intro _
      rw [advance_inited, advance_inner_upc, h8, h2, hinit]
      have hne : a ≠ .config := by
        intro hc
        rw [hcfg] at hc
        rw [hc] at hlt
        simp [actionsOf, uinitActions] at hlt
      simp [hne]
    · simpa using hpn.2
    · simpa using h9
    · simpa using h10
  · have hlast' : s.act.toNat + 1 = (actionsOf i s).length := by simpa using hlast
    obtain ⟨n1, n2, n3⟩ := hf.next hfin
    refine ⟨by simpa [RomIntact] using hrom,
        fun _ => sequencerOk_start (by simpa [RomIntact] using hrom) (by simpa [h2] using n1) ⟨by simp,
            by simpa using h4, by simpa using h5⟩ ?_, ?_, ?_, ?_, ?_, ?_⟩
    · rw [advance_pidx, advance_last_upc, h2, n3, hpn.1, hlast', pollsAmong_flags, length_flags, List.take_length]
    · intro _; simpa [h7] using h.done hr
    · intro _
      rw [advance_inited, advance_last_upc, h8, h2, hinit, Bool.eq_iff_iff]
      simp only [Bool.or_eq_true, decide_eq_true_eq]
      refine ⟨fun _ => n2, fun _ => ?_⟩
      by_cases hx : i = .uinit
      · exact .inl (hcfg.2 hx)
      · exact .inr (fun he => hx (hf.uinit.2 he))
    · simpa using hpn.2
    · simpa using h9
    · simpa using h10

/-- Action `C` is UINIT's and the last step END's. -/
theorem action_kinds {i : Instr} {s : State} {a : Action} {n : Nat} (ha : (actionsOf i s)[n]? = some a) :
    (a = .config ↔ i = .uinit) ∧ (a = .finish ↔ i = .endOp) := by
  have hm := List.mem_of_getElem? ha
  clear ha
  cases i <;>
    simp [actionsOf, uinitActions, startActions, restartActions, stopActions, idleActions, rdenActions, latchActions,
      endActions, ackActions, nackActions, wrbActions] at hm <;>
    (try rcases hm with rfl | rfl | rfl | rfl) <;>
    simp_all

/-- `memoriesOk`, read through `envDevice`. -/
theorem memoriesOk_eq (s : State) :
    memoriesOk s =
      (Memory.wf .rom s.rom && ((envDevice s.env).map (fun v => Memory.wf .device v.mem)).getD true) := by
  unfold memoriesOk envDevice; cases s.env <;> rfl

/-- Under the invariant a running CORE has its step. -/
theorem core_next {s : State} (h : CoreInv s) (hr : s.run = true) : ∃ t, coreStep s = .next t := by
  obtain ⟨hu, i, hi, a, ha, -, -⟩ := h.sequencer hr
  refine ⟨perform a (s.act.toNat + 1 == (actionsOf i s).length) (primitiveOf i s) s, ?_⟩
  · simp only [coreStep, hr, if_true]
    rw [show decodeMicro (romFetch s) = .ok i from hi]
    show exec i s = _
    rw [exec_micro (decodeMicro_not_command hi), microStep_of_action ha]

/-- The most steps an action takes. -/
def flagMax (b : Bool) : Nat := if b then 480 else 1

/-- The most steps of a list of actions. -/
def flagsMax (l : List Bool) : Nat := (l.map flagMax).sum

/-- The most steps from an address to END. -/
def budgetFrom : Nat → Nat → Nat
  | 0, _ => 0
  | f + 1, u =>
    match decodeMicro (romImage u) with
    | .ok i => flagsMax (pollFlags i) + (if i = .endOp then 0 else budgetFrom f (u + 1))
    | .error _ => 0

/-- The budget of an address is its own micro-operation's and the next address's. -/
def budgetOk (u : Nat) : Bool :=
  budgetFrom 20 u ≤ 5776 &&
  match decodeMicro (romImage u) with
  | .ok i => budgetFrom 20 u == flagsMax (pollFlags i) + (if i = .endOp then 0 else budgetFrom 20 (u + 1))
  | .error _ => false

/-- The budgets of the reachable addresses, at most 5776. -/
theorem budgets_ok : ∀ u < 64, reachableAddress u = true → budgetOk u = true := by decide +kernel

/-- How far into its poll the machine is. -/
def progress (s : State) : Nat := 2 * s.cnt.toNat - (if s.waiting then 1 else 0)

/-- One action more. -/
theorem flagsMax_take (l : List Bool) (n : Nat) (b : Bool) (h : l[n]? = some b) :
    flagsMax (l.take (n + 1)) = flagsMax (l.take n) + flagMax b := by
  rw [List.take_add_one, h]; simp [flagsMax]

/-- A prefix takes no more than the whole. -/
theorem flagsMax_le (l : List Bool) (n : Nat) : flagsMax (l.take n) ≤ flagsMax l := by
  have := congrArg flagsMax (List.take_append_drop n l)
  unfold flagsMax at *
  rw [List.map_append, List.sum_append] at this
  omega

/-- The place of a running machine under the invariant: its action, and how far into it the machine is. -/
theorem place {s : State} (h : CoreInv s) (hr : s.run = true) : ∃ i a, currentInstr s = .ok i ∧
    (actionsOf i s)[s.act.toNat]? = some a ∧ progress s < flagMax a.isPoll ∧
    flagsMax ((pollFlags i).take (s.act.toNat + 1)) = flagsMax ((pollFlags i).take s.act.toNat) + flagMax a.isPoll ∧
    flagsMax ((pollFlags i).take (s.act.toNat + 1)) ≤ flagsMax (pollFlags i) ∧
    budgetFrom 20 s.upc.toNat = flagsMax (pollFlags i) + (if i = .endOp then 0 else budgetFrom 20 (s.upc.toNat + 1)) ∧
    budgetFrom 20 s.upc.toNat ≤ 5776 ∧ reachableAddress s.upc.toNat = true ∧ CountersOk s a.isPoll := by
  obtain ⟨hu, i, hi, a, ha, hcnt, -⟩ := h.sequencer hr
  have hi' : decodeMicro (romImage s.upc.toNat) = .ok i := (currentInstr_rom h.rom).symm.trans hi
  have hbk := budgets_ok _ s.upc.isLt hu
  simp only [budgetOk, hi', Bool.and_eq_true, beq_iff_eq, decide_eq_true_eq] at hbk
  have hflag : (pollFlags i)[s.act.toNat]? = some a.isPoll := by rw [← map_isPoll i s, List.getElem?_map, ha]; rfl
  refine ⟨i, a, hi, ha, ?_, flagsMax_take _ _ _ hflag, flagsMax_le _ _, hbk.2, hbk.1, hu, hcnt⟩
  unfold progress
  cases hp : a.isPoll <;> rw [hp] at hcnt <;> simp only [CountersOk, flagMax, if_true] at hcnt ⊢
  · simp at hcnt; simp [hcnt]
  · cases hw : s.waiting <;> simp [hw] at hcnt ⊢ <;> omega

/-- What one step of an action does to the place. -/
theorem perform_progress (a : Action) (last : Bool) (prim : Option Primitive) (s : State) (hf : a ≠ .finish)
    (hc : CountersOk s a.isPoll) :
    ((perform a last prim s).upc = s.upc ∧ (perform a last prim s).act = s.act ∧
      progress (perform a last prim s) = progress s + 1) ∨
    (last = false ∧ (perform a last prim s).upc = s.upc ∧ (perform a last prim s).act = s.act + 1#2) ∨
    (last = true ∧ (perform a last prim s).upc = s.upc + 1#6 ∧ (perform a last prim s).act = 0#2) := by
  cases a with
  | finish => exact absurd rfl hf
  | poll p tgt =>
    have hcp : CountersOk s true := hc
    rcases pollStep_cases last prim s p tgt with hh | hh | hh | hh
    · right; rw [show perform (.poll p tgt) _ _ s = _ from hh.2.2]; cases last <;> simp
    · left; rw [show perform (.poll p tgt) _ _ s = _ from hh.2.2]
      refine ⟨rfl, rfl, ?_⟩
      have hc2 : 1 ≤ s.cnt.toNat ∧ s.cnt.toNat ≤ 240 := by
        simpa [CountersOk, hh.1, Config.params] using hcp
      simp only [progress, hh.1, endDelay, delay, if_true]; simp; omega
    · right; rw [show perform (.poll p tgt) _ _ s = _ from hh.2.2]; cases last <;> simp
    · left; rw [show perform (.poll p tgt) _ _ s = _ from hh.2.2]
      refine ⟨rfl, rfl, ?_⟩
      have hc2 : s.cnt.toNat < 240 := by
        simpa [CountersOk, hh.1, Config.params] using hcp
      have : (s.cnt + 1#8).toNat = s.cnt.toNat + 1 := by rw [BitVec.toNat_add]; simp; omega
      simp only [progress, hh.1, beginDelay, countSample, if_true, this]; simp; omega
  | _ => right; cases last <;> simp [perform]

end Sys2Proof
end

