-- ==== Sys2Proof/Laws/PerInstr.lean ====
section
/-! SUPPORT. Family TableWord: the word of every instruction has the fixed bits of its row of spec/opcode_table.json,
`word & mask = match`. -/

namespace Sys2Proof.Laws.TableWord

/-- `match` and `mask` of a row of format H, or of a row of format U (R75, R78). -/
def row : Instr → Code × Code
  | .init _ _ _ => (.host 0x10000000#32, .host 0xF3000000#32)
  | .wrreg _ _ _ => (.host 0x20000000#32, .host 0xF3000000#32)
  | .rdreg _ _ _ => (.host 0x30000000#32, .host 0xF3000000#32)
  | .endOp => (.micro 0x00#8, .micro 0xFF#8)
  | .uinit => (.micro 0x10#8, .micro 0xFF#8)
  | .start => (.micro 0x20#8, .micro 0xFF#8)
  | .restart => (.micro 0x30#8, .micro 0xFF#8)
  | .stop => (.micro 0x40#8, .micro 0xFF#8)
  | .ack => (.micro 0x50#8, .micro 0xFF#8)
  | .nack => (.micro 0x60#8, .micro 0xFF#8)
  | .idle => (.micro 0x70#8, .micro 0xFF#8)
  | .wrbHi => (.micro 0x80#8, .micro 0xFF#8)
  | .wrbLo => (.micro 0x81#8, .micro 0xFF#8)
  | .wrbD => (.micro 0x82#8, .micro 0xFF#8)
  | .wrbA _ _ => (.micro 0x88#8, .micro 0xFC#8)
  | .rden => (.micro 0x90#8, .micro 0xFF#8)
  | .latch => (.micro 0xA0#8, .micro 0xFF#8)

/-- A word against a row: same format, and the fixed bits agree. -/
def fits : Code → Code × Code → Prop
  | .host w, (.host m, .host k) => w &&& k = m
  | .micro w, (.micro m, .micro k) => w &&& k = m
  | .host _, _ => False
  | .micro _, _ => False

/-- The family's statement. -/
def Statement (i : Instr) : Prop := fits (encode i) (row i)

theorem init (sel : Sel) (raddr : Addr16) (data : Byte) : Statement (.init sel raddr data) := by
  simp only [Statement, fits, encode, row]
  ext i hi
  rw [BitVec.getElem_and, ← BitVec.getLsbD_eq_getElem, getLsbD_commandWord]
  interval_cases i <;> simp

theorem wrreg (sel : Sel) (raddr : Addr16) (data : Byte) : Statement (.wrreg sel raddr data) := by
  simp only [Statement, fits, encode, row]
  ext i hi
  rw [BitVec.getElem_and, ← BitVec.getLsbD_eq_getElem, getLsbD_commandWord]
  interval_cases i <;> simp

theorem rdreg (sel : Sel) (raddr : Addr16) (data : Byte) : Statement (.rdreg sel raddr data) := by
  simp only [Statement, fits, encode, row]
  ext i hi
  rw [BitVec.getElem_and, ← BitVec.getLsbD_eq_getElem, getLsbD_commandWord]
  interval_cases i <;> simp

theorem endOp : Statement .endOp := rfl

theorem uinit : Statement .uinit := rfl

theorem start : Statement .start := rfl

theorem restart : Statement .restart := rfl

theorem stop : Statement .stop := rfl

theorem ack : Statement .ack := rfl

theorem nack : Statement .nack := rfl

theorem idle : Statement .idle := rfl

theorem wrbHi : Statement .wrbHi := rfl

theorem wrbLo : Statement .wrbLo := rfl

theorem wrbD : Statement .wrbD := rfl

theorem wrbA (page op : Bit) : Statement (.wrbA page op) := by
  revert page op; simp only [Statement, fits, encode, row]; decide

theorem rden : Statement .rden := rfl

theorem latch : Statement .latch := rfl

end Sys2Proof.Laws.TableWord
end

