-- ==== Sys2Proof/Laws/Runs.lean ====
section
/-! SUPPORT. Whole routines: micro-operations the ROM holds in a row, run one after the other, with their traces. -/

namespace Sys2Proof

open Machine

/-- How many polls a list of entries has. -/
def pollItems (items : List SignalItem) : Nat := items.countP (fun x => match x with | .p _ => true | .w _ => false)

/-- A trace is split where its entries are. -/
theorem fillPolls_append (a b : List SignalItem) : ∀ (os os' : List PollOutcome), pollItems a = os.length →
    fillPolls (a ++ b) (os ++ os') = fillPolls a os ++ fillPolls b os' := by
  induction a with
  | nil => intro os os' h; cases os with
    | nil => rfl
    | cons o os => simp [pollItems] at h
  | cons x a ih =>
    intro os os' h
    cases x with
    | w x =>
      have h' : pollItems a = os.length := by simpa [pollItems] using h
      simp [fillPolls, ih os os' h']
    | p port =>
      cases os with
      | nil => simp [pollItems] at h
      | cons o os =>
        have h' : pollItems a = os.length := by simpa [pollItems] using h
        simp [fillPolls, ih os os' h']

/-- Entries that are all writes. -/
theorem fillPolls_writes (ws : List PortWrite) (os : List PollOutcome) : fillPolls (ws.map .w) os = ws.map .wr := by
  induction ws with
  | nil => rfl
  | cons w ws ih => simp [fillPolls, ih]

/-- The recorded timeouts of two runs of polls. -/
theorem timeoutBits_append (os os' : List PollOutcome) : ∀ k,
    timeoutBits k (os ++ os') = timeoutBits k os ||| timeoutBits (k + os.length) os' := by
  induction os with
  | nil => intro k; simp [timeoutBits]
  | cons o os ih =>
    intro k
    cases o <;> simp only [List.cons_append, timeoutBits, ih, List.length_cons, ToMap.set]
    · rw [show k + (os.length + 1) = k + 1 + os.length by omega]
    · rw [show k + (os.length + 1) = k + 1 + os.length by omega, BitVec.or_assoc, BitVec.or_comm (timeoutBits _ os'),
          ← BitVec.or_assoc]

/-- Only the four bits of `PIDX` matter. -/
theorem timeoutBits_congr (os : List PollOutcome) : ∀ k k', BitVec.ofNat 4 k = BitVec.ofNat 4 k' →
    timeoutBits k os = timeoutBits k' os := by
  induction os with
  | nil => intro k k' h; rfl
  | cons o os ih =>
    intro k k' h
    have h' : BitVec.ofNat 4 (k + 1) = BitVec.ofNat 4 (k' + 1) := by
      rw [BitVec.ofNat_add, BitVec.ofNat_add, h]
    cases o <;> simp only [timeoutBits, ih _ _ h', h]

/-- The writes among the entries. -/
def itemWrites : List SignalItem → List PortWrite
  | [] => []
  | .w x :: items => x :: itemWrites items
  | .p _ :: items => itemWrites items

/-- The writes of two lists of entries. -/
theorem itemWrites_append (a b : List SignalItem) : itemWrites (a ++ b) = itemWrites a ++ itemWrites b := by
  induction a with
  | nil => rfl
  | cons x a ih => cases x <;> simp [itemWrites, ih]

/-- The writes of entries that are all writes. -/
theorem itemWrites_map (ws : List PortWrite) : itemWrites (ws.map .w) = ws := by
  induction ws with
  | nil => rfl
  | cons x a ih => simp [itemWrites, ih]

/-- A poll writes no port (R93). -/
theorem writesOf_poll (p : StatusPort) (o : PollOutcome) (es : List Event) : writesOf (pollEvents p o ++ es)
    = writesOf es := by
  have h : ∀ n es, writesOf (failedSamples p n ++ es) = writesOf es := by
    intro n; induction n with
    | zero => intro es; rfl
    | succ n ih => intro es; rw [failedSamples_succ]; exact ih es
  cases o with
  | ok n => simp only [pollEvents, List.append_assoc, h]; rfl
  | timeout => exact h _ es

/-- The writes of a trace are those of its entries. -/
theorem writesOf_fill (items : List SignalItem) : ∀ os, pollItems items = os.length →
    writesOf (fillPolls items os) = itemWrites items := by
  induction items with
  | nil => intro os h; rfl
  | cons x a ih =>
    intro os h
    cases x with
    | w x =>
      have h' : pollItems a = os.length := by simpa [pollItems] using h
      simp [fillPolls, writesOf, itemWrites, ih os h']
    | p port =>
      cases os with
      | nil => simp [pollItems] at h
      | cons o os =>
        have h' : pollItems a = os.length := by simpa [pollItems] using h
        simp [fillPolls, itemWrites, ih os h', writesOf_poll]

/-- A run of whole micro-operations with the entries `items` and the primitives `ps`. -/
structure Ran (items : List SignalItem) (ps : List Primitive) (os : List PollOutcome) (n : Nat)
    (s t : State) : Prop where
  polls : pollItems items = os.length
  legal : ∀ o ∈ os, PollOutcome.legal o = true
  steps : runSteps ((itemWrites items).length + pollSteps os) s = .next t
  trace : t.trace = s.trace ++ fillPolls items os
  prims : t.prims = s.prims ++ ps
  upc : t.upc = s.upc + BitVec.ofNat 6 n
  start : AtStart t
  pidx : t.pidx = s.pidx + BitVec.ofNat 4 os.length
  toMap : t.toMap = s.toMap ||| timeoutBits s.pidx.toNat os
  toAny : t.toAny = (s.toAny || os.any (fun o => o == .timeout))
  device : envDevice t.env = (envDevice s.env).map (reactAll (itemWrites items))
  keeps : KeepsRest s t

/-- Nothing changed. -/
theorem KeepsRest.refl (s : State) : KeepsRest s s := ⟨rfl, rfl, rfl, rfl, rfl, rfl, rfl, rfl, rfl, rfl, rfl⟩

/-- Two runs that keep the rest. -/
theorem KeepsRest.trans {a b c : State} (h : KeepsRest a b) (k : KeepsRest b c) : KeepsRest a c :=
  ⟨k.sel.trans h.sel, k.raddr.trans h.raddr, k.wdata.trans h.wdata, k.result.trans h.result,
   k.resultValid.trans h.resultValid, k.run.trans h.run, k.done.trans h.done, k.inited.trans h.inited,
   k.rom.trans h.rom, k.host.trans h.host, k.hostSeen.trans h.hostSeen⟩

/-- The empty run. -/
theorem Ran.nil {s : State} (h : AtStart s) : Ran [] [] [] 0 s s where
  polls := rfl
  legal := by simp
  steps := rfl
  trace := by simp [fillPolls]
  prims := by simp
  upc := by simp
  start := h
  pidx := by simp
  toMap := by simp [timeoutBits]
  toAny := by simp
  device := by cases envDevice s.env <;> rfl
  keeps := KeepsRest.refl s

/-- Two runs, one after the other. -/
theorem Ran.trans {i1 i2 : List SignalItem} {p1 p2 : List Primitive} {o1 o2 : List PollOutcome} {n1 n2 : Nat}
    {a b c : State}
    (h : Ran i1 p1 o1 n1 a b) (k : Ran i2 p2 o2 n2 b c) : Ran (i1 ++ i2) (p1 ++ p2) (o1 ++ o2) (n1 + n2) a c where
  polls := by simp [pollItems, List.countP_append] at *; have := h.polls; have := k.polls; simp [pollItems] at *; omega
  legal := by intro o ho; rcases List.mem_append.1 ho with ho | ho; exacts [h.legal o ho, k.legal o ho]
  steps := by
    have e : (itemWrites (i1 ++ i2)).length + pollSteps (o1 ++ o2) = ((itemWrites i1).length + pollSteps o1) +
        ((itemWrites i2).length + pollSteps o2) := by
      rw [itemWrites_append]; simp [pollSteps]; omega
    rw [e]; exact (iterateSteps_add step _ _ h.steps).trans k.steps
  trace := by rw [k.trace, h.trace, fillPolls_append _ _ _ _ h.polls, List.append_assoc]
  prims := by rw [k.prims, h.prims, List.append_assoc]
  upc := by rw [k.upc, h.upc, BitVec.add_assoc, BitVec.ofNat_add]
  start := k.start
  pidx := by rw [k.pidx, h.pidx, BitVec.add_assoc, List.length_append, BitVec.ofNat_add]
  toMap := by
    rw [k.toMap, h.toMap, timeoutBits_append, BitVec.or_assoc]
    congr 2
    apply timeoutBits_congr
    rw [h.pidx]; apply BitVec.eq_of_toNat_eq; simp [BitVec.toNat_add]
  toAny := by rw [k.toAny, h.toAny]; simp [Bool.or_assoc]
  device := by rw [k.device, h.device, itemWrites_append, map_reactAll_append]
  keeps := h.keeps.trans k.keeps

/-- The entries of a micro-operation. -/
def microItems (i : Instr) (s : State) : List SignalItem :=
  (actionsOf i s).flatMap (fun a => match a with
    | .write w => [.w w]
    | .poll p _ => [.p p]
    | .config => [.w (.cfg configRecord)]
    | .latch => []
    | .finish => [])

/-- The entries depend on the operand latches only. -/
theorem microItems_congr (i : Instr) {s t : State} (h : KeepsRest s t) : microItems i t = microItems i s := by
  unfold microItems; rw [actionsOf_congr i h.sel h.raddr h.wdata]

/-- The entries of a polling micro-operation. -/
theorem microItems_poll {i : Instr} {s : State} {pre : List PortWrite} {p : StatusPort} {post : List PortWrite}
    (hi : pollShape i s = some (pre, p, post)) : microItems i s = pre.map .w ++ [.p p] ++ post.map .w := by
  cases i <;> simp only [pollShape, reduceCtorEq, Option.some.injEq, Prod.mk.injEq] at hi <;> obtain ⟨rfl, rfl,
      rfl⟩ := hi <;> rfl

/-- One whole micro-operation with a poll, or RDEN, or UINIT without its INITED: run by the machine. -/
theorem ran_micro {i : Instr} {s : State} (hp : (pollShape i s).isSome = true ∨ i = .rden) (hs : AtStart s)
    (hr : s.run = true)
    (hw : s.hostWaits = true) (hi : currentInstr s = .ok i) :
    ∃ os, Ran (microItems i s) (primitiveOf i s).toList os 1 s (runMicro i s) := by
  have he : i ≠ .endOp := by rintro rfl; rcases hp with h | h <;> cases h
  have hsteps := step_runs_micro he hs hr hw hi
  rcases hp with hp | rfl
  · obtain ⟨⟨pre, p, post⟩, hp⟩ := Option.isSome_iff_exists.1 hp
    obtain ⟨o, h1, h2⟩ := polled_micro hp hs
    rw [microItems_poll hp]
    have hw1 : itemWrites (pre.map .w ++ [.p p] ++ post.map .w) = pre ++ post := by
      rw [itemWrites_append, itemWrites_append, itemWrites_map, itemWrites_map]; simp [itemWrites]
    have hz : ∀ ws : List PortWrite, pollItems (ws.map .w) = 0 := by
      intro ws; induction ws with
      | nil => rfl
      | cons w ws ih => simp [pollItems]
    have hc1 : pollItems (pre.map .w ++ [.p p]) = 1 := by
      have := hz pre
      simp only [pollItems, List.countP_append] at this ⊢
      rw [this]; rfl
    have hc : pollItems (pre.map .w ++ [.p p] ++ post.map .w) = 1 := by
      have h1 := hz post; have h2 := hc1
      simp only [pollItems, List.countP_append] at h1 h2 ⊢
      omega
    refine ⟨[o], hc, ?_, ?_, ?_, h1.prims, h1.upc, h1.start, h1.pidx, ?_, ?_, ?_, ⟨h1.sel, h1.raddr, h1.wdata,
        h1.result, h1.resultValid, h1.run, h1.done, h1.inited, h1.rom, h1.host, h1.hostSeen⟩⟩
    · intro o' ho; simp at ho; subst ho; exact (legalWithin_budget o').1 h1.legal
    · rw [hw1]; rw [h2] at hsteps
      rw [show (pre ++ post).length + pollSteps [o] = pre.length + o.steps + post.length by simp [pollSteps]; omega]
      exact hsteps
    · rw [h1.trace, eventsWithin_budget]
      have e1 := fillPolls_append (pre.map .w ++ [.p p]) (post.map .w) [o] [] hc1
      have e2 := fillPolls_append (pre.map .w) [.p p] [] [o] (hz pre)
      rw [List.append_nil] at e1; rw [List.nil_append] at e2
      rw [e1, e2, fillPolls_writes, fillPolls_writes]
      simp [fillPolls]
    · rw [h1.toMap]; cases o <;> simp [toMapAfter, timeoutBits, ToMap.set]
    · rw [h1.toAny]; cases o <;> simp [toAnyAfter]
    · rw [h1.device, hw1]
  · refine ⟨[], rfl, by simp, hsteps, ?_, ?_, ?_, ?_, ?_, ?_, ?_, ?_, ?_⟩
    · simp [runMicro_rden]; rfl
    · simp [runMicro_rden]; rfl
    · simp [runMicro_rden]
    · exact ⟨by simp [runMicro_rden], by simpa [runMicro_rden] using hs.2.1, by simpa [runMicro_rden] using hs.2.2⟩
    · simp [runMicro_rden]
    · simp [runMicro_rden, timeoutBits]
    · simp [runMicro_rden]
    · rw [runMicro_rden, advance_env, pifWrite_env, envDevice_observe]; cases envDevice s.env <;> rfl
    · constructor <;> simp [runMicro_rden]

/-- Micro-operations the ROM holds in a row, run whole. -/
theorem ran_list : ∀ (is : List Instr) (s : State), 
    (∀ i ∈ is, ∀ s, (pollShape i s).isSome = true ∨ i = .rden) →
    RomIntact s →
    AtStart s → s.run = true → s.hostWaits = true →
    (∀ j (h : j < is.length), decodeMicro (romImage (s.upc + BitVec.ofNat 6 j).toNat) = .ok is[j]) →
    ∃ os t, Ran (is.flatMap (microItems · s)) (is.flatMap (fun i => (primitiveOf i s).toList)) os is.length s t := by
  intro is
  induction is with
  | nil => intro s _ _ hs _ _ _; exact ⟨[], s, Ran.nil hs⟩
  | cons i is ih =>
    intro s hp hrom hs hr hw hd
    have hi : currentInstr s = .ok i := by
      rw [currentInstr_rom hrom]; have := hd 0 (by simp); rw [show BitVec.ofNat 6 0 = 0#6 from rfl,
          BitVec.add_zero] at this; exact this
    obtain ⟨o1, h1⟩ := ran_micro (hp i (by simp) s) hs hr hw hi
    have hw' : (runMicro i s).hostWaits = true := by unfold State.hostWaits at hw ⊢; rw [h1.keeps.host]; exact hw
    obtain ⟨o2, t, h2⟩ := ih (runMicro i s) (fun j hj => hp j (by simp [hj])) (h1.keeps.rom.trans hrom) h1.start
        (h1.keeps.run.trans hr) hw' (by
      intro j hj
      have := hd (j + 1) (by simp; omega)
      rw [h1.upc, BitVec.add_assoc, ← BitVec.ofNat_add, Nat.add_comm 1 j]
      simpa using this)
    have e1 : (fun j => microItems j (runMicro i s)) = (fun j => microItems j s) := by
      funext j; exact microItems_congr j h1.keeps
    have e2 : (fun j => (primitiveOf j (runMicro i s)).toList) = (fun j => (primitiveOf j s).toList) := by
      funext j; rw [primitiveOf_congr j h1.keeps.sel h1.keeps.raddr h1.keeps.wdata]
    rw [e1, e2] at h2
    refine ⟨o1 ++ o2, t, ?_⟩
    have := h1.trans h2
    rw [Nat.add_comm 1] at this
    simpa using this

/-- Acceptance keeps the ROM and HOST's side. -/
theorem accept_ready {s : State} (h : Ready s) (e : Upc) (sel : Sel) (raddr : Addr16) (data : Byte) :
    RomIntact (accept e sel raddr data s) ∧ (accept e sel raddr data s).hostWaits = true := ⟨h.rom, h.waits⟩

/-- END, as a step of the machine (R136). -/
theorem end_step {s : State} (hr : s.run = true) (hw : s.hostWaits = true) (hs : AtStart s)
    (hi : currentInstr s = .ok .endOp) : step s = .next s.finish := by
  rw [step_of_run hr hw hi, exec_end hs.1]

/-- The polls' steps are within the budget (R92). -/
theorem steps_bound (os : List PollOutcome) (h : ∀ o ∈ os,
    PollOutcome.legal o = true) : pollSteps os ≤ 480 * os.length := by
  induction os with
  | nil => simp [pollSteps]
  | cons o os ih =>
    have h1 := ih (fun o ho => h o (by simp [ho]))
    have h2 := (legalWithin_budget o).2 (h o (by simp))
    have h3 : o.steps ≤ 480 := by
      cases o with
      | ok n => have := h2.2; have e : (PollOutcome.ok n).steps = 2 * n - 1 := rfl; have := h2.1; omega
      | timeout => decide
    simp only [pollSteps, List.map_cons, List.sum_cons, List.length_cons] at *
    omega

/-- The micro-operations of the WRREG routine before END, as the ROM holds them. -/
theorem rom_wrreg : ∀ j, ∀ (h : j < (wrregRoutine.take 10).length),
    decodeMicro (romImage (entryWrreg + BitVec.ofNat 6 j).toNat) = .ok (wrregRoutine.take 10)[j] := by decide

/-- The micro-operations of the RDREG routine before LATCH, as the ROM holds them. -/
theorem rom_rdreg : ∀ j, ∀ (h : j < (rdregRoutine.take 13).length),
    decodeMicro (romImage (entryRdreg + BitVec.ofNat 6 j).toNat) = .ok (rdregRoutine.take 13)[j] := by decide

/-- How the two routines end. -/
theorem rom_ends :
    decodeMicro (romImage (entryWrreg + BitVec.ofNat 6 10).toNat) = .ok .endOp ∧
    decodeMicro (romImage (entryRdreg + BitVec.ofNat 6 13).toNat) = .ok .latch ∧
    decodeMicro (romImage (entryRdreg + BitVec.ofNat 6 13 + 1#6).toNat) = .ok .endOp := by decide

/-- The WRREG routine, from acceptance to END (R132). -/
theorem wrreg_run {s : State} (h : Ready s) (sel : Sel) (raddr : Addr16) (data : Byte) : ∃ os v,
    Ran (wrregItems sel raddr data) (wrregPrimitives sel raddr data) os 10 (accept entryWrreg sel raddr data s) v ∧
    step v = .next v.finish := by
  obtain ⟨hrom, hw⟩ := accept_ready h entryWrreg sel raddr data
  have hpoll : ∀ i ∈ wrregRoutine.take 10, ∀ s, (pollShape i s).isSome = true ∨ i = .rden := by
    intro i hi s
    fin_cases hi <;> exact .inl rfl
  obtain ⟨os, v, hv⟩ := ran_list _ (accept entryWrreg sel raddr data s) hpoll hrom ⟨rfl, rfl, rfl⟩ rfl hw rom_wrreg
  have hwv : v.hostWaits = true := by unfold State.hostWaits at hw ⊢; rw [hv.keeps.host]; exact hw
  refine ⟨os, v, hv, end_step hv.keeps.run hwv hv.start ?_⟩
  rw [currentInstr_rom (hv.keeps.rom.trans hrom), hv.upc]
  exact rom_ends.1

/-- The RDREG routine, from acceptance to END (R133). -/
theorem rdreg_run {s : State} (h : Ready s) (sel : Sel) (raddr : Addr16) (data : Byte) : ∃ os v,
    Ran (rdregItems sel raddr) (rdregPrimitives sel raddr).dropLast os 13 (accept entryRdreg sel raddr data s) v ∧
    runSteps 2 v = .next (runMicro .latch v).finish := by
  obtain ⟨hrom, hw⟩ := accept_ready h entryRdreg sel raddr data
  have hpoll : ∀ i ∈ rdregRoutine.take 13, ∀ s, (pollShape i s).isSome = true ∨ i = .rden := by
    intro i hi s
    fin_cases hi <;> first | exact .inl rfl | exact .inr rfl
  obtain ⟨os, v, hv⟩ := ran_list _ (accept entryRdreg sel raddr data s) hpoll hrom ⟨rfl, rfl, rfl⟩ rfl hw rom_rdreg
  have hromv : RomIntact v := hv.keeps.rom.trans hrom
  have hwv : v.hostWaits = true := by unfold State.hostWaits at hw ⊢; rw [hv.keeps.host]; exact hw
  have hi : currentInstr v = .ok .latch := by
    rw [currentInstr_rom hromv, hv.upc]
    exact rom_ends.2.1
  have h1 : step v = .next (runMicro .latch v) := by
    rw [step_of_run hv.keeps.run hwv hi, exec_micro rfl,
      microStep_of_action (a := .latch) (by rw [hv.start.1]; rfl), hv.start.1]
    rfl
  have h2 : step (runMicro .latch v) = .next (runMicro .latch v).finish := by
    refine end_step hv.keeps.run hwv ⟨rfl, hv.start.2.1, hv.start.2.2⟩ ?_
    rw [currentInstr_rom (s := runMicro .latch v) hromv, runMicro_latch, advance_last_upc, latchResult_upc, hv.upc]
    exact rom_ends.2.2
  refine ⟨os, v, hv, ?_⟩
  show iterateSteps step 2 v = _
  simp [iterateSteps, h1, h2]

/-- The two address bytes of a transaction put the register address in the device's pointer. -/
theorem target_bytes (raddr p : Addr16) :
    (((hiByte raddr ++ p.extractLsb' 0 8 : Addr16)).extractLsb' 8 8 ++ loByte raddr : Addr16) = raddr := by
  ext i hi
  simp only [hiByte, loByte, ← BitVec.getLsbD_eq_getElem, BitVec.getLsbD_append, BitVec.getLsbD_extractLsb']
  grind

/-- The writes of a WRREG store its byte in RefEnv's device (D16). -/
theorem device_wrreg (sel : Sel) (raddr : Addr16) (data : Byte) (v : RefDevice) :
    Memory.read .device (reactAll (itemWrites (wrregItems sel raddr data)) v).mem (deviceAddress sel 0#1 raddr)
        = data := by
  have e1 : (encodeAddress sel 0#1 0#1).extractLsb' 4 4 = 10#4 := by revert sel; decide
  have e2 : (encodeAddress sel 0#1 0#1).extractLsb' 2 2 = sel := by revert sel; decide
  have e3 : (encodeAddress sel 0#1 0#1).extractLsb' 1 1 = 0#1 := by revert sel; decide
  have e4 : (encodeAddress sel 0#1 0#1).extractLsb' 0 1 = 0#1 := by revert sel; decide
  simp [wrregItems, addressItems, stopItems, itemWrites, reactAll, RefDevice.react, RefDevice.byte,
      RefDevice.address, RefDevice.bumpPtr, e1, e2, e3, e4, RefDevice.target]
  rw [target_bytes, read_write_same]

/-- The writes of a RDREG fetch its byte from RefEnv's device (D16). -/
theorem device_rdreg (sel : Sel) (raddr : Addr16) (v : RefDevice) :
    (reactAll (itemWrites (rdregItems sel raddr)) v).rx = Memory.read .device v.mem
        (deviceAddress sel 0#1 raddr) := by
  have e1 : ∀ o, (encodeAddress sel 0#1 o).extractLsb' 4 4 = 10#4 := by revert sel; decide
  have e2 : ∀ o, (encodeAddress sel 0#1 o).extractLsb' 2 2 = sel := by revert sel; decide
  have e3 : ∀ o, (encodeAddress sel 0#1 o).extractLsb' 1 1 = 0#1 := by revert sel; decide
  have e4 : ∀ o, (encodeAddress sel 0#1 o).extractLsb' 0 1 = o := by revert sel; decide
  simp [rdregItems, addressItems, stopItems, itemWrites, reactAll, RefDevice.react, RefDevice.byte,
      RefDevice.address, RefDevice.receive, RefDevice.bumpPtr, e1, e2, e3, e4, RefDevice.target]
  rw [target_bytes]

end Sys2Proof
end

