-- ==== Sys2Proof/Laws/Wire.lean ====
section
/-! SUPPORT. The wire: a byte assembled from its own bits, and that only a trace's writes reach the wire. -/

namespace Sys2Proof

open Machine

/-- Assembling the bits a byte was sent as gives the byte (R54). -/
@[simp] theorem assembleByte_msbFirst (b : Byte) : assembleByte (msbFirst b) = b := by
  revert b; decide

/-- Eight bits, side by side, are the bits of the byte they form. -/
theorem msbFirst_append : ∀ a b c d e f g h : Bit,
    msbFirst (a ++ b ++ c ++ d ++ e ++ f ++ g ++ h : Byte) = #v[a, b, c, d, e, f, g, h] := by decide

/-- Sending an assembled byte gives the bits it was assembled from (R54). -/
@[simp] theorem msbFirst_assembleByte (v : Vector Bit 8) : msbFirst (assembleByte v) = v := by
  rw [assembleByte, msbFirst_append]
  ext i hi
  match i, hi with
  | 0, _ | 1, _ | 2, _ | 3, _ | 4, _ | 5, _ | 6, _ | 7, _ => rfl

/-- The cursor after a list of writes. -/
def cursorAfter (c : WireCursor) (ws : List PortWrite) : WireCursor := ws.foldl WireCursor.after c

/-- Only the writes of a trace reach the wire. -/
theorem wireImage_writes (dev : LineDevice) (es : List Event) : ∀ c,
    wireImage dev c es = wireImage dev c ((writesOf es).map .wr) := by
  induction es with
  | nil => intro c; rfl
  | cons e es ih => intro c; cases e <;> simp [wireImage, writesOf, ih]

/-- A read of `RXREG` at the end of a trace puts nothing on the wire. -/
theorem wireImage_rdRx (dev : LineDevice) (r : Byte) (es : List Event) : ∀ c,
    wireImage dev c (es ++ [.rdRx r]) = wireImage dev c es := by
  induction es with
  | nil => intro c; rfl
  | cons e es ih => intro c; cases e <;> simp [wireImage, ih]

/-- The events of a poll supply nothing. -/
theorem suppliesReceived_poll (dev : LineDevice) (c : WireCursor) (p : StatusPort) (o : PollOutcome)
    (es : List Event) : suppliesReceived dev c (pollEvents p o ++ es) = suppliesReceived dev c es := by
  have h : ∀ n es, suppliesReceived dev c (failedSamples p n ++ es) = suppliesReceived dev c es := by
    intro n; induction n with
    | zero => intro es; rfl
    | succ n ih => intro es; rw [failedSamples_succ]; exact ih es
  cases o with
  | ok n => simp only [pollEvents, List.append_assoc, h]; rfl
  | timeout => exact h _ es

/-- A trace of writes and polls supplies nothing; what follows it stands behind its writes. -/
theorem suppliesReceived_fill (dev : LineDevice) (items : List SignalItem) (es : List Event) : ∀ c os,
    pollItems items = os.length →
    suppliesReceived dev c (fillPolls items os ++ es) = suppliesReceived dev (cursorAfter c (itemWrites items)) es := by
  induction items with
  | nil => intro c os h; cases os <;> rfl
  | cons x a ih =>
    intro c os h
    cases x with
    | w x =>
      have h' : pollItems a = os.length := by simpa [pollItems] using h
      simp [fillPolls, suppliesReceived, itemWrites, cursorAfter, ih _ os h']
    | p port =>
      cases os with
      | nil => simp [pollItems] at h
      | cons o os =>
        have h' : pollItems a = os.length := by simpa [pollItems] using h
        simp [fillPolls, itemWrites, ih _ os h', suppliesReceived_poll]

end Sys2Proof
end

