-- ==== Sys2Proof/Tests/Slice0.lean ====
section
/-! SUPPORT. The model's own tests, expected results from 95_test_vectors.md (V<n>) and the encoding tables, and one
witness for the hypotheses of each statement. -/

namespace Sys2Proof.Tests

open Machine

/-! The smoke test of WellFormed: each check refuses an ill-formed term. -/

theorem test_wf_refuses_wrreg_select : (Asm.wrreg 4 0 0).wf = false := by decide
theorem test_wf_refuses_wrreg_address : (Asm.wrreg 0 65536 0).wf = false := by decide
theorem test_wf_refuses_wrreg_data : (Asm.wrreg 0 0 256).wf = false := by decide
theorem test_wf_refuses_rdreg_select : (Asm.rdreg 4 0).wf = false := by decide
theorem test_wf_refuses_rdreg_address : (Asm.rdreg 0 65536).wf = false := by decide
theorem test_wf_refuses_wrb_page : (Asm.wrb (.a 2 0)).wf = false := by decide
theorem test_wf_refuses_wrb_operation : (Asm.wrb (.a 0 2)).wf = false := by decide
theorem test_canonical_refuses_init_fields :
    Instr.canonical (.init 1#2 0#16 0#8) = false ∧ Instr.canonical (.init 0#2 1#16 0#8) = false ∧
    Instr.canonical (.init 0#2 0#16 1#8) = false := by decide
theorem test_canonical_refuses_rdreg_data : Instr.canonical (.rdreg 0#2 0#16 0xAB#8) = false := by decide
theorem test_wf_accepts_largest_operands :
    (Asm.wrreg 3 65535 255).wf = true ∧ (Asm.rdreg 3 65535).wf = true := by decide

/-! Decoding: every word written out from the encoding tables of R74, R77 and R78 (V80 to V91, V110 to V121). -/

theorem test_decode_init : decodeTableWord 32 0x10000000 = some (.init 0#2 0#16 0#8) := by decide
theorem test_decode_init_ignored_fields :
    decodeTableWord 32 0b00011100000100100011010001010110 = some (.init 3#2 0x1234#16 0x56#8) := by decide
theorem test_decode_wrreg :
    decodeTableWord 32 0b00100000000000000001000001000010 = some (.wrreg 0#2 0x0010#16 0x42#8) := by decide
theorem test_decode_wrreg_largest : decodeTableWord 32 0x2CFFFF5A = some (.wrreg 3#2 0xFFFF#16 0x5A#8) := by decide
theorem test_decode_rdreg :
    decodeTableWord 32 0b00110100000100100011010000000000 = some (.rdreg 1#2 0x1234#16 0#8) := by decide
theorem test_decode_rdreg_ignored_data :
    decodeTableWord 32 0x300010AB = some (.rdreg 0#2 0x0010#16 0xAB#8) := by decide
theorem test_decode_end : decodeTableWord 8 0b00000000 = some .endOp := by decide
theorem test_decode_uinit : decodeTableWord 8 0b00010000 = some .uinit := by decide
theorem test_decode_start : decodeTableWord 8 0b00100000 = some .start := by decide
theorem test_decode_restart : decodeTableWord 8 0b00110000 = some .restart := by decide
theorem test_decode_stop : decodeTableWord 8 0b01000000 = some .stop := by decide
theorem test_decode_ack : decodeTableWord 8 0b01010000 = some .ack := by decide
theorem test_decode_nack : decodeTableWord 8 0b01100000 = some .nack := by decide
theorem test_decode_idle : decodeTableWord 8 0b01110000 = some .idle := by decide
theorem test_decode_wrb_hi : decodeTableWord 8 0b10000000 = some .wrbHi := by decide
theorem test_decode_wrb_lo : decodeTableWord 8 0b10000001 = some .wrbLo := by decide
theorem test_decode_wrb_d : decodeTableWord 8 0b10000010 = some .wrbD := by decide
theorem test_decode_wrb_a :
    decodeTableWord 8 0b10001000 = some (.wrbA 0#1 0#1) ∧ decodeTableWord 8 0b10001001 = some (.wrbA 0#1 1#1) ∧
    decodeTableWord 8 0b10001010 = some (.wrbA 1#1 0#1) ∧ decodeTableWord 8 0b10001011 = some (.wrbA 1#1 1#1) :=
  by decide
theorem test_decode_rden : decodeTableWord 8 0b10010000 = some .rden := by decide
theorem test_decode_latch : decodeTableWord 8 0b10100000 = some .latch := by decide
/-- V92 to V97. -/
theorem test_reserved_command_words :
    [0x00000000, 0x40000000, 0xF0001042, 0x21001042, 0x33001000, 0x12000000].map (decodeTableWord 32) =
      [none, none, none, none, none, none] := by decide
/-- V122 to V124. -/
theorem test_reserved_micro_words :
    ([0x83, 0x84, 0x85, 0x86, 0x87, 0x8C, 0x8D, 0x8E, 0x8F, 0x01, 0x21, 0x7F, 0x9F, 0xA1, 0xB0, 0xC5, 0xFF].map
      (decodeTableWord 8)).all (fun o => o == none) = true := by decide

/-! The AddressCodec and the splitter (V1, V6, V16, V20, V26). -/

theorem test_encode_address :
    encodeAddress 0#2 0#1 0#1 = 0xA0#8 ∧ encodeAddress 1#2 0#1 1#1 = 0xA5#8 ∧ encodeAddress 3#2 1#1 1#1 = 0xAF#8 :=
  by decide
theorem test_split_address :
    hiByte 0x1234#16 = 0x12#8 ∧ loByte 0x1234#16 = 0x34#8 ∧ hiByte 0xFFFF#16 = 0xFF#8 ∧ loByte 0x0100#16 = 0x00#8 :=
  by decide

/-! One step of each instruction, from the setting of V40 to V56: `SEL = 1`, `RADDR = 0x1234`, `WDATA = 0x5A`. -/

/-- Ports at 0. -/
def quiet : Pif :=
  { reqStart := 0#1, reqRestart := 0#1, reqStop := 0#1, reqAck := 0#1, ackdt := 0#1, rcen := 0#1, txreg := 0#8,
    rxreg := 0#8, staStart := 0#1, staRestart := 0#1, staStop := 0#1, staAck := 0#1, staTrstat := 0#1, tbf := 0#1,
    cfg := ⟨.other, 0#1, 0#1, 0#1, .other, .other, 0#1, 0#1, 0, 0⟩ }

/-- CORE idle after `init`, under a fresh `RefEnv(0)`. -/
def ready : State :=
  { State.reset with
    sel := 1#2, raddr := 0x1234#16, wdata := 0x5A#8, upc := 0#6, result := 0#8, pif := quiet, inited := true,
    env := .ref (RefEnv.fresh [] 0) }

/-- A routine in progress, at an action and a poll number. -/
def running (act : BitVec 2) (pidx : BitVec 4) : State := { ready with run := true, act := act, pidx := pidx }

/-- A routine in progress under an ENV that answers these status bits. -/
def answered (act : BitVec 2) (bits : List Bit) : State := { running act 0#4 with env := .script bits [] }

/-- The next state of an outcome. -/
def next? : Host.Outcome State Fault Refusal → Option State
  | .next s => some s
  | .fault _ => none
  | .refused _ => none

/-- The refusal of an outcome. -/
def refusal? : Host.Outcome State Fault Refusal → Option Refusal
  | .next _ => none
  | .fault _ => none
  | .refused r => some r

/-- The fault of an outcome. -/
def fault? : Host.Outcome State Fault Refusal → Option Fault
  | .next _ => none
  | .fault r => some r
  | .refused _ => none

/-- What one step of a micro-operation adds to the history, and where the sequencer stands after it. -/
def micro (i : Instr) (s : State) : Option (List Event × BitVec 6 × BitVec 2) :=
  (next? (exec i s)).map (fun t => (t.trace, t.upc, t.act))

theorem test_uinit : ((next? (exec .uinit (running 0#2 0#4))).map (fun t => (t.pif.cfg.baud, t.pif.cfg.addrMode,
    t.pif.cfg.irqEnable, t.inited, t.upc))) = some (363, .master7bit, 0#1, true, 1#6) := by decide
theorem test_start_clears_ackdt : micro .start (running 0#2 0#4) = some ([.wr (.ackdt 0#1)], 0#6, 1#2) := by decide
theorem test_start_polls : micro .start (running 2#2 0#4) = some ([.rd .staStart 0#1], 1#6, 0#2) := by decide
theorem test_restart_requests :
    micro .restart (running 0#2 0#4) = some ([.wr (.reqRestart 1#1)], 0#6, 1#2) := by decide
theorem test_restart_resets_tbf : micro .restart (running 3#2 0#4) = some ([.wr (.tbf 0#1)], 1#6, 0#2) := by decide
theorem test_stop_leaves_receive : micro .stop (running 0#2 0#4) = some ([.wr (.rcen 0#1)], 0#6, 1#2) := by decide
theorem test_stop_polls : micro .stop (running 2#2 0#4) = some ([.rd .staStop 0#1], 1#6, 0#2) := by decide
theorem test_ack_sets_bit : micro .ack (running 0#2 0#4) = some ([.wr (.ackdt 0#1)], 0#6, 1#2) := by decide
theorem test_ack_polls : micro .ack (running 2#2 0#4) = some ([.rd .staAck 0#1], 1#6, 0#2) := by decide
theorem test_nack_sets_bit : micro .nack (running 0#2 0#4) = some ([.wr (.ackdt 1#1)], 0#6, 1#2) := by decide
theorem test_nack_triggers : micro .nack (running 1#2 0#4) = some ([.wr (.reqAck 1#1)], 0#6, 2#2) := by decide
theorem test_idle_polls : micro .idle (running 0#2 0#4) = some ([.rd .staTrstat 0#1], 1#6, 0#2) := by decide
theorem test_wrb_hi : micro .wrbHi (running 0#2 0#4) = some ([.wr (.txreg 0x12#8)], 0#6, 1#2) := by decide
theorem test_wrb_lo : micro .wrbLo (running 0#2 0#4) = some ([.wr (.txreg 0x34#8)], 0#6, 1#2) := by decide
theorem test_wrb_d : micro .wrbD (running 0#2 0#4) = some ([.wr (.txreg 0x5A#8)], 0#6, 1#2) := by decide
theorem test_wrb_d_polls : micro .wrbD (running 1#2 0#4) = some ([.rd .tbf 0#1], 1#6, 0#2) := by decide
theorem test_wrb_a_write :
    micro (.wrbA 0#1 0#1) (running 0#2 0#4) = some ([.wr (.txreg 0xA4#8)], 0#6, 1#2) := by decide
theorem test_wrb_a_page_read :
    micro (.wrbA 1#1 1#1) (running 0#2 0#4) = some ([.wr (.txreg 0xA7#8)], 0#6, 1#2) := by decide
theorem test_rden : micro .rden (running 0#2 0#4) = some ([.wr (.rcen 1#1)], 1#6, 0#2) := by decide
theorem test_latch : (next? (exec .latch (running 0#2 0#4))).map (fun t => (t.trace, t.result, t.resultValid)) =
    some ([.rdRx 0xFF#8], 0xFF#8, true) := by decide
theorem test_end : (next? (exec .endOp (running 0#2 0#4))).map (fun t => (t.trace, t.run, t.done)) =
    some ([], false, true) := by decide

/-- A failed sample (V31): counted, and the delay comes next. -/
theorem test_failed_sample :
    (next? (exec .idle (answered 0#2 [1#1]))).map (fun t => (t.cnt, t.waiting, t.act, t.upc)) =
    some (1#8, true, 0#2, 0#6) := by decide
/-- The delay after the 240th failed sample (V61): the timeout is recorded and the sequencer goes on. -/
theorem test_timeout : (next? (exec .start { running 2#2 3#4 with cnt := 240#8, waiting := true })).map
    (fun t => (t.trace, t.toMap, t.toAny, t.upc)) = some ([.tick], 8#12, true, 1#6) := by decide
theorem test_timeout_counts : (next? (exec .start { running 2#2 3#4 with cnt := 240#8, waiting := true })).map
    (fun t => (t.cnt, t.waiting, t.pidx)) = some (0#8, false, 4#4) := by decide
/-- The delay after the 239th failed sample is no timeout. -/
theorem test_no_timeout_before : (next? (exec .start { running 2#2 3#4 with cnt := 239#8, waiting := true })).map
    (fun t => (t.toMap, t.cnt, t.waiting, t.upc)) = some (0#12, 239#8, false, 0#6) := by decide

/-- V81, the accept step. -/
theorem test_accept_wrreg :
    (next? (step { ready with host := [call 0x20001042#32] })).map
      (fun t => (t.sel, t.raddr, t.wdata, t.upc, t.run)) = some (0#2, 0x0010#16, 0x42#8, 0#6, true) := by decide
/-- V102. -/
theorem test_accept_rdreg :
    (next? (step { ready with done := true, toAny := true, toMap := 1#12, host := [intrude 0x30001000#32] })).map
      (fun t => (t.done, t.toMap, t.toAny, t.upc, t.run)) = some (false, 0#12, false, 16#6, true) := by decide
/-- V80, and V90's rule that an ignored field is latched. -/
theorem test_accept_init :
    (next? (step { ready with inited := false, host := [call 0x1C123456#32] })).map
      (fun t => (t.sel, t.raddr, t.wdata, t.upc, t.inited)) = some (3#2, 0x1234#16, 0x56#8, 32#6, false) := by decide
/-- V98 and V99. -/
theorem test_refused_before_init :
    refusal? (step { State.reset with host := [call 0x20001042#32] }) = some .transactionBeforeInit ∧
    refusal? (step { State.reset with host := [call 0x30001000#32] }) = some .transactionBeforeInit := by decide
/-- V100. -/
theorem test_refused_second_init :
    refusal? (step { ready with host := [call 0x10000000#32] }) = some .secondInit := by decide
/-- V101, with a legal and with a reserved word. -/
theorem test_refused_while_running :
    refusal? (step { running 0#2 0#4 with host := [intrude 0x30001000#32] }) = some .commandWhileRunning ∧
    refusal? (step { running 0#2 0#4 with host := [intrude 0x00000000#32] }) = some .commandWhileRunning := by decide
/-- V92. -/
theorem test_refused_reserved :
    refusal? (step { ready with host := [call 0x00000000#32] }) = some .reservedCommandWord := by decide
/-- The model's own fault, an action START does not have (log 12). -/
theorem test_no_such_action : fault? (exec .start (running 3#2 0#4)) = some .noSuchAction := by decide
/-- R42: `RESULT` before any RDREG has ended is a fault of HOST's program and no value, and the machine goes on. -/
theorem test_read_unwritten_result :
    (next? (step { ready with host := [readNow .result, call 0x20001042#32] })).map
      (fun t => (t.hostSeen, t.host, t.run)) = some ([.resultFault], [call 0x20001042#32], false) := by decide

/-- A row's word placed after reset runs as the very next step, for the seventeen rows of the opcode table. -/
theorem test_placed_words_run :
    [(32, 0x10000000), (32, 0x20000000), (32, 0x30000000), (8, 0x00), (8, 0x10), (8, 0x20), (8, 0x30), (8, 0x40),
      (8, 0x50), (8, 0x60), (8, 0x70), (8, 0x80), (8, 0x81), (8, 0x82), (8, 0x88), (8, 0x90), (8, 0xA0)].all
      (fun r => (next? (step (State.reset.withFetchWord r.1 r.2))).isSome) = true := by decide

/-! The wire (R54, R66, R73). -/

/-- A device that acknowledges every byte and sends `0xB2`, its bits written out. -/
def lineDevice : LineDevice := ⟨fun _ => 0#1, fun _ => #v[1#1, 0#1, 1#1, 1#1, 0#1, 0#1, 1#1, 0#1]⟩

/-- The first received bit is bit 7 of `RXREG`, the last bit 0. -/
theorem test_received_byte :
    assembleByte #v[1#1, 0#1, 0#1, 0#1, 0#1, 0#1, 0#1, 0#1] = 0x80#8 ∧ assembleByte (lineDevice.sends 0) = 0xB2#8 := by
  decide
/-- The not-acknowledged byte of a read, after NACK's bit. -/
theorem test_wire_of_a_read :
    wireImage lineDevice ⟨0, 0, 0#1⟩ [.wr (.rcen 1#1), .wr (.ackdt 1#1), .wr (.reqAck 1#1), .rdRx 0xB2#8] =
      [.deviceBit 1#1, .deviceBit 0#1, .deviceBit 1#1, .deviceBit 1#1] ++
      [.deviceBit 0#1, .deviceBit 0#1, .deviceBit 1#1, .deviceBit 0#1, .masterAck 1#1] := by decide
theorem test_frame_needs_an_address :
    Frame.wf ⟨[], none⟩ = false ∧ Frame.wf ⟨[.fromMaster 0x50#8 0#1], none⟩ = false ∧
    Frame.wf ⟨[.fromMaster 0xA0#8 0#1], some []⟩ = false := by decide

/-! The parameters (R6, R79). -/

theorem test_rom_address_words : romImage 1 = 0x88#8 ∧ romImage 17 = 0x88#8 ∧ romImage 24 = 0x89#8 := by decide

/-! Memory. -/

theorem test_memory_keeps_order :
    Memory.write .device [(3, 1#8), (9, 2#8)] 5 7#8 = [(3, 1#8), (5, 7#8), (9, 2#8)] := by decide
theorem test_memory_drops_unlisted_value : Memory.write .device [(3, 1#8)] 3 0xFF#8 = [] := by decide
theorem test_memory_wf_refuses :
    Memory.wf .device [(3, 1#8), (3, 2#8)] = false ∧ Memory.wf .device [(3, 0xFF#8)] = false ∧
    Memory.wf .rom [(64, 1#8)] = false := by decide

/-! Witnesses: for each statement with hypotheses, states and operands that meet them. -/

/-- A state of CORE just after acceptance of INIT. -/
def initRunning : State := accept entryInit 0#2 0#16 0#8 { ready with inited := false }

/-- The reference device awaiting a data byte for register `0x1234` of select 1. -/
def awaiting : RefDevice := { RefDevice.fresh with ds := .dataW, curSel := 1#2, ptr := 0x1234#16 }

/-- RefEnv with that device. -/
def awaitingEnv : RefEnv := { RefEnv.fresh [] 0 with device := awaiting }

theorem witness_ready : Ready ready := ⟨rfl, rfl, rfl, rfl⟩
theorem witness_ready_refenv : ready.env = .ref (RefEnv.fresh [] 0) := rfl
theorem witness_init_ready :
    ({ ready with inited := false } : State).run = false ∧ ({ ready with inited := false } : State).inited = false ∧
    RomIntact { ready with inited := false } ∧
    State.hostWaits { ready with inited := false } = true := ⟨rfl, rfl, rfl, rfl⟩
theorem witness_reserved_word :
    ({ ready with host := [call 0x40000000#32] } : State).run = false ∧ ∃ e, decodeCommand 0x40000000#32 = .error e :=
  ⟨rfl, .reservedOp, by decide⟩
/-- Each range of the assembler's statement at both of its ends. -/
theorem witness_assembler :
    assemble (.wrreg 3 65535 255) = some (.wrreg 3#2 0xFFFF#16 0xFF#8) ∧ assemble (.wrreg 4 0 0) = none ∧
    assemble (.wrreg 0 65536 0) = none ∧ assemble (.wrreg 0 0 256) = none ∧
    assemble (.rdreg 3 65535) = some (.rdreg 3#2 0xFFFF#16 0#8) ∧ assemble (.rdreg 4 0) = none ∧
    assemble (.wrb (.a 1 0)) = some (.wrbA 1#1 0#1) ∧ assemble (.wrb (.a 2 0)) = none ∧
    assemble (.wrb (.a 0 2)) = none := by decide
theorem witness_step_micro :
    (running 0#2 0#4).run = true ∧ (running 0#2 0#4).hostWaits = true ∧
    decodeMicro (Memory.read .rom (running 0#2 0#4).rom (running 0#2 0#4).upc.toNat) = .ok .start := by
  exact ⟨rfl, rfl, by decide⟩
theorem witness_step_command :
    ready.run = false ∧ decodeCommand 0x20001042#32 = .ok (.wrreg 0#2 0x0010#16 0x42#8) := by
  exact ⟨rfl, by decide⟩
theorem witness_step_waits : ready.run = false ∧ ready.host = [] := ⟨rfl, rfl⟩
theorem witness_word_while_running :
    ({ running 0#2 0#4 with host := [intrude 0#32] } : State).run = true ∧
    ({ running 0#2 0#4 with host := [intrude 0#32] } : State).host = ⟨.now, .present 0#32⟩ :: [] := ⟨rfl, rfl⟩
theorem witness_commands :
    ready.run = false ∧ ready.inited = true ∧ initRunning.run = true ∧ State.reset.inited = false := by
  exact ⟨rfl, rfl, rfl, rfl⟩
/-- The four clauses of the small steps, at their boundaries. -/
theorem witness_poll_small_steps :
    ((answered 0#2 [0#1]).waiting = false ∧ statusAnswer .staStart (answered 0#2 [0#1]) = 0#1) ∧
    ((answered 0#2 [1#1]).waiting = false ∧ statusAnswer .staStart (answered 0#2 [1#1]) = 1#1) ∧
    (({ ready with waiting := true, cnt := 240#8 } : State).cnt = 240#8) ∧
    (({ ready with waiting := true, cnt := 239#8 } : State).cnt ≠ 240#8) := by decide
/-- `n = 1`, `n = 240` and the timeout, for the target 0. -/
theorem witness_poll_contract :
    (answered 0#2 [0#1]).env = .script (List.replicate (1 - 1) (~~~0#1) ++ 0#1 :: []) [] ∧
    (answered 0#2 (List.replicate 239 1#1 ++ [0#1])).env = .script (List.replicate (240 - 1) (~~~0#1) ++ 0#1 :: []) [] ∧
    (answered 0#2 (List.replicate 240 1#1)).env = .script (List.replicate 240 (~~~0#1) ++ []) [] ∧
    (answered 0#2 []).cnt = 0#8 ∧ (answered 0#2 []).waiting = false := ⟨rfl, rfl, by simp [answered], rfl, rfl⟩
theorem witness_at_start : AtStart (running 0#2 0#4) := ⟨rfl, rfl, rfl⟩
theorem witness_actions :
    (running 1#2 0#4).act = 1#2 ∧ (running 2#2 0#4).act = 2#2 ∧ (running 3#2 0#4).act = 3#2 := by decide
theorem witness_past_the_list :
    Instr.isCommand .start = false ∧ (actionsOf .start (running 3#2 0#4)).length ≤ (running 3#2 0#4).act.toNat :=
  by decide
theorem witness_micro : Instr.isCommand .start = false ∧ Instr.start ≠ .endOp ∧ AtStart (running 0#2 0#4) :=
  ⟨rfl, by decide, rfl, rfl, rfl⟩
/-- Every micro-operation that sends no byte answers a next state somewhere. -/
theorem witness_frame_silent :
    [Instr.endOp, .uinit, .start, .restart, .stop, .ack, .nack, .idle, .rden, .latch].all
      (fun i => (next? (exec i (running 0#2 0#4))).isSome) = true := by decide
/-- The three clauses of WRB's frame. -/
theorem witness_frame_wrb :
    (next? (exec .wrbD { running 0#2 0#4 with env := .ref awaitingEnv })).isSome = true ∧
    deviceStoreAddress { running 0#2 0#4 with env := .ref awaitingEnv } = some 135732 ∧
    deviceStoreAddress (running 0#2 0#4) = none ∧
    (next? (exec .wrbD (running 1#2 0#4))).isSome = true := by decide
theorem witness_frame_ports :
    [Instr.wrbHi, .wrbLo, .wrbA 0#1 0#1, .ack].all (fun i => (next? (exec i (running 0#2 0#4))).isSome) = true :=
  by decide
/-- A timeout, and a poll without one. -/
theorem witness_frame_flags :
    (next? (exec .start { running 2#2 3#4 with cnt := 240#8, waiting := true })).isSome = true ∧
    (next? (exec .rden (running 0#2 0#4))).isSome = true := by decide
/-- A step of each kind: a HOST read, an acceptance, an action, a wait. -/
theorem witness_steps :
    (next? (step { running 0#2 0#4 with host := [readNow .busy] })).isSome = true ∧
    (next? (step { ready with host := [call 0x20001042#32] })).isSome = true ∧
    (next? (step (running 0#2 0#4))).isSome = true ∧ (next? (step ready)).isSome = true := by decide
theorem witness_host_waits :
    State.hostWaits { running 0#2 0#4 with host := [call 0x20001042#32] } = true := by decide
theorem witness_rom_intact : RomIntact ready := rfl
theorem witness_memories : memoriesOk { ready with env := .ref awaitingEnv } = true := by decide
/-- The invariant holds in a state where a routine runs. -/
theorem witness_invariant_running : CoreInv initRunning ∧ initRunning.run = true ∧ initRunning.hostWaits = true := by
  refine ⟨⟨rfl, fun _ => ⟨by decide, .uinit, by decide, .config, by decide, ?_, by decide⟩, fun _ => rfl, fun _ => by decide,
    by decide, by decide, by decide⟩, rfl, rfl⟩
  exact ⟨rfl, rfl⟩
theorem witness_wire_lengths :
    (List.replicate 10 (PollOutcome.ok 1)).length = 10 ∧ (List.replicate 12 PollOutcome.timeout).length = 12 :=
  by decide
theorem witness_wire_supplied :
    (List.replicate 12 (PollOutcome.ok 2)).length = 12 ∧
    suppliesReceived lineDevice ⟨0, 0, 0#1⟩
      (fillPolls (rdregItems 1#2 0x1234#16) (List.replicate 12 (PollOutcome.ok 2)) ++ [.rdRx 0xB2#8]) = true := by
  decide
theorem witness_host_reads :
    ({ running 0#2 0#4 with host := [readNow .toMap] } : State).host = ⟨.now, .read .toMap⟩ :: [] ∧
    (running 0#2 0#4).run = true ∧ ready.run = false ∧ ready.resultValid = false ∧
    ({ ready with resultValid := true } : State).resultValid = true ∧
    ({ ready with host := [readAfterEnd .result] } : State).host = ⟨.afterEnd, .read .result⟩ :: [] :=
  ⟨rfl, rfl, rfl, rfl, rfl, rfl⟩

end Sys2Proof.Tests
end

section
/-! SUPPORT. Format A: the address byte as shifted fields, and its fields read back (R71). -/

namespace Sys2Proof.Machine

/-- Appending is adding: the low part fills exactly the bits the shift freed. -/
theorem setWidth_append_eq_shiftLeft_add {m n k : Nat} (x : BitVec m) (y : BitVec n) :
    (x ++ y).setWidth k = x.setWidth k <<< n + y.setWidth k := by
  have disjoint : x.setWidth k <<< n &&& y.setWidth k = 0#k := by
    ext i hi
    by_cases hn : i < n
    · simp [hn]
    · simp [BitVec.getLsbD_of_ge y i (Nat.le_of_not_lt hn)]
  rw [BitVec.setWidth_append_eq_shiftLeft_setWidth_or, BitVec.add_eq_or_of_and_eq_zero _ _ disjoint]

section
variable (deviceId : BitVec 4) (sel : Sel) (page op : Bit)

@[simp] theorem packAddress_deviceId : (packAddress deviceId sel page op).extractLsb' 4 4 = deviceId :=
  calc (packAddress deviceId sel page op).extractLsb' 4 4
      = (deviceId ++ sel ++ page).extractLsb' 3 4 := BitVec.extractLsb'_append_eq_of_le (by decide)
    _ = (deviceId ++ sel).extractLsb' 2 4 := BitVec.extractLsb'_append_eq_of_le (by decide)
    _ = deviceId := BitVec.extractLsb'_append_eq_left

@[simp] theorem packAddress_select : (packAddress deviceId sel page op).extractLsb' 2 2 = sel :=
  calc (packAddress deviceId sel page op).extractLsb' 2 2
      = (deviceId ++ sel ++ page).extractLsb' 1 2 := BitVec.extractLsb'_append_eq_of_le (by decide)
    _ = (deviceId ++ sel).extractLsb' 0 2 := BitVec.extractLsb'_append_eq_of_le (by decide)
    _ = sel := BitVec.extractLsb'_append_eq_right

@[simp] theorem packAddress_pageSelect : (packAddress deviceId sel page op).extractLsb' 1 1 = page :=
  calc (packAddress deviceId sel page op).extractLsb' 1 1
      = (deviceId ++ sel ++ page).extractLsb' 0 1 := BitVec.extractLsb'_append_eq_of_le (by decide)
    _ = page := BitVec.extractLsb'_append_eq_right

@[simp] theorem packAddress_operation : (packAddress deviceId sel page op).extractLsb' 0 1 = op :=
  BitVec.extractLsb'_append_eq_right

/-- R71's invariant: the packed byte is the or of the shifted fields. -/
theorem packAddress_eq_or : packAddress deviceId sel page op =
    (((deviceId.zeroExtend 8) <<< 4) ||| ((sel.zeroExtend 8) <<< 2) ||| ((page.zeroExtend 8) <<< 1) |||
      (op.zeroExtend 8)) :=
  calc packAddress deviceId sel page op
      = (deviceId ++ sel ++ page ++ op).setWidth 8 := (BitVec.setWidth_eq _).symm
    _ = _ := BitVec.setWidth_append_append_append_eq_shiftLeft_setWidth_or

/-- The same with `+`: every append adds its low part to the shifted high part. -/
theorem packAddress_eq_add : packAddress deviceId sel page op =
    ((deviceId.zeroExtend 8) <<< 4) + ((sel.zeroExtend 8) <<< 2) + ((page.zeroExtend 8) <<< 1) +
      (op.zeroExtend 8) :=
  calc packAddress deviceId sel page op
      = (deviceId ++ sel ++ page ++ op).setWidth 8 := (BitVec.setWidth_eq _).symm
    _ = (((deviceId.setWidth 8 <<< 2 + sel.setWidth 8) <<< 1 + page.setWidth 8) <<< 1) + op.setWidth 8 := by
      simp only [setWidth_append_eq_shiftLeft_add]
    _ = _ := by simp only [BitVec.shiftLeft_add_distrib, ← BitVec.shiftLeft_add, Nat.reduceAdd]

end

/-- The codec's family code is the constant 10 (R121). -/
theorem encodeAddress_eq_packAddress (sel : Sel) (page op : Bit) :
    encodeAddress sel page op = packAddress 0b1010#4 sel page op := rfl

/-- Settles O54: each field from the append that packed it, the or and the sum by taking the appends apart. -/
theorem addressByteLayout : Obligations.AddressByteLayout := by
  unfold Obligations.AddressByteLayout
  refine ⟨fun deviceId sel page op => ⟨?_, ?_, ?_, ?_, ?_, ?_⟩, encodeAddress_eq_packAddress⟩
  · exact packAddress_deviceId deviceId sel page op
  · exact packAddress_select deviceId sel page op
  · exact packAddress_pageSelect deviceId sel page op
  · exact packAddress_operation deviceId sel page op
  · exact packAddress_eq_or deviceId sel page op
  · exact packAddress_eq_add deviceId sel page op

end Sys2Proof.Machine
end

section
/-! SUPPORT. The AddressCodec: the number an address byte is, and its constant high half (R120, R121). -/

namespace Sys2Proof.Machine

/-- Read as a number, an append scales the high part past the low part's width. -/
theorem toNat_append_eq_mul_two_pow_add {m n : Nat} (x : BitVec m) (y : BitVec n) :
    (x ++ y).toNat = x.toNat * 2 ^ n + y.toNat := by
  rw [BitVec.toNat_append, ← Nat.shiftLeft_add_eq_or_of_lt y.isLt, Nat.shiftLeft_eq]

/-- The packed byte as a number: the fields weighted 16, 4, 2 and 1 (R71). -/
theorem packAddress_toNat (deviceId : BitVec 4) (sel : Sel) (page op : Bit) :
    (packAddress deviceId sel page op).toNat =
      16 * deviceId.toNat + 4 * sel.toNat + 2 * page.toNat + op.toNat := by
  unfold packAddress
  simp only [toNat_append_eq_mul_two_pow_add]
  omega

/-- Bits 7:4 of an address byte are the family code, whatever the operands (R121). -/
@[simp] theorem encodeAddress_deviceId (sel : Sel) (page op : Bit) :
    (encodeAddress sel page op).extractLsb' 4 4 = 0b1010#4 :=
  packAddress_deviceId _ sel page op

/-- The codec's byte as a number: 160 from the family code, then the operands' weights (R120). -/
theorem encodeAddress_toNat (sel : Sel) (page op : Bit) :
    (encodeAddress sel page op).toNat = 160 + 4 * sel.toNat + 2 * page.toNat + op.toNat :=
  packAddress_toNat 0b1010#4 sel page op

/-- Settles O6: the or and the sum of format A at the family code 10; the fields side by side are the packing itself. -/
theorem addressByteFormula : Obligations.AddressByteFormula := by
  unfold Obligations.AddressByteFormula
  intro sel page op
  refine ⟨?_, ?_, ?_⟩
  · exact packAddress_eq_or Config.params.deviceId sel page op
  · exact encodeAddress_eq_packAddress sel page op
  · exact encodeAddress_toNat sel page op

/-- Settles O55: WRB A's operand is the codec's byte at the state's `SEL`, so the codec's high half is every state's. -/
theorem deviceIdIsConstant : Obligations.DeviceIdIsConstant := by
  unfold Obligations.DeviceIdIsConstant
  refine ⟨rfl, rfl, rfl, ?_, ?_⟩
  · exact encodeAddress_deviceId
  · exact fun s page op => encodeAddress_deviceId s.sel page op

end Sys2Proof.Machine
end

section
/-! SUPPORT. The decoder and the encoder agree in both directions, and the words they are about (R74 to R80). -/

namespace Sys2Proof

/-- A word with `uop = 0x8` is decoded by its operand selector alone (R77). -/
theorem decodeMicro_microWord_wrb (arg : BitVec 4) : decodeMicro (microWord 0x8#4 arg) = decodeWrb arg := by
  simp [decodeMicro]

/-- Decoding inverts encoding: a command by its five fields, WRB A by its selector, any other word as it stands. -/
theorem decode_encode (i : Instr) : decode (encode i) = .ok i := by
  cases i with
  | init sel raddr data => exact decodeCommand_commandWord 0x1#4 sel raddr data
  | wrreg sel raddr data => exact decodeCommand_commandWord 0x2#4 sel raddr data
  | rdreg sel raddr data => exact decodeCommand_commandWord 0x3#4 sel raddr data
  | wrbA page op => exact (decodeMicro_microWord_wrb _).trans (decodeWrb_address page op)
  | _ => rfl

/-- A legal command word is rebuilt from its fields, the ignored ones too (R75). -/
theorem encode_of_decodeCommand {w : CmdWord} {i : Instr} (h : decodeCommand w = .ok i) : encode i = .host w := by
  unfold decodeCommand at h
  split_ifs at h with hzero hop hop hop <;> cases h
  all_goals
    rw [encode, ← hop, commandWord_fields w (not_not.1 hzero)]

/-- One test of the decoder of format U: a legal word without operand is rebuilt from its `uop`, any other word is
left to the tests that follow (R76). -/
theorem encode_of_uop_test {w : Byte} {uop : BitVec 4} {i j : Instr} {rest : Except DecodeError Instr}
    (h : (if uopField w = uop then plainMicro (argField w) i else rest) = .ok j)
    (hi : encode i = .micro (microWord uop 0x0#4)) (hrest : rest = .ok j → encode j = .micro w) :
    encode j = .micro w := by
  by_cases huop : uopField w = uop
  · rw [if_pos huop, plainMicro] at h
    split_ifs at h with harg
    cases h
    rw [hi, ← huop, ← harg, microWord_fields]
  · exact hrest ((if_neg huop).symm.trans h)

/-- A legal operand selector of WRB is rebuilt from the operand form (R77). -/
theorem encode_of_decodeWrb {arg : BitVec 4} {i : Instr} (h : decodeWrb arg = .ok i) :
    encode i = .micro (microWord 0x8#4 arg) := by
  have selector : ∀ a : BitVec 4, a.extractLsb' 2 2 = 0b10#2 →
      wrbAddressArg (a.extractLsb' 1 1) (a.extractLsb' 0 1) = a := by decide
  unfold decodeWrb at h
  split_ifs at h with h0 h1 h2 hclass <;> cases h
  · rw [h0]; rfl
  · rw [h1]; rfl
  · rw [h2]; rfl
  · rw [encode, selector arg hclass]

/-- A legal micro-operation word is rebuilt from what it decodes to (R76 to R78). -/
theorem encode_of_decodeMicro {w : Byte} {i : Instr} (h : decodeMicro w = .ok i) : encode i = .micro w := by
  unfold decodeMicro at h
  iterate 8 refine encode_of_uop_test h rfl fun h => ?_
  by_cases huop : uopField w = 0x8#4
  · rw [if_pos huop] at h
    rw [encode_of_decodeWrb h, ← huop, microWord_fields]
  · rw [if_neg huop] at h
    iterate 2 refine encode_of_uop_test h rfl fun h => ?_
    cases h

/-- The decoder reads exactly the words the encoder writes. -/
theorem decode_eq_ok_iff {c : Code} {i : Instr} : decode c = .ok i ↔ encode i = c := by
  refine ⟨fun h => ?_, fun h => h ▸ decode_encode i⟩
  cases c with
  | host w => exact encode_of_decodeCommand h
  | micro w => exact encode_of_decodeMicro h

/-- Settles O1: every constructor's word by its fields. -/
theorem decodeEncodeEveryInstruction : Obligations.DecodeEncodeEveryInstruction := by
  unfold Obligations.DecodeEncodeEveryInstruction
  exact decode_encode

/-- Settles O2: every branch of the two decoders rebuilds its word from the fields it has tested. -/
theorem encodeDecodeEveryWord : Obligations.EncodeDecodeEveryWord := by
  unfold Obligations.EncodeDecodeEveryWord
  exact fun _ _ => decode_eq_ok_iff.1

/-- Settles O3: ten fixed words, decoded. -/
theorem wordsOfTheSpecDecode : Obligations.WordsOfTheSpecDecode := by
  unfold Obligations.WordsOfTheSpecDecode
  decide

/-- The word of a micro-operation is one of the seventeen of R77 and R78. -/
theorem micro_word_listed {i : Instr} {w : Byte} (h : encode i = .micro w) :
    w ∈ [0x00#8, 0x10#8, 0x20#8, 0x30#8, 0x40#8, 0x50#8, 0x60#8, 0x70#8, 0x80#8] ++
        [0x81#8, 0x82#8, 0x88#8, 0x89#8, 0x8A#8, 0x8B#8, 0x90#8, 0xA0#8] := by
  cases i with
  | init sel raddr data => cases h
  | wrreg sel raddr data => cases h
  | rdreg sel raddr data => cases h
  | wrbA page op => cases h; revert page op; decide
  | _ => cases h; decide

/-- Settles O5: the legal words are the words of the micro-operations, listed one by one. -/
theorem reservedMicroWordsRejected : Obligations.ReservedMicroWordsRejected := by
  unfold Obligations.ReservedMicroWordsRejected
  intro w
  refine ⟨fun ⟨i, h⟩ => micro_word_listed (encode_of_decodeMicro h), fun h => ?_⟩
  fin_cases h <;> exact ⟨_, rfl⟩

/-- Which command words are reserved (R80): the decoder tests `zero`, then the three values of `op`. -/
theorem decodeCommand_error_iff (w : CmdWord) :
    (∃ e, decodeCommand w = .error e) ↔
      zeroField w ≠ 0#2 ∨ (opField w ≠ 1#4 ∧ opField w ≠ 2#4 ∧ opField w ≠ 3#4) := by
  unfold decodeCommand
  split_ifs <;> simp_all

end Sys2Proof
end

section
/-! SUPPORT. The codec's inputs read back, its image, the splitter and the assembler's ranges (R82, R122, R124). -/

namespace Sys2Proof

open Machine

/-- Settles O7: the operand fields as format A packs them; the image by the number each byte is, rebuilt from the
byte's low four bits. -/
theorem addressBytesInjectiveInRange : Obligations.AddressBytesInjectiveInRange := by
  unfold Obligations.AddressBytesInjectiveInRange
  refine ⟨fun sel page op => ⟨?_, ?_, ?_⟩, fun b => ⟨?_, fun h => ?_⟩⟩
  · exact packAddress_select _ sel page op
  · exact packAddress_pageSelect _ sel page op
  · exact packAddress_operation _ sel page op
  · rintro ⟨sel, page, op, rfl⟩
    have := Sel.toNat_lt sel; have := page.isLt; have := op.isLt
    rw [encodeAddress_toNat]
    omega
  · refine ⟨BitVec.ofNat 2 (b.toNat / 4), BitVec.ofNat 1 (b.toNat / 2), BitVec.ofNat 1 b.toNat,
      BitVec.eq_of_toNat_eq ?_⟩
    rw [encodeAddress_toNat]
    simp only [BitVec.toNat_ofNat]
    omega

/-- The high byte is the quotient by 256 (R72). -/
theorem hiByte_toNat (a : Addr16) : (hiByte a).toNat = a.toNat / 256 := by
  have := Addr16.toNat_lt a
  simp only [hiByte, BitVec.extractLsb'_toNat, Nat.shiftRight_eq_div_pow]
  omega

/-- The low byte is the remainder by 256 (R72). -/
theorem loByte_toNat (a : Addr16) : (loByte a).toNat = a.toNat % 256 := by
  simp [loByte, BitVec.extractLsb'_toNat]

/-- Settles O8: quotient and remainder by 256. -/
theorem registerAddressSplit : Obligations.RegisterAddressSplit := by
  unfold Obligations.RegisterAddressSplit
  intro a
  rw [hiByte_toNat, loByte_toNat]
  exact ⟨rfl, rfl, (Nat.div_add_mod a.toNat 256).symm⟩

/-- A line in range is assembled as it is written (R82). -/
theorem assemble_of_wf {a : Asm} (h : a.wf = true) : assemble a = some (assembleChecked a) := if_pos h

/-- A line out of range is refused (R122, U16). -/
theorem assemble_of_not_wf {a : Asm} (h : a.wf = false) : assemble a = none := if_neg (by simp [h])

theorem wf_wrreg_iff (sel raddr data : Nat) :
    (Asm.wrreg sel raddr data).wf = true ↔ sel < 4 ∧ raddr < 65536 ∧ data < 256 := by
  simp [Asm.wf, and_assoc]

theorem wf_rdreg_iff (sel raddr : Nat) : (Asm.rdreg sel raddr).wf = true ↔ sel < 4 ∧ raddr < 65536 := by
  simp [Asm.wf]

theorem wf_wrbA_iff (page op : Nat) : (Asm.wrb (.a page op)).wf = true ↔ page < 2 ∧ op < 2 := by
  simp [Asm.wf, WrbOperand.wf]

/-- Settles O9: a line is refused exactly when its range check fails, and a numeral in range is its field's value. -/
theorem assemblerRefusesOutOfRange : Obligations.AssemblerRefusesOutOfRange := by
  unfold Obligations.AssemblerRefusesOutOfRange
  refine ⟨fun sel raddr data => ⟨fun h => ?_, fun h => ?_⟩, fun sel raddr => ⟨fun h => ?_, fun h => ?_⟩,
    fun page op => ⟨fun h => ?_, fun h => ?_⟩, rfl, rfl, rfl, rfl, rfl, rfl, rfl, rfl, rfl, rfl, rfl, rfl, rfl, rfl⟩
  · obtain ⟨hsel, hraddr, hdata⟩ := h
    exact ⟨_, _, _, assemble_of_wf ((wf_wrreg_iff sel raddr data).2 ⟨hsel, hraddr, hdata⟩),
      Nat.mod_eq_of_lt hsel, Nat.mod_eq_of_lt hraddr, Nat.mod_eq_of_lt hdata⟩
  · refine assemble_of_not_wf (Bool.eq_false_iff.2 fun hwf => ?_)
    obtain ⟨hsel, hraddr, hdata⟩ := (wf_wrreg_iff sel raddr data).1 hwf
    omega
  · obtain ⟨hsel, hraddr⟩ := h
    exact ⟨_, _, assemble_of_wf ((wf_rdreg_iff sel raddr).2 ⟨hsel, hraddr⟩), Nat.mod_eq_of_lt hsel,
      Nat.mod_eq_of_lt hraddr⟩
  · refine assemble_of_not_wf (Bool.eq_false_iff.2 fun hwf => ?_)
    obtain ⟨hsel, hraddr⟩ := (wf_rdreg_iff sel raddr).1 hwf
    omega
  · obtain ⟨hpage, hop⟩ := h
    exact ⟨_, _, assemble_of_wf ((wf_wrbA_iff page op).2 ⟨hpage, hop⟩), Nat.mod_eq_of_lt hpage,
      Nat.mod_eq_of_lt hop⟩
  · refine assemble_of_not_wf (Bool.eq_false_iff.2 fun hwf => ?_)
    obtain ⟨hpage, hop⟩ := (wf_wrbA_iff page op).1 hwf
    omega

end Sys2Proof
end

section
/-! SUPPORT. The invariant of CORE along one step of every kind, the memories' canonical form, and the steps left to
END (R24 to R30, R50, R131, R167, R184). -/

namespace Sys2Proof

open Machine

/-- A HOST read touches nothing the invariant speaks of. -/
theorem coreInv_hostSees {s : State} (h : CoreInv s) (v : HostReading) (rest : List HostInput) :
    CoreInv (hostSees v { s with host := rest }) where
  rom := h.rom
  sequencer := h.sequencer
  done := h.done
  inited := h.inited
  pidx := h.pidx
  toMap := h.toMap
  toAny := h.toAny

/-- Acceptance puts the sequencer at the start of a routine, with its poll number and flags at 0 (R130). -/
theorem coreInv_accept {s : State} (entry : Upc) (hrom : RomIntact s) (hreach : reachableAddress entry.toNat = true)
    (hpolls : pollsBefore entry.toNat = 0) (hinit : s.inited = decide (entry ≠ entryInit)) (sel : Sel)
    (raddr : Addr16) (data : Byte) : CoreInv (accept entry sel raddr data s) where
  rom := hrom
  sequencer _ := sequencerOk_start hrom hreach ⟨rfl, rfl, rfl⟩ hpolls.symm
  done _ := rfl
  inited _ := hinit
  pidx := by simp
  toMap := by simp
  toAny := rfl

/-- END leaves `RUN = 0`, where only the flags are constrained (R136). -/
theorem coreInv_finish {s : State} (h : CoreInv s) : CoreInv s.finish where
  rom := h.rom
  sequencer hrun := by cases hrun
  done hrun := by cases hrun
  inited hrun := by cases hrun
  pidx := h.pidx
  toMap := h.toMap
  toAny := h.toAny

/-- Where a running sequencer is: at a reachable address, at action `a` of its micro-operation `i`, with that action's
counters and the poll number of R142. It is `SequencerOk` with its two witnesses named. -/
structure AtAction (s : State) (i : Instr) (a : Action) : Prop where
  reach : reachableAddress s.upc.toNat = true
  instr : currentInstr s = .ok i
  action : (actionsOf i s)[s.act.toNat]? = some a
  counters : CountersOk s a.isPoll
  polls : s.pidx.toNat = pollsBefore s.upc.toNat + pollsAmong (actionsOf i s) s.act.toNat

/-- Under the invariant the sequencer is at the action a step performs. -/
theorem CoreInv.atAction {s : State} (h : CoreInv s) (hr : s.run = true) {i : Instr} {a : Action}
    (hi : currentInstr s = .ok i) (ha : (actionsOf i s)[s.act.toNat]? = some a) : AtAction s i a := by
  obtain ⟨hreach, j, hj, b, hb, hcounters, hpolls⟩ := h.sequencer hr
  obtain rfl : j = i := Except.ok.inj (hj.symm.trans hi)
  obtain rfl : b = a := Option.some.inj (hb.symm.trans ha)
  exact ⟨hreach, hi, ha, hcounters, hpolls⟩

/-- The counters outside a poll, in a delay of a poll and before a sample of it (R26, R92). -/
theorem countersOk_idle (s : State) : CountersOk s false ↔ s.cnt = 0#8 ∧ s.waiting = false := Iff.rfl

theorem countersOk_delaying {s : State} (hw : s.waiting = true) :
    CountersOk s true ↔ 1 ≤ s.cnt.toNat ∧ s.cnt.toNat ≤ 240 := by
  simp [CountersOk, hw]

theorem countersOk_sampling {s : State} (hw : s.waiting = false) : CountersOk s true ↔ s.cnt.toNat < 240 := by
  simp [CountersOk, hw]

/-- A poll in progress has a number below 12 (R142). -/
theorem AtAction.pidx_lt {s : State} {i : Instr} {a : Action} (hrom : RomIntact s) (h : AtAction s i a)
    (ha : a.isPoll = true) : s.pidx.toNat < 12 := by
  have hpolls := (address_facts h.reach ((currentInstr_rom hrom).symm.trans h.instr)).polls
  have htake : pollsAmong (actionsOf i s) (s.act.toNat + 1) ≤ (pollFlags i).count true := by
    rw [pollsAmong_flags]; exact counts_take _ _
  have hmore : pollsAmong (actionsOf i s) (s.act.toNat + 1) = pollsAmong (actionsOf i s) s.act.toNat + 1 := by
    simp [pollsAmong, List.take_add_one, h.action, List.countP_append, ha]
  have := h.polls
  omega

/-- A step inside a poll moves only its counters, ENV, the ports and the history. -/
theorem coreInv_of_counters {s t : State} {i : Instr} {a : Action} (h : CoreInv s) (hat : AtAction s i a)
    (ht : t = { s with
      cnt := t.cnt, waiting := t.waiting, pif := t.pif, env := t.env, trace := t.trace, draws := t.draws })
    (hcounters : CountersOk t a.isPoll) : CoreInv t := by
  rw [ht] at hcounters ⊢
  exact
    { rom := h.rom
      sequencer := fun _ => ⟨hat.reach, i, hat.instr, a, hat.action, hcounters, hat.polls⟩
      done := h.done
      inited := h.inited
      pidx := h.pidx
      toMap := h.toMap
      toAny := h.toAny }

/-- One step of a poll keeps the invariant: the two steps that end it advance the sequencer, the other two count. -/
theorem coreInv_pollStep {s : State} {i : Instr} {p : StatusPort} {target : Bit} (h : CoreInv s) (hr : s.run = true)
    (hat : AtAction s i (.poll p target)) (prim : Option Primitive) :
    CoreInv (pollStep p target (s.act.toNat + 1 == (actionsOf i s).length) prim s) := by
  obtain ⟨hcfg, hfin⟩ := action_kinds hat.action
  have hend : i ≠ .endOp := fun he => by cases hfin.2 he
  have hlt := hat.pidx_lt h.rom rfl
  rcases pollStep_cases (s.act.toNat + 1 == (actionsOf i s).length) prim s p target with
    ⟨hw, hc, he⟩ | ⟨hw, hc, he⟩ | ⟨hw, hv, he⟩ | ⟨hw, hv, he⟩ <;> rw [he]
  case inl =>
    exact inv_advance h hr hat.instr hat.action hend hat.polls hat.reach (by simp) (by simp) (by simp) (by simp)
      (by simp) (by simp [Action.isPoll]) (by simp) (by simp)
      (by simpa using toMap_lt hlt h.toMap) (by simpa using (toMap_any s.toMap s.pidx hlt).symm)
      (by simp) (by simp) (by simp) prim hcfg
  case inr.inl =>
    refine coreInv_of_counters h hat rfl ((countersOk_sampling rfl).2 ?_)
    have hle : 1 ≤ s.cnt.toNat ∧ s.cnt.toNat ≤ 240 := (countersOk_delaying hw).1 hat.counters
    rw [endDelay_cnt]
    omega
  case inr.inr.inl =>
    refine inv_advance h hr hat.instr hat.action hend hat.polls hat.reach (by simp) (by simp) (by simp) (by simp)
      (by simp) (by simp [Action.isPoll]) (by simp) (by simp) ?_ (by simpa using h.toAny)
      (by simp) (by simp) (by simp) prim hcfg
    have hsucc : (s.pidx + 1#4).toNat = s.pidx.toNat + 1 := BitVec.toNat_add_of_lt (show s.pidx.toNat + 1 < 16 by omega)
    have hpow : 2 ^ s.pidx.toNat ≤ 2 ^ (s.pidx.toNat + 1) := Nat.pow_le_pow_right (by omega) (by omega)
    simp only [closePoll_ok_toMap, countSample_toMap, closePoll_pidx, countSample_pidx, hsucc]
    exact h.toMap.trans_le hpow
  case inr.inr.inr =>
    refine coreInv_of_counters h hat rfl ((countersOk_delaying rfl).2 ?_)
    have hless : s.cnt.toNat < 240 := (countersOk_sampling hw).1 hat.counters
    rw [beginDelay_cnt, countSample_cnt, cnt_succ hless]
    omega

/-- An action that is one access completes and moves the sequencer on. -/
theorem coreInv_access {s v : State} {i : Instr} {a : Action} (h : CoreInv s) (hr : s.run = true)
    (hat : AtAction s i a) (hpoll : a.isPoll = false) (hfinish : a ≠ .finish)
    (hv : v = { s with
      result := v.result, resultValid := v.resultValid, pif := v.pif, env := v.env, trace := v.trace, draws := v.draws,
      inited := decide (a = .config) || s.inited })
    (prim : Option Primitive) : CoreInv (advance (s.act.toNat + 1 == (actionsOf i s).length) prim v) := by
  obtain ⟨hcfg, hfin⟩ := action_kinds hat.action
  obtain ⟨hc, hw⟩ := (countersOk_idle s).1 (hpoll ▸ hat.counters)
  exact inv_advance h hr hat.instr hat.action (mt hfin.2 hfinish) hat.polls hat.reach
    (by rw [hv]) (by rw [hv]) (by rw [hv]) (by rw [hv, hc]) (by rw [hv, hw]) (by rw [hv]; simp [hpoll]) (by rw [hv])
    (by rw [hv]) (by rw [hv]; exact h.toMap) (by rw [hv]; exact h.toAny) (by rw [hv]) (by rw [hv]) (by rw [hv]) prim
    hcfg

/-- One action of a running sequencer keeps the invariant. -/
theorem coreInv_perform {s : State} {i : Instr} {a : Action} (h : CoreInv s) (hr : s.run = true)
    (hat : AtAction s i a) (prim : Option Primitive) :
    CoreInv (perform a (s.act.toNat + 1 == (actionsOf i s).length) prim s) := by
  cases a with
  | poll p target => exact coreInv_pollStep h hr hat prim
  | finish => exact coreInv_finish h
  | write w => exact coreInv_access h hr hat rfl (by simp) rfl prim
  | config => exact coreInv_access h hr hat rfl (by simp) rfl prim
  | latch => exact coreInv_access h hr hat rfl (by simp) rfl prim

/-- Settles O44: a step is a HOST read, an acceptance, one action or a wait, and each keeps the invariant. -/
theorem stepKeepsCoreInvariant : Obligations.StepKeepsCoreInvariant := by
  unfold Obligations.StepKeepsCoreInvariant
  intro s t h hstep
  rcases step_cases hstep with ⟨v, rest, rfl⟩ | ⟨-, rest, entry, sel, raddr, data, rfl, hentry⟩ |
    ⟨hr, -, i, a, hi, -, ha, rfl⟩ | ⟨-, rfl⟩
  · exact coreInv_hostSees h v rest
  · rcases hentry with ⟨rfl, hinit⟩ | ⟨rfl | rfl, hinit⟩
    · exact coreInv_accept (s := { s with host := rest }) entryInit h.rom rfl rfl hinit sel raddr data
    · exact coreInv_accept (s := { s with host := rest }) entryWrreg h.rom rfl rfl hinit sel raddr data
    · exact coreInv_accept (s := { s with host := rest }) entryRdreg h.rom rfl rfl hinit sel raddr data
  · exact coreInv_perform h hr (h.atAction hr hi ha) _
  · exact h

/-- Settles O11: reset has no routine running and nothing recorded, listed or stored. -/
theorem resetMeetsTheInvariants : Obligations.ResetMeetsTheInvariants := by
  unfold Obligations.ResetMeetsTheInvariants
  exact
    ⟨{ rom := rfl
       sequencer := fun hr => by cases hr
       done := fun hr => by cases hr
       inited := fun hr => by cases hr
       pidx := by decide
       toMap := by decide
       toAny := rfl }, rfl⟩

/-- A sequence of port writes keeps the device's memory canonical. -/
theorem reactAll_wf (ws : List PortWrite) : ∀ v : RefDevice, Memory.wf .device v.mem = true →
    Memory.wf .device (reactAll ws v).mem = true := by
  induction ws with
  | nil => exact fun v h => h
  | cons w ws ih => exact fun v h => ih (v.react w) (react_wf v w h)

/-- The canonical form of both memories: the ROM's, and the device's where there is one. -/
theorem memoriesOk_iff (s : State) : memoriesOk s = true ↔
    Memory.wf .rom s.rom = true ∧ ∀ v, envDevice s.env = some v → Memory.wf .device v.mem = true := by
  rw [memoriesOk_eq]
  cases envDevice s.env <;> simp

/-- An action keeps the memories canonical: only its port writes reach a memory. -/
theorem memoriesOk_perform {s : State} (h : memoriesOk s = true) (a : Action) (last : Bool) (prim : Option Primitive) :
    memoriesOk (perform a last prim s) = true := by
  rw [memoriesOk_iff] at h ⊢
  obtain ⟨hrom, hdevice⟩ := h
  refine ⟨by rwa [perform_rom], fun v hv => ?_⟩
  rw [envDevice_perform, Option.map_eq_some_iff] at hv
  obtain ⟨u, hu, rfl⟩ := hv
  exact reactAll_wf a.portWrites u (hdevice u hu)

/-- Settles O45: of the four kinds of step only an action reaches a memory. -/
theorem stepKeepsMemoriesCanonical : Obligations.StepKeepsMemoriesCanonical := by
  unfold Obligations.StepKeepsMemoriesCanonical
  intro s t h hstep
  rcases step_cases hstep with ⟨v, rest, rfl⟩ | ⟨-, rest, entry, sel, raddr, data, rfl, -⟩ |
    ⟨-, -, i, a, -, -, -, rfl⟩ | ⟨-, rfl⟩
  · exact h
  · exact h
  · exact memoriesOk_perform h a _ _
  · exact h

/-- A command is accepted or refused, and never for the sequencer's two reasons. -/
theorem exec_command_ne {i : Instr} (hi : i.isCommand = true) (s : State) :
    exec i s ≠ .fault .noSuchAction ∧ exec i s ≠ .refused .reservedMicroWord := by
  cases i with
  | init sel raddr data => simp only [exec, execInit]; split_ifs <;> simp
  | wrreg sel raddr data => simp only [exec, execWrreg]; split_ifs <;> simp
  | rdreg sel raddr data => simp only [exec, execRdreg]; split_ifs <;> simp
  | _ => cases hi

/-- Nor does a HOST input stop the machine for these reasons. -/
theorem hostStep_ne (a : HostAct) (s : State) :
    hostStep a s ≠ .fault .noSuchAction ∧ hostStep a s ≠ .refused .reservedMicroWord := by
  cases a with
  | read r => cases r <;> cases hr : s.run <;> simp [hostStep, hostRead, readAfterRun, hr]
  | present w =>
    simp only [hostStep]
    split
    · simp
    · split
      · exact exec_command_ne (decodeCommand_command ‹_›) s
      · simp

/-- CORE's step while a routine runs, as the action it performs (R131). -/
theorem coreStep_of_action {s : State} {i : Instr} {a : Action} (hr : s.run = true) (hi : currentInstr s = .ok i)
    (ha : (actionsOf i s)[s.act.toNat]? = some a) :
    coreStep s = .next (perform a (s.act.toNat + 1 == (actionsOf i s).length) (primitiveOf i s) s) := by
  rw [coreStep, if_pos hr, show decodeMicro (romFetch s) = .ok i from hi]
  exact (exec_micro (decodeMicro_not_command hi) s).trans (microStep_of_action ha)

/-- While HOST waits, the machine's step in a running routine is CORE's. -/
theorem step_eq_coreStep {s : State} (hr : s.run = true) (hw : s.hostWaits = true) : step s = coreStep s := by
  rw [step, hostTurn_none hr hw]

/-- Under the invariant CORE's own step is always there: the action at `UPC`, or waiting. -/
theorem coreStep_next {s : State} (h : CoreInv s) : ∃ t, coreStep s = .next t := by
  cases hr : s.run
  · exact ⟨s, by simp [coreStep, hr]⟩
  · exact core_next h hr

/-- Settles O46: where HOST does not move CORE steps; where HOST moves it is no step of the sequencer. -/
theorem runningCoreAlwaysSteps : Obligations.RunningCoreAlwaysSteps := by
  unfold Obligations.RunningCoreAlwaysSteps
  intro s h
  obtain ⟨t, ht⟩ := coreStep_next h
  refine ⟨fun hr hw => ⟨t, (step_eq_coreStep hr hw).trans ht⟩, ?_⟩
  unfold step
  split
  · exact hostStep_ne _ _
  · rw [ht]; exact ⟨by simp, by simp⟩

/-- The steps left to END: the address's budget without what the micro-operation has already used. -/
def stepsLeft (s : State) : Nat :=
  match currentInstr s with
  | .ok i => budgetFrom 20 s.upc.toNat - (flagsMax ((pollFlags i).take s.act.toNat) + progress s)
  | .error _ => 0

theorem stepsLeft_eq {s : State} {i : Instr} (hi : currentInstr s = .ok i) :
    stepsLeft s = budgetFrom 20 s.upc.toNat - (flagsMax ((pollFlags i).take s.act.toNat) + progress s) := by
  rw [stepsLeft, hi]

/-- No more steps are left than the address's budget. -/
theorem stepsLeft_le (s : State) : stepsLeft s ≤ budgetFrom 20 s.upc.toNat := by
  unfold stepsLeft
  split <;> omega

/-- The fetch depends on `UPC` and the ROM only, and no action writes the ROM. -/
theorem currentInstr_perform {s : State} {a : Action} {last : Bool} {prim : Option Primitive}
    (h : (perform a last prim s).upc = s.upc) : currentInstr (perform a last prim s) = currentInstr s := by
  rw [currentInstr, currentInstr, romFetch, romFetch, h, perform_rom]

/-- No reachable address is past INIT's END (R79). -/
theorem reachableAddress_lt {a : Nat} (h : reachableAddress a = true) : a < 34 := by
  simp only [reachableAddress, Bool.or_eq_true, Bool.and_eq_true, decide_eq_true_eq] at h
  omega

/-- Every action but END's uses up at least one of the steps left. -/
theorem stepsLeft_perform {s : State} {i : Instr} {a : Action} (h : CoreInv s) (hr : s.run = true)
    (hat : AtAction s i a) (hfinish : a ≠ .finish) (prim : Option Primitive) :
    stepsLeft (perform a (s.act.toNat + 1 == (actionsOf i s).length) prim s) < stepsLeft s := by
  obtain ⟨j, b, hj, hb, hprogress, htake, hwhole, hbudget, -, hreach, hcounters⟩ := place h hr
  obtain rfl : j = i := Except.ok.inj (hj.symm.trans hat.instr)
  obtain rfl : b = a := Option.some.inj (hb.symm.trans hat.action)
  have hact : s.act.toNat < (actionsOf j s).length := (List.getElem?_eq_some_iff.1 hb).1
  rw [stepsLeft_eq hj]
  rcases perform_progress b (s.act.toNat + 1 == (actionsOf j s).length) prim s hfinish hcounters with
    ⟨hupc, hact', hmore⟩ | ⟨hlast, hupc, hact'⟩ | ⟨hlast, hupc, hact'⟩
  · rw [stepsLeft_eq ((currentInstr_perform hupc).trans hj), hupc, hact', hmore]
    omega
  · have hlen := actionsOf_length j s
    have hlt : s.act.toNat + 1 < (actionsOf j s).length := lt_of_le_of_ne hact (beq_eq_false_iff_ne.1 hlast)
    have hsucc : (s.act + 1#2).toNat = s.act.toNat + 1 := BitVec.toNat_add_of_lt (show s.act.toNat + 1 < 4 by omega)
    rw [stepsLeft_eq ((currentInstr_perform hupc).trans hj), hupc, hact', hsucc]
    omega
  · have hle := stepsLeft_le (perform b (s.act.toNat + 1 == (actionsOf j s).length) prim s)
    have hend : j ≠ .endOp := mt (action_kinds hb).2.2 hfinish
    have hless := reachableAddress_lt hreach
    have hsucc : (s.upc + 1#6).toNat = s.upc.toNat + 1 :=
      BitVec.toNat_add_of_lt (show s.upc.toNat + 1 < 64 by omega)
    rw [hupc, hsucc] at hle
    rw [if_neg hend] at hbudget
    omega

/-- END is one of the steps left. -/
theorem stepsLeft_pos {s : State} (h : CoreInv s) (hr : s.run = true) : 1 ≤ stepsLeft s := by
  obtain ⟨i, a, hi, -, hprogress, htake, hwhole, hbudget, -⟩ := place h hr
  rw [stepsLeft_eq hi]
  omega

/-- Whether HOST waits depends on its pending inputs only. -/
theorem hostWaits_congr {s t : State} (h : t.host = s.host) : t.hostWaits = s.hostWaits := by
  rw [State.hostWaits, State.hostWaits, h]

/-- From any place of a routine END is reached within the steps left there. -/
theorem reaches_end (n : Nat) : ∀ s : State, CoreInv s → s.run = true → s.hostWaits = true → stepsLeft s ≤ n →
    ∃ k t, k ≤ n ∧ runSteps k s = .next t ∧ t.run = false ∧ t.done = true := by
  induction n with
  | zero =>
    intro s h hr _ hn
    have := stepsLeft_pos h hr
    omega
  | succ n ih =>
    intro s h hr hw hn
    obtain ⟨-, i, hi, a, ha, -, -⟩ := h.sequencer hr
    have hstep := (step_eq_coreStep hr hw).trans (coreStep_of_action hr hi ha)
    by_cases hfinish : a = .finish
    · rw [hfinish] at hstep
      exact ⟨1, s.finish, by omega, iterateSteps_one step hstep, rfl, rfl⟩
    · have hat := h.atAction hr hi ha
      have hless := stepsLeft_perform h hr hat hfinish (primitiveOf i s)
      obtain ⟨k, t, hk, hrun, ht⟩ := ih _ (coreInv_perform h hr hat (primitiveOf i s))
        ((perform_run a _ _ s hfinish).trans hr) ((hostWaits_congr (perform_host a _ _ s)).trans hw) (by omega)
      refine ⟨1 + k, t, by omega, ?_, ht⟩
      exact (iterateSteps_add step 1 k (iterateSteps_one step hstep)).trans hrun

/-- Settles O47: the steps left decrease with every action, and no address has more than 5776. -/
theorem everyRoutineEnds : Obligations.EveryRoutineEnds := by
  unfold Obligations.EveryRoutineEnds
  intro s h hr hw
  obtain ⟨i, a, -, -, -, -, -, -, hbudget, -⟩ := place h hr
  exact reaches_end 5776 s h hr hw ((stepsLeft_le s).trans hbudget)

end Sys2Proof
end

section
/-! SUPPORT. The three commands run whole, from acceptance to END, and the round trip under RefEnv (R132 to R134,
R145). -/

namespace Sys2Proof

open Machine

/-- The three commands accepted from a state that allows them (R130). -/
theorem exec_init {s : State} (hr : s.run = false) (hi : s.inited = false) (sel : Sel) (raddr : Addr16) (data : Byte) :
    exec (.init sel raddr data) s = .next (accept entryInit sel raddr data s) := by
  simp [exec, execInit, hr, hi]

theorem exec_wrreg {s : State} (hr : s.run = false) (hi : s.inited = true) (sel : Sel) (raddr : Addr16) (data : Byte) :
    exec (.wrreg sel raddr data) s = .next (accept entryWrreg sel raddr data s) := by
  simp [exec, execWrreg, hr, hi]

theorem exec_rdreg {s : State} (hr : s.run = false) (hi : s.inited = true) (sel : Sel) (raddr : Addr16) (data : Byte) :
    exec (.rdreg sel raddr data) s = .next (accept entryRdreg sel raddr data s) := by
  simp [exec, execRdreg, hr, hi]

/-- The INIT routine, from acceptance through UINIT to END (R134). -/
theorem init_run {s : State} (hrom : RomIntact s) (hw : s.hostWaits = true) (sel : Sel) (raddr : Addr16)
    (data : Byte) :
    runSteps 2 (accept entryInit sel raddr data s) =
      .next (runMicro .uinit (accept entryInit sel raddr data s)).finish := by
  have huinit : currentInstr (accept entryInit sel raddr data s) = .ok .uinit :=
    (currentInstr_rom (s := accept entryInit sel raddr data s) hrom).trans (by decide : decodeMicro (romImage 32) = _)
  have hend : currentInstr (runMicro .uinit (accept entryInit sel raddr data s)) = .ok .endOp :=
    (currentInstr_rom (s := runMicro .uinit (accept entryInit sel raddr data s)) hrom).trans
      (by decide : decodeMicro (romImage 33) = _)
  have hmicro := step_runs_micro (s := accept entryInit sel raddr data s) (by decide) ⟨rfl, rfl, rfl⟩ rfl hw huinit
  exact (iterateSteps_add step 1 1 hmicro).trans (iterateSteps_one step (end_step rfl hw ⟨rfl, rfl, rfl⟩ hend))

/-- Settles O48: acceptance, UINIT's one action and END's. -/
theorem initRunsToEnd : Obligations.InitRunsToEnd := by
  unfold Obligations.InitRunsToEnd
  refine ⟨by decide, fun sel raddr data => decodeCommand_commandWord 0x1#4 sel raddr data, ?_⟩
  intro s sel raddr data hr hi hrom hw
  exact ⟨_, _, exec_init hr hi sel raddr data, init_run hrom hw sel raddr data,
    rfl, rfl, rfl, rfl, rfl, rfl, rfl, rfl, rfl, rfl, rfl, rfl, rfl⟩

/-- A run's polls, as many as its entries have, take at most 480 steps each. -/
theorem Ran.pollSteps_le {items : List SignalItem} {ps : List Primitive} {os : List PollOutcome} {n : Nat}
    {s t : State} (h : Ran items ps os n s t) : pollSteps os ≤ 480 * pollItems items := by
  rw [h.polls]
  exact steps_bound os h.legal

/-- Settles O49: the routine's run with its ten polls, one END after it. -/
theorem wrregRunsToEnd : Obligations.WrregRunsToEnd := by
  unfold Obligations.WrregRunsToEnd
  refine ⟨fun sel raddr data => decodeCommand_commandWord 0x2#4 sel raddr data, ?_⟩
  intro s sel raddr data h
  obtain ⟨os, v, hv, hend⟩ := wrreg_run h sel raddr data
  have hbound : pollSteps os ≤ 480 * 10 := hv.pollSteps_le
  have hrun : runSteps (8 + pollSteps os + 1) (accept entryWrreg sel raddr data s) = .next v.finish :=
    (iterateSteps_add step _ 1 hv.steps).trans (iterateSteps_one step hend)
  refine ⟨_, os, v.finish, exec_wrreg h.idle h.inited sel raddr data, hv.polls.symm, hv.legal, hrun, by omega, rfl, rfl,
    hv.trace, hv.prims, ?_, ?_, hv.keeps.result, hv.keeps.resultValid, hv.keeps.sel, hv.keeps.raddr, hv.keeps.wdata,
    hv.keeps.inited.trans h.inited, hv.keeps.rom, hv.keeps.host, hv.keeps.hostSeen⟩
  · simpa using hv.toMap
  · simpa using hv.toAny

/-- Settles O50: the routine's run with its twelve polls, then LATCH's one read and END. -/
theorem rdregRunsToEnd : Obligations.RdregRunsToEnd := by
  unfold Obligations.RdregRunsToEnd
  refine ⟨fun sel raddr data => decodeCommand_commandWord 0x3#4 sel raddr data, ?_⟩
  intro s sel raddr data h
  obtain ⟨os, v, hv, hend⟩ := rdreg_run h sel raddr data
  have hbound : pollSteps os ≤ 480 * 12 := hv.pollSteps_le
  have hrun : runSteps (14 + pollSteps os + 2) (accept entryRdreg sel raddr data s) =
      .next (runMicro .latch v).finish := (iterateSteps_add step _ 2 hv.steps).trans hend
  refine ⟨_, os, (runMicro .latch v).finish, exec_rdreg h.idle h.inited sel raddr data, hv.polls.symm, hv.legal, hrun,
    by omega, rfl, rfl, ?_, ?_, ?_, ?_, rfl, hv.keeps.sel, hv.keeps.raddr, hv.keeps.wdata,
    hv.keeps.inited.trans h.inited, hv.keeps.rom, hv.keeps.host, hv.keeps.hostSeen⟩
  · simp [runMicro_latch, hv.trace]
  · simp [runMicro_latch, hv.prims, rdregPrimitives]
  · simpa [runMicro_latch] using hv.toMap
  · simpa [runMicro_latch] using hv.toAny

/-- RefEnv supplies as `RXREG` the byte its device holds ready (D16). -/
theorem rxAnswer_of_device {s : State} {v : RefDevice} (h : envDevice s.env = some v) : rxAnswer s = v.rx := by
  unfold rxAnswer
  cases he : s.env <;> rw [he] at h <;> cases h
  rfl

/-- Settles O51: the writes of WRREG store the byte in the device, those of RDREG fetch it, and LATCH reads it. -/
theorem readAfterWriteReturnsTheByte : Obligations.ReadAfterWriteReturnsTheByte := by
  unfold Obligations.ReadAfterWriteReturnsTheByte
  intro s r sel raddr v data h henv
  obtain ⟨os, w, hw, hend⟩ := wrreg_run h sel raddr v
  have hready : Ready w.finish :=
    ⟨rfl, hw.keeps.inited.trans h.inited, hw.keeps.rom.trans h.rom, (hostWaits_congr hw.keeps.host).trans h.waits⟩
  obtain ⟨os', x, hx, hend'⟩ := rdreg_run hready sel raddr data
  have hdevice : envDevice x.env = some (reactAll (itemWrites (rdregItems sel raddr))
      (reactAll (itemWrites (wrregItems sel raddr v)) r.device)) := by
    rw [hx.device, accept_env, finish_env, hw.device, accept_env, henv]
    rfl
  refine ⟨_, _, w.finish, _, _, (runMicro .latch x).finish, exec_wrreg h.idle h.inited sel raddr v,
    (iterateSteps_add step _ 1 hw.steps).trans (iterateSteps_one step hend), rfl,
    exec_rdreg rfl hready.inited sel raddr data, (iterateSteps_add step _ 2 hx.steps).trans hend', rfl, rfl, ?_⟩
  calc (runMicro .latch x).finish.result
      = (reactAll (itemWrites (rdregItems sel raddr)) (reactAll (itemWrites (wrregItems sel raddr v)) r.device)).rx :=
        rxAnswer_of_device hdevice
    _ = v := by rw [device_rdreg, device_wrreg]

end Sys2Proof
end

section
/-! SUPPORT. PIF accesses, the poll's small steps, its contract under a script, and PhaseTimeout (R8, R51, R90 to R92,
R152). -/

namespace Sys2Proof

open Machine

/-- Settles O18: each access is its record update. -/
theorem pifAccessesAreOneEvent : Obligations.PifAccessesAreOneEvent := by
  unfold Obligations.PifAccessesAreOneEvent
  exact ⟨fun _ _ => rfl, fun _ _ _ _ => ⟨rfl, rfl, rfl, rfl, rfl, rfl, rfl, rfl, rfl⟩, fun _ _ => rfl,
    fun _ => ⟨rfl, rfl, rfl, rfl, rfl, rfl, rfl, rfl⟩⟩

/-- Settles O19: the four branches of a poll's step, each with its state written out. -/
theorem pollSmallSteps : Obligations.PollSmallSteps := by
  unfold Obligations.PollSmallSteps
  refine fun p last prim s => ⟨fun hw hv => ?_, fun hw hv => ?_, fun hw hc => ?_, fun hw hc => ?_⟩
  · exact pollStep_ok p 0#1 last prim s hw hv
  · exact pollStep_failed p 0#1 last prim s hw (by rw [hv]; decide)
  · exact pollStep_timeout p 0#1 last prim s hw (by rw [hc]; rfl)
  · exact pollStep_delay p 0#1 last prim s hw fun h => hc (BitVec.eq_of_toNat_eq h)

/-- Settles O21: the timeout's two flags are all that the two ends of a poll differ in. -/
theorem phaseTimeoutOnlyRecords : Obligations.PhaseTimeoutOnlyRecords := by
  unfold Obligations.PhaseTimeoutOnlyRecords
  refine fun s i last prim => ⟨rfl, ?_⟩
  cases last <;> rfl

section Script

variable (p : StatusPort) (target : Bit) (last : Bool) (prim : Option Primitive)

/-- The state after `k` samples that read `v`, each with its delay, under a script that goes on with `more`. -/
def afterFailures (v : Bit) (k : Nat) (more : List Bit) (rx : List Byte) (s : State) : State :=
  { s with
    pif := (·.sampled p v)^[k] s.pif, env := .script more rx, draws := s.draws + k,
    trace := s.trace ++ (List.replicate k [Event.rd p v, .tick]).flatten, cnt := s.cnt + BitVec.ofNat 8 k }

@[simp] theorem afterFailures_cnt (v : Bit) (k : Nat) (more : List Bit) (rx : List Byte) (s : State) :
    (afterFailures p v k more rx s).cnt = s.cnt + BitVec.ofNat 8 k := rfl

/-- However often a port was sampled, it holds the last answer (log 4). -/
theorem sampled_iterate (v w : Bit) (k : Nat) : ∀ q : Pif, ((·.sampled p v)^[k] q).sampled p w = q.sampled p w := by
  induction k with
  | zero => exact fun q => rfl
  | succ k ih => exact fun q => (ih (q.sampled p v)).trans (sampled_sampled q p v w)

/-- One failed sample with its delay, then `k` more. -/
theorem afterFailures_succ (v : Bit) (k : Nat) (more : List Bit) (rx : List Byte) {s : State} (hw : s.waiting = false)
    (henv : s.env = .script (List.replicate (k + 1) v ++ more) rx) :
    afterFailures p v k more rx (endDelay (beginDelay (countSample p s))) = afterFailures p v (k + 1) more rx s := by
  have hv : statusAnswer p s = v := by simp [statusAnswer, henv, Env.answer, List.replicate_succ]
  have hcnt : s.cnt + 1#8 + BitVec.ofNat 8 k = s.cnt + BitVec.ofNat 8 (k + 1) := by
    rw [BitVec.add_assoc, ← BitVec.ofNat_add, Nat.add_comm]
  simp [afterFailures, endDelay, delay, beginDelay, countSample, pifSample, hv, hw, hcnt, List.replicate_succ,
    Nat.add_assoc, Nat.add_comm 1 k]

/-- `k` failed samples below the budget take `2 * k` steps (R92). -/
theorem pollStep_failures (more : List Bit) (rx : List Byte) (k : Nat) : ∀ s : State, s.waiting = false →
    s.cnt.toNat + k < 240 → s.env = .script (List.replicate k (~~~target) ++ more) rx →
    (pollStep p target last prim)^[2 * k] s = afterFailures p (~~~target) k more rx s := by
  induction k with
  | zero => intro s _ _ henv; simp [afterFailures, ← (show s.env = .script more rx by simpa using henv)]
  | succ k ih =>
    intro s hw hc henv
    have hv : statusAnswer p s ≠ target := by
      simp [statusAnswer, henv, Env.answer, List.replicate_succ]
    have hcnt : (s.cnt + 1#8).toNat = s.cnt.toNat + 1 := cnt_succ (by omega)
    have hsample := pollStep_failed p target last prim s hw hv
    have hdelay := pollStep_delay p target last prim (beginDelay (countSample p s)) rfl
      (by rw [beginDelay_cnt, countSample_cnt, hcnt]; omega)
    rw [show 2 * (k + 1) = 2 * k + 1 + 1 by omega, Function.iterate_succ_apply, Function.iterate_succ_apply, hsample,
      hdelay, ih _ rfl (by rw [endDelay_cnt, beginDelay_cnt, countSample_cnt, hcnt]; omega)
        (by simp [henv, Env.answer, List.replicate_succ]), afterFailures_succ p _ k more rx hw henv]

/-- After `2 * k` of a poll's first steps `CNT` is `k`, as long as the answers so far have failed (R92). -/
theorem pollStep_failures_cnt {n k : Nat} {more : List Bit} {rx : List Byte} {s : State} (hc : s.cnt = 0#8)
    (hw : s.waiting = false) (henv : s.env = .script (List.replicate n (~~~target) ++ more) rx) (hk : k ≤ n)
    (hbudget : k < 240) : ((pollStep p target last prim)^[2 * k] s).cnt.toNat = k := by
  have hsplit : List.replicate n (~~~target) ++ more =
      List.replicate k (~~~target) ++ (List.replicate (n - k) (~~~target) ++ more) := by
    rw [← List.append_assoc, List.replicate_append_replicate, Nat.add_sub_cancel' hk]
  rw [pollStep_failures p target last prim (List.replicate (n - k) (~~~target) ++ more) rx k s hw (by simp [hc]; omega)
    (by rw [henv, hsplit])]
  simp [afterFailures, hc]
  omega

/-- The sample that ends the poll `Ok` after `k` failed ones (R90). -/
theorem pollStep_ends_ok {k : Nat} {rest : List Bit} {rx : List Byte} {s : State} (hc : s.cnt = 0#8)
    (hw : s.waiting = false) (henv : s.env = .script (List.replicate k (~~~target) ++ target :: rest) rx)
    (hk : k < 240) :
    (pollStep p target last prim)^[2 * k + 1] s = advance last prim { s with
      pif := s.pif.sampled p target, env := .script rest rx, draws := s.draws + (k + 1),
      trace := s.trace ++ (List.replicate k [Event.rd p (~~~target), .tick]).flatten ++ [.rd p target],
      cnt := 0#8, waiting := false, pidx := s.pidx + 1#4 } := by
  rw [Function.iterate_succ_apply',
    pollStep_failures p target last prim (target :: rest) rx k s hw (by simp [hc]; omega) henv,
    pollStep_ok p target last prim (afterFailures p (~~~target) k (target :: rest) rx s) hw rfl]
  simp [afterFailures, closePoll, countSample, pifSample, statusAnswer, Env.answer, sampled_iterate, Nat.add_assoc]

/-- The 240th failed sample: all the budget is used, and the delay after it is pending (R91, R92). -/
theorem pollStep_budget_spent {rest : List Bit} {rx : List Byte} {s : State} (hc : s.cnt = 0#8)
    (hw : s.waiting = false) (henv : s.env = .script (List.replicate 240 (~~~target) ++ rest) rx) :
    (pollStep p target last prim)^[479] s =
      beginDelay (countSample p (afterFailures p (~~~target) 239 (~~~target :: rest) rx s)) := by
  have hsplit : List.replicate 240 (~~~target) ++ rest = List.replicate 239 (~~~target) ++ (~~~target :: rest) := by
    rw [show 240 = 239 + 1 from rfl, List.replicate_succ', List.append_assoc]; rfl
  rw [show 479 = 2 * 239 + 1 from rfl, Function.iterate_succ_apply',
    pollStep_failures p target last prim (~~~target :: rest) rx 239 s hw (by simp [hc]) (by rw [henv, hsplit]),
    pollStep_failed p target last prim (afterFailures p (~~~target) 239 (~~~target :: rest) rx s) hw bit_not]

/-- The timed-out end of a poll after `k + 1` failed samples, written out. -/
theorem closePoll_timeout_after_failures (v : Bit) (k : Nat) (rest : List Bit) (rx : List Byte) (s : State) :
    closePoll .timeout (endDelay (beginDelay (countSample p (afterFailures p v k (v :: rest) rx s)))) = { s with
      pif := s.pif.sampled p v, env := .script rest rx, draws := s.draws + (k + 1),
      trace := s.trace ++ (List.replicate (k + 1) [Event.rd p v, .tick]).flatten,
      cnt := 0#8, waiting := false, pidx := s.pidx + 1#4, toMap := ToMap.set s.toMap s.pidx, toAny := true } := by
  simp [afterFailures, closePoll, raisePhaseTimeout, endDelay, delay, beginDelay, countSample, pifSample, statusAnswer,
    Env.answer, sampled_iterate, List.replicate_succ', Nat.add_assoc]

/-- The delay after the 240th failed sample ends the poll `Timeout` (R90, R92). -/
theorem pollStep_ends_timeout {rest : List Bit} {rx : List Byte} {s : State} (hc : s.cnt = 0#8)
    (hw : s.waiting = false) (henv : s.env = .script (List.replicate 240 (~~~target) ++ rest) rx) :
    (pollStep p target last prim)^[480] s = advance last prim { s with
      pif := s.pif.sampled p (~~~target), env := .script rest rx, draws := s.draws + 240,
      trace := s.trace ++ (List.replicate 240 [Event.rd p (~~~target), .tick]).flatten,
      cnt := 0#8, waiting := false, pidx := s.pidx + 1#4, toMap := ToMap.set s.toMap s.pidx, toAny := true } := by
  rw [show 480 = 479 + 1 from rfl, Function.iterate_succ_apply', pollStep_budget_spent p target last prim hc hw henv,
    pollStep_timeout p target last prim _ rfl
      (by simp only [beginDelay_cnt, countSample_cnt, afterFailures_cnt, hc]; rfl)]
  exact congrArg (advance last prim) (closePoll_timeout_after_failures p (~~~target) 239 rest rx s)

end Script

/-- Settles O20: failed samples by induction, then the sample or the delay that ends the poll. -/
theorem pollContract : Obligations.PollContract := by
  unfold Obligations.PollContract
  refine fun p target last prim s rest rx hc hw => ⟨fun n h1 hn henv => ?_, fun henv => ⟨fun k hk => ?_, ?_, ?_⟩⟩
  · obtain ⟨m, rfl⟩ : ∃ m, n = m + 1 := ⟨n - 1, by omega⟩
    refine ⟨fun k hk => ?_, ?_⟩
    · exact pollStep_failures_cnt p target last prim hc hw henv (by omega) (by omega)
    · exact pollStep_ends_ok p target last prim hc hw henv (by omega)
  · exact pollStep_failures_cnt p target last prim hc hw henv (by omega) hk
  · rw [pollStep_budget_spent p target last prim hc hw henv]
    simp only [beginDelay_cnt, countSample_cnt, afterFailures_cnt, hc]
    rfl
  · exact pollStep_ends_timeout p target last prim hc hw henv

end Sys2Proof
end

section
/-! SUPPORT. The micro-operations one by one: each action's step, the whole run, and the bound on its steps (R100 to
R110, R131, R135, R136). -/

namespace Sys2Proof

open Machine

/-- The step of a micro-operation's last action. -/
theorem exec_last {i : Instr} (hi : i.isCommand = false) {s : State} {a : Action}
    (ha : (actionsOf i s)[s.act.toNat]? = some a) (hl : s.act.toNat + 1 = (actionsOf i s).length) :
    exec i s = .next (perform a true (primitiveOf i s) s) := by
  rw [exec_micro hi, microStep_of_action ha, beq_iff_eq.2 hl]

/-- The step of a micro-operation whose list has one action. -/
theorem exec_single {i : Instr} (hi : i.isCommand = false) {s : State} {a : Action} (hl : actionsOf i s = [a])
    (hact : s.act = 0#2) : exec i s = .next (perform a true (primitiveOf i s) s) :=
  exec_last hi (by rw [hl, hact]; rfl) (by rw [hl, hact]; rfl)

/-- Settles O22: UINIT's one action. -/
theorem uinitWritesTheConfiguration : Obligations.UinitWritesTheConfiguration := by
  unfold Obligations.UinitWritesTheConfiguration
  exact fun s hact => exec_single (a := .config) rfl rfl hact

/-- Settles O27: RDEN's one action, and the ROM around its one location. -/
theorem receiveEnableRuns : Obligations.ReceiveEnableRuns := by
  unfold Obligations.ReceiveEnableRuns
  exact ⟨rfl, fun s hact => exec_single (a := .write (.rcen 1#1)) rfl rfl hact, by decide⟩

/-- Settles O28: LATCH's one action. -/
theorem latchReadsTheReceiveRegister : Obligations.LatchReadsTheReceiveRegister := by
  unfold Obligations.LatchReadsTheReceiveRegister
  exact fun s hact => exec_single (a := .latch) rfl rfl hact

/-- Settles O29: END's one action. -/
theorem endReturns : Obligations.EndReturns := by
  unfold Obligations.EndReturns
  exact fun s hact => exec_end hact

/-- Settles O30: there is no action to perform. -/
theorem actionPastTheListFaults : Obligations.ActionPastTheListFaults := by
  unfold Obligations.ActionPastTheListFaults
  intro i s hi hact
  rw [exec_micro hi, microStep, List.getElem?_eq_none hact]

/-- Settles O23: each action by its place in the list, each run by the list's shape. -/
theorem startRestartStopRun : Obligations.StartRestartStopRun := by
  unfold Obligations.StartRestartStopRun
  refine ⟨⟨?_, ?_, ?_, ?_⟩, ⟨?_, ?_, ?_, ?_, ?_⟩, ⟨?_, ?_, ?_, ?_⟩⟩
  · exact writes_at rfl (fun _ => rfl) (fun _ => by simp [actionsOf, startActions])
  · exact writes_at rfl (fun _ => rfl) (fun _ => by simp [actionsOf, startActions])
  · exact polls_at rfl (fun _ => rfl) (fun _ => rfl) (fun _ => rfl)
  · exact runs_poll rfl (fun _ => rfl) (fun _ => rfl)
  · exact writes_at rfl (fun _ => rfl) (fun _ => by simp [actionsOf, restartActions])
  · exact polls_at rfl (fun _ => rfl) (fun _ => rfl) (fun _ => rfl)
  · exact writes_at rfl (fun _ => rfl) (fun _ => by simp [actionsOf, restartActions])
  · exact fun s hact => exec_last (a := .write (.tbf 0#1)) rfl (by rw [hact]; rfl) (by rw [hact]; rfl)
  · exact runs_poll rfl (fun _ => rfl) (fun _ => rfl)
  · exact writes_at rfl (fun _ => rfl) (fun _ => by simp [actionsOf, stopActions])
  · exact writes_at rfl (fun _ => rfl) (fun _ => by simp [actionsOf, stopActions])
  · exact polls_at rfl (fun _ => rfl) (fun _ => rfl) (fun _ => rfl)
  · exact runs_poll rfl (fun _ => rfl) (fun _ => rfl)

/-- Settles O24: as START's, and no ROM location is ACK's word. -/
theorem ackNackRun : Obligations.AckNackRun := by
  unfold Obligations.AckNackRun
  refine ⟨⟨rfl, by decide, ?_, ?_, ?_, ?_⟩, ⟨rfl, ?_, ?_, ?_, ?_⟩⟩
  · exact writes_at rfl (fun _ => rfl) (fun _ => by simp [actionsOf, ackActions])
  · exact writes_at rfl (fun _ => rfl) (fun _ => by simp [actionsOf, ackActions])
  · exact polls_at rfl (fun _ => rfl) (fun _ => rfl) (fun _ => rfl)
  · exact runs_poll rfl (fun _ => rfl) (fun _ => rfl)
  · exact writes_at rfl (fun _ => rfl) (fun _ => by simp [actionsOf, nackActions])
  · exact writes_at rfl (fun _ => rfl) (fun _ => by simp [actionsOf, nackActions])
  · exact polls_at rfl (fun _ => rfl) (fun _ => rfl) (fun _ => rfl)
  · exact runs_poll rfl (fun _ => rfl) (fun _ => rfl)

/-- Settles O25: the one poll is the whole list. -/
theorem idleWaits : Obligations.IdleWaits := by
  unfold Obligations.IdleWaits
  refine ⟨rfl, ?_, ?_⟩
  · exact polls_at rfl (fun _ => rfl) (fun _ => rfl) (fun _ => rfl)
  · exact runs_poll rfl (fun _ => rfl) (fun _ => rfl)

/-- A micro-operation with WRB's action list writes its byte. -/
theorem writesByte_of_actions {i : Instr} {b : State → Byte} (hi : i.isCommand = false)
    (ha : ∀ s, actionsOf i s = wrbActions (b s)) (hp : ∀ s, primitiveOf i s = some (.writeByte (b s)))
    (hs : ∀ s, pollShape i s = some ([.txreg (b s)], .tbf, [])) : WritesByte i b := by
  refine ⟨writes_at hi (fun s => ?_) (fun s => ?_), polls_at hi (fun s => ?_) (fun s => ?_) hp, runs_poll hi hs hp⟩
  · rw [ha]; rfl
  · simp [ha, wrbActions]
  · rw [ha]; rfl
  · rw [ha]; rfl

/-- Settles O26: every operand form has WRB's action list with its own byte. -/
theorem writeByteRuns : Obligations.WriteByteRuns := by
  unfold Obligations.WriteByteRuns
  refine ⟨rfl, ?_, rfl, ?_, rfl, ?_, fun page op => ⟨?_, ?_⟩⟩
  · exact writesByte_of_actions rfl (fun _ => rfl) (fun _ => rfl) (fun _ => rfl)
  · exact writesByte_of_actions rfl (fun _ => rfl) (fun _ => rfl) (fun _ => rfl)
  · exact writesByte_of_actions rfl (fun _ => rfl) (fun _ => rfl) (fun _ => rfl)
  · revert page op; decide
  · exact writesByte_of_actions rfl (fun _ => rfl) (fun _ => rfl) (fun _ => rfl)

/-- A poll takes 1 to 480 steps (R92). -/
theorem pollOutcome_steps_bounds {o : PollOutcome} (h : legalWithin 240 o) : 1 ≤ o.steps ∧ o.steps ≤ 480 := by
  cases o with
  | ok n =>
    obtain ⟨h1, h2⟩ := h
    simp only [PollOutcome.steps]
    omega
  | timeout => decide

/-- No list of R110 has more than three writes around its poll. -/
theorem pollShape_writes {i : Instr} {s : State} {pre : List PortWrite} {p : StatusPort} {post : List PortWrite}
    (h : pollShape i s = some (pre, p, post)) : pre.length + post.length ≤ 3 := by
  cases i <;> simp only [pollShape, reduceCtorEq, Option.some.injEq, Prod.mk.injEq] at h <;>
    obtain ⟨rfl, -, rfl⟩ := h <;> simp

/-- A whole micro-operation takes 1 to 483 steps (R92, R110). -/
theorem microSteps_bounds {i : Instr} (hi : i.isCommand = false) (he : i ≠ .endOp) {s : State} (hs : AtStart s) :
    1 ≤ microSteps i s ∧ microSteps i s ≤ 483 := by
  rcases hshape : pollShape i s with _ | ⟨pre, p, post⟩
  · have hone : microSteps i s = 1 := by
      cases i with
      | init sel raddr data => cases hi
      | wrreg sel raddr data => cases hi
      | rdreg sel raddr data => cases hi
      | endOp => exact absurd rfl he
      | uinit => rfl
      | rden => rfl
      | latch => rfl
      | _ => cases hshape
    omega
  · obtain ⟨o, hpolled, hsteps⟩ := polled_micro hshape hs
    have hpoll := pollOutcome_steps_bounds hpolled.legal
    have hwrites := pollShape_writes hshape
    omega

/-- Settles O31: the steps of the action list run it whole, and there are at most 483. -/
theorem microStepsRunTheAlgorithm : Obligations.MicroStepsRunTheAlgorithm := by
  unfold Obligations.MicroStepsRunTheAlgorithm
  intro i s hi he hs
  obtain ⟨hpos, hle⟩ := microSteps_bounds hi he hs
  exact ⟨microSteps i s, hpos, hle, exec_runs_micro hi he hs⟩

end Sys2Proof
end

section
/-! SUPPORT. Frames: what the step of a micro-operation leaves alone in the device, CORE, the ports and the flags (R21,
R22, R29 to R37, R50, R110). -/

namespace Sys2Proof

open Machine

/-- Only WRB writes `TXREG` (R110). -/
theorem portWrites_ne_txreg {i : Instr} (hi : isWrb i = false) {s : State} {a : Action} (ha : a ∈ actionsOf i s) :
    ∀ w ∈ a.portWrites, ∀ b, w ≠ .txreg b := by
  rintro w hw b rfl
  have hlegal : isWrb i = true := (access_ok ha).1 _ hw
  simp [hi] at hlegal

/-- Action `L` is LATCH's (R135). -/
theorem instr_of_latch {i : Instr} {s : State} (ha : Action.latch ∈ actionsOf i s) : i = .latch := by
  simpa [accessLegal] using (access_ok ha).2.2 rfl 0#8

/-- Settles O32: an action without a `TXREG` write leaves the device's bytes, and each of the three exceptions is its
own action. -/
theorem frameOfTheSilentMicroOperations : Obligations.FrameOfTheSilentMicroOperations := by
  unfold Obligations.FrameOfTheSilentMicroOperations
  intro i hi s t h
  obtain ⟨hcommand, hwrb⟩ : i.isCommand = false ∧ isWrb i = false := by
    fin_cases hi <;> exact ⟨rfl, rfl⟩
  obtain ⟨a, ha, rfl⟩ := exec_micro_next hcommand h
  have hmem := List.mem_of_getElem? ha
  obtain ⟨hconfig, hfinish⟩ := action_kinds ha
  refine ⟨deviceByteAt_perform (portWrites_ne_txreg hwrb hmem) _ _ s, fun c => by rw [perform_rom], perform_sel a _ _ s,
    perform_raddr a _ _ s, perform_wdata a _ _ s, perform_host a _ _ s, perform_hostSeen a _ _ s, fun hne => ?_,
    fun hne => perform_inited a _ _ s (mt hconfig.1 hne),
    fun hne => ⟨perform_run a _ _ s (mt hfinish.1 hne), perform_done a _ _ s (mt hfinish.1 hne)⟩⟩
  have hlatch : a ≠ .latch := by rintro rfl; exact hne (instr_of_latch hmem)
  exact ⟨perform_result a _ _ s hlatch, perform_resultValid a _ _ s hlatch⟩

/-- A port write or a poll keeps all that KeepsRest names. -/
theorem keepsRest_perform {a : Action} (hlatch : a ≠ .latch) (hconfig : a ≠ .config) (hfinish : a ≠ .finish)
    (last : Bool) (prim : Option Primitive) (s : State) : KeepsRest s (perform a last prim s) where
  sel := perform_sel a last prim s
  raddr := perform_raddr a last prim s
  wdata := perform_wdata a last prim s
  result := perform_result a last prim s hlatch
  resultValid := perform_resultValid a last prim s hlatch
  run := perform_run a last prim s hfinish
  done := perform_done a last prim s hfinish
  inited := perform_inited a last prim s hconfig
  rom := perform_rom a last prim s
  host := perform_host a last prim s
  hostSeen := perform_hostSeen a last prim s

/-- The device's bytes after a write of `TXREG`: stored at the target where a data byte is awaited (D16). -/
theorem deviceByteAt_txreg (b : Byte) (last : Bool) (prim : Option Primitive) (s : State) (c : Nat) :
    deviceByteAt (perform (.write (.txreg b)) last prim s) c = (envDevice s.env).map fun v =>
      Memory.read .device (if v.ds = .dataW then Memory.write .device v.mem v.target b else v.mem) c := by
  rw [deviceByteAt_eq, envDevice_perform, Option.map_map]
  congr 1
  funext v
  exact congrArg (Memory.read .device · c) (byte_mem v b)

/-- Where the device awaits a data byte, that byte alone changes. -/
theorem deviceByteAt_txreg_stored {s : State} {a : Nat} (h : deviceStoreAddress s = some a) (b : Byte) (last : Bool)
    (prim : Option Primitive) :
    deviceByteAt (perform (.write (.txreg b)) last prim s) a = some b ∧
      ∀ c, c ≠ a → deviceByteAt (perform (.write (.txreg b)) last prim s) c = deviceByteAt s c := by
  rw [deviceStoreAddress_eq, Option.bind_eq_some_iff] at h
  obtain ⟨v, hv, h⟩ := h
  obtain ⟨hds, rfl⟩ : v.ds = .dataW ∧ v.target = a := by simpa using h
  refine ⟨?_, fun c hc => ?_⟩
  · rw [deviceByteAt_txreg, hv, Option.map_some, if_pos hds, read_write_same]
  · rw [deviceByteAt_txreg, deviceByteAt_eq, hv, Option.map_some, Option.map_some, if_pos hds,
      read_write_other _ _ _ _ _ hc]

/-- Where it awaits none, no byte changes. -/
theorem deviceByteAt_txreg_ignored {s : State} (h : deviceStoreAddress s = none) (b : Byte) (last : Bool)
    (prim : Option Primitive) (c : Nat) :
    deviceByteAt (perform (.write (.txreg b)) last prim s) c = deviceByteAt s c := by
  rw [deviceByteAt_txreg, deviceByteAt_eq]
  rw [deviceStoreAddress_eq] at h
  cases hv : envDevice s.env with
  | none => rfl
  | some v =>
    have hds : v.ds ≠ .dataW := by simpa [hv] using h
    rw [Option.map_some, Option.map_some, if_neg hds]

/-- The two actions of WRB, by `ACT` (R108). -/
theorem wrbActions_getElem? {b : Byte} {n : BitVec 2} {a : Action} (h : (wrbActions b)[n.toNat]? = some a) :
    (n = 0#2 ∧ a = .write (.txreg b)) ∨ (n ≠ 0#2 ∧ a = .poll .tbf 0#1) := by
  have hlen : n.toNat < 2 := (List.getElem?_eq_some_iff.1 h).1
  by_cases hn : n = 0#2
  · subst hn; exact .inl ⟨rfl, (Option.some.inj h).symm⟩
  · have hone : n.toNat = 1 := by
      have : n.toNat ≠ 0 := fun h0 => hn (BitVec.eq_of_toNat_eq h0)
      omega
    rw [hone] at h
    exact .inr ⟨hn, (Option.some.inj h).symm⟩

/-- The frame of a micro-operation with WRB's action list. -/
theorem wrb_frame {i : Instr} {b : State → Byte} (hi : i.isCommand = false)
    (hl : ∀ s, actionsOf i s = wrbActions (b s)) {s t : State} (h : exec i s = .next t) :
    KeepsRest s t ∧
      (s.act = 0#2 → ∀ a, deviceStoreAddress s = some a →
        deviceByteAt t a = some (b s) ∧ ∀ c, c ≠ a → deviceByteAt t c = deviceByteAt s c) ∧
      (s.act = 0#2 → deviceStoreAddress s = none → ∀ c, deviceByteAt t c = deviceByteAt s c) ∧
      (s.act ≠ 0#2 → ∀ c, deviceByteAt t c = deviceByteAt s c) := by
  obtain ⟨a, ha, rfl⟩ := exec_micro_next hi h
  rw [hl] at ha ⊢
  rcases wrbActions_getElem? ha with ⟨hact, rfl⟩ | ⟨hact, rfl⟩
  · exact ⟨keepsRest_perform (by simp) (by simp) (by simp) _ _ s,
      fun _ _ hstore => deviceByteAt_txreg_stored hstore _ _ _,
      fun _ hnone => deviceByteAt_txreg_ignored hnone _ _ _, fun hne => absurd hact hne⟩
  · exact ⟨keepsRest_perform (by simp) (by simp) (by simp) _ _ s, fun h0 => absurd h0 hact, fun h0 => absurd h0 hact,
      fun _ => deviceByteAt_perform (by simp [Action.portWrites]) _ _ s⟩

/-- Settles O33: every operand form has WRB's action list with its own byte. -/
theorem frameOfWriteByte : Obligations.FrameOfWriteByte := by
  unfold Obligations.FrameOfWriteByte
  intro i b hi s t h
  obtain ⟨hcommand, hl⟩ : i.isCommand = false ∧ ∀ s, actionsOf i s = wrbActions (b s) := by
    simp only [List.mem_cons, Prod.mk.injEq, List.not_mem_nil, or_false] at hi
    rcases hi with ⟨rfl, rfl⟩ | ⟨rfl, rfl⟩ | ⟨rfl, rfl⟩ | ⟨rfl, rfl⟩ | ⟨rfl, rfl⟩ | ⟨rfl, rfl⟩ | ⟨rfl, rfl⟩ <;>
      exact ⟨rfl, fun _ => rfl⟩
  exact wrb_frame hcommand hl h

/-- The ports after one event: the port it accesses holds the value transferred (log 4). -/
def pifAfter (q : Pif) : Event → Pif
  | .wr w => q.put w
  | .rd p v => q.sampled p v
  | .rdRx b => { q with rxreg := b }
  | .tick => q

/-- An action but END's is one event, allowed by the port tables, and the ports follow it. -/
theorem perform_event {i : Instr} {s : State} {a : Action} (ha : a ∈ actionsOf i s) (last : Bool)
    (prim : Option Primitive) :
    ((perform a last prim s).trace = s.trace ∧ (perform a last prim s).pif = s.pif) ∨
    ∃ e, accessLegal i e = true ∧ (perform a last prim s).trace = s.trace ++ [e] ∧
      (perform a last prim s).pif = pifAfter s.pif e := by
  obtain ⟨hwrite, hpoll, hlatch⟩ := access_ok ha
  cases a with
  | write w =>
    exact .inr ⟨.wr w, hwrite w (by simp [Action.portWrites]), by simp [perform], by simp [perform, pifAfter]⟩
  | config =>
    exact .inr ⟨.wr (.cfg configRecord), hwrite _ (by simp [Action.portWrites]), by simp [perform],
      by simp [perform, pifAfter]⟩
  | latch => exact .inr ⟨.rdRx (rxAnswer s), hlatch rfl _, by simp [perform], by simp [perform, pifAfter]⟩
  | finish => exact .inl ⟨rfl, rfl⟩
  | poll p target =>
    obtain ⟨hsample, htick⟩ := hpoll p target rfl (statusAnswer p s)
    right
    rcases pollStep_cases last prim s p target with ⟨-, -, he⟩ | ⟨-, -, he⟩ | ⟨-, -, he⟩ | ⟨-, -, he⟩ <;>
      simp only [perform, he]
    · exact ⟨.tick, htick, by simp, by simp [pifAfter]⟩
    · exact ⟨.tick, htick, by simp, by simp [pifAfter]⟩
    · exact ⟨.rd p (statusAnswer p s), hsample, by simp, by simp [pifAfter]⟩
    · exact ⟨.rd p (statusAnswer p s), hsample, by simp, by simp [pifAfter]⟩

/-- Ports `q` with the ports of a micro-operation's row of R110 taken from `r`. -/
def rowPorts (i : Instr) (q r : Pif) : Pif :=
  match i with
  | .init _ _ _ | .wrreg _ _ _ | .rdreg _ _ _ | .endOp => q
  | .uinit => { q with cfg := r.cfg }
  | .start => { q with ackdt := r.ackdt, reqStart := r.reqStart, staStart := r.staStart }
  | .restart => { q with reqRestart := r.reqRestart, staRestart := r.staRestart, ackdt := r.ackdt, tbf := r.tbf }
  | .stop => { q with rcen := r.rcen, reqStop := r.reqStop, staStop := r.staStop }
  | .ack | .nack => { q with ackdt := r.ackdt, reqAck := r.reqAck, staAck := r.staAck }
  | .idle => { q with staTrstat := r.staTrstat }
  | .wrbHi | .wrbLo | .wrbD | .wrbA _ _ => { q with txreg := r.txreg, tbf := r.tbf }
  | .rden => { q with rcen := r.rcen }
  | .latch => { q with rxreg := r.rxreg }

theorem rowPorts_self (i : Instr) (q : Pif) : rowPorts i q q = q := by
  cases i <;> rfl

theorem rowPorts_wrb {i : Instr} (hi : isWrb i = true) (q r : Pif) :
    rowPorts i q r = { q with txreg := r.txreg, tbf := r.tbf } := by
  cases i with
  | wrbHi | wrbLo | wrbD | wrbA page op => rfl
  | _ => cases hi

/-- An event the tables allow a micro-operation is on a port of its row. -/
theorem pifAfter_rowPorts {i : Instr} {e : Event} (h : accessLegal i e = true) (q : Pif) :
    pifAfter q e = rowPorts i q (pifAfter q e) := by
  rcases e with w | ⟨p, v⟩ | b | _
  · cases w <;> simp only [accessLegal, Bool.and_eq_true, Bool.or_eq_true, beq_iff_eq] at h
    case reqStart => obtain ⟨-, rfl⟩ := h; rfl
    case reqRestart => obtain ⟨-, rfl⟩ := h; rfl
    case reqStop => obtain ⟨-, rfl⟩ := h; rfl
    case reqAck => obtain ⟨-, rfl | rfl⟩ := h <;> rfl
    case ackdt => obtain ⟨-, (rfl | rfl) | rfl⟩ | ⟨-, rfl⟩ := h <;> rfl
    case rcen => obtain ⟨-, rfl⟩ | ⟨-, rfl⟩ := h <;> rfl
    case tbf => obtain ⟨-, rfl⟩ := h; rfl
    case txreg => rw [rowPorts_wrb h]; rfl
    case cfg => obtain ⟨-, rfl⟩ := h; rfl
  · cases p <;> simp only [accessLegal, Bool.or_eq_true, beq_iff_eq] at h
    case staStart => subst h; rfl
    case staRestart => subst h; rfl
    case staStop => subst h; rfl
    case staAck => obtain rfl | rfl := h <;> rfl
    case staTrstat => subst h; rfl
    case tbf => rw [rowPorts_wrb h]; rfl
  · simp only [accessLegal, beq_iff_eq] at h
    subst h
    rfl
  · exact (rowPorts_self i q).symm

/-- A micro-operation's step changes only the ports of its row. -/
theorem exec_rowPorts {i : Instr} (hi : i.isCommand = false) {s t : State} (h : exec i s = .next t) :
    t.pif = rowPorts i s.pif t.pif := by
  obtain ⟨a, ha, rfl⟩ := exec_micro_next hi h
  rcases perform_event (List.mem_of_getElem? ha) (s.act.toNat + 1 == (actionsOf i s).length) (primitiveOf i s) with
    ⟨-, hpif⟩ | ⟨e, he, -, hpif⟩ <;> rw [hpif]
  · exact (rowPorts_self i s.pif).symm
  · exact pifAfter_rowPorts he s.pif

/-- Settles O34: the row of each micro-operation. -/
theorem frameOfThePorts : Obligations.FrameOfThePorts := by
  unfold Obligations.FrameOfThePorts
  intro s t
  refine ⟨exec_rowPorts rfl, exec_rowPorts rfl, exec_rowPorts rfl, exec_rowPorts rfl,
    fun h => h.elim (exec_rowPorts rfl) (exec_rowPorts rfl), exec_rowPorts rfl, ?_, exec_rowPorts rfl,
    exec_rowPorts rfl, exec_rowPorts rfl⟩
  rintro (h | h | h | ⟨page, op, h⟩)
  · exact exec_rowPorts rfl h
  · exact exec_rowPorts rfl h
  · exact exec_rowPorts rfl h
  · exact exec_rowPorts rfl h

/-- An action that is no poll leaves the flags and the poll's counters (R27, R29). -/
theorem perform_counters {a : Action} (ha : a.isPoll = false) (last : Bool) (prim : Option Primitive) (s : State) :
    (perform a last prim s).toMap = s.toMap ∧ (perform a last prim s).toAny = s.toAny ∧
      (perform a last prim s).pidx = s.pidx ∧ (perform a last prim s).cnt = s.cnt ∧
      (perform a last prim s).waiting = s.waiting := by
  cases a with
  | poll p target => cases ha
  | _ => simp [perform]

/-- A poll's step leaves the flags, or it is the one after the 240th failed sample and records the timeout (R92). -/
theorem pollStep_flags (p : StatusPort) (target : Bit) (last : Bool) (prim : Option Primitive) (s : State) :
    ((pollStep p target last prim s).toMap = s.toMap ∧ (pollStep p target last prim s).toAny = s.toAny) ∨
    (s.waiting = true ∧ s.cnt = 240#8 ∧ (pollStep p target last prim s).toMap = ToMap.set s.toMap s.pidx ∧
      (pollStep p target last prim s).toAny = true ∧ (pollStep p target last prim s).pidx = s.pidx + 1#4) := by
  rcases pollStep_cases last prim s p target with ⟨hw, hc, he⟩ | ⟨-, -, he⟩ | ⟨-, -, he⟩ | ⟨-, -, he⟩ <;> rw [he]
  · exact .inr ⟨hw, BitVec.eq_of_toNat_eq hc, by simp, by simp, by simp⟩
  · exact .inl ⟨by simp, by simp⟩
  · exact .inl ⟨by simp, by simp⟩
  · exact .inl ⟨by simp, by simp⟩

/-- END, UINIT, RDEN and LATCH have no poll (R110). -/
theorem isPoll_of_pollFree {i : Instr} (hi : i ∈ [Instr.endOp, .uinit, .rden, .latch]) {s : State} {a : Action}
    (ha : a ∈ actionsOf i s) : a.isPoll = false := by
  have hflags : pollFlags i = [false] := by fin_cases hi <;> rfl
  have hmem : a.isPoll ∈ pollFlags i := map_isPoll i s ▸ List.mem_map_of_mem ha
  simpa [hflags] using hmem

/-- Settles O35: only a poll's step can record a timeout. -/
theorem frameOfTheTimeoutFlags : Obligations.FrameOfTheTimeoutFlags := by
  unfold Obligations.FrameOfTheTimeoutFlags
  intro i s t hi h
  obtain ⟨a, ha, rfl⟩ := exec_micro_next hi h
  refine ⟨?_, fun hfree => perform_counters (isPoll_of_pollFree hfree (List.mem_of_getElem? ha)) _ _ s⟩
  cases a with
  | poll p target => exact pollStep_flags p target _ _ s
  | _ => exact .inl (by simp [perform])

end Sys2Proof
end

section
/-! SUPPORT. HOST's side of a step: its next input, the commands it presents and the outputs it reads; reset, the ROM
and the phases (R40, R41, R75, R79, R80, R111, R130, R180). -/

namespace Sys2Proof

open Machine

/-- HOST's next input is taken at once while `RUN = 0`. -/
theorem hostTurn_idle {s : State} {x : HostInput} {rest : List HostInput} (hr : s.run = false)
    (hs : s.host = x :: rest) : hostTurn s = some (x.act, { s with host := rest }) := by
  unfold hostTurn
  rw [hs]
  cases hx : x.timing <;> simp [hr, hx]

/-- An input that does not wait for END is taken whatever `RUN` is. -/
theorem hostTurn_now {s : State} {act : HostAct} {rest : List HostInput} (hs : s.host = ⟨.now, act⟩ :: rest) :
    hostTurn s = some (act, { s with host := rest }) := by
  unfold hostTurn
  rw [hs]

/-- A step that takes an input of HOST is HOST's step. -/
theorem step_of_hostTurn {s s' : State} {a : HostAct} (h : hostTurn s = some (a, s')) : step s = hostStep a s' := by
  rw [step, h]

/-- Settles O4: the decoder's tests of `zero` and `op`, and HOST's step where they fail. -/
theorem reservedCommandWordsRefused : Obligations.ReservedCommandWordsRefused := by
  unfold Obligations.ReservedCommandWordsRefused
  refine fun w => ⟨decodeCommand_error_iff w, ?_⟩
  rintro s tm rest hr hs ⟨e, he⟩
  rw [step_of_hostTurn (hostTurn_idle hr hs), hostStep, if_neg (by simp [hr]), he]

/-- Settles O10: the values as reset writes them. -/
theorem resetValues : Obligations.ResetValues := by
  unfold Obligations.ResetValues
  exact ⟨rfl, rfl, rfl, rfl, rfl, rfl, rfl, rfl, rfl, rfl⟩

/-- Settles O12: CORE's step where HOST does not move, HOST's step where it presents a word. -/
theorem stepRunsTheDecodedInstruction : Obligations.StepRunsTheDecodedInstruction := by
  unfold Obligations.StepRunsTheDecodedInstruction
  refine ⟨fun s i hr hw hi => step_of_run hr hw hi, fun s i w tm rest hr hs hi => ?_, fun s hr hs => ?_⟩
  · rw [step_of_hostTurn (hostTurn_idle hr hs), hostStep, if_neg (by simp [hr]), hi]
  · have hturn : hostTurn s = none := by rw [hostTurn, hs]
    rw [step, hturn, coreStep, if_neg (by simp [hr])]

/-- Settles O13: HOST's step looks at `RUN` before it decodes the word. -/
theorem wordPresentedWhileRunningRefused : Obligations.WordPresentedWhileRunningRefused := by
  unfold Obligations.WordPresentedWhileRunningRefused
  intro s w rest hr hs
  rw [step_of_hostTurn (hostTurn_now hs), hostStep, if_pos hr]

/-- Settles O14: the 64 locations, decoded. -/
theorem romHoldsTheRoutines : Obligations.RomHoldsTheRoutines := by
  unfold Obligations.RomHoldsTheRoutines
  exact ⟨by decide, by decide, by decide, by decide⟩

/-- Settles O15: the table, address by address, and R40's rule for `RUN`. -/
theorem phasesOfTheRoutines : Obligations.PhasesOfTheRoutines := by
  unfold Obligations.PhasesOfTheRoutines
  exact ⟨by decide, by decide, fun s => ⟨fun hr => if_neg (by simp [hr]), fun hr => if_pos hr⟩⟩

/-- Settles O16: acceptance, written out. -/
theorem commandsAccepted : Obligations.CommandsAccepted := by
  unfold Obligations.CommandsAccepted
  exact fun s sel raddr data hr => ⟨fun hi => exec_init hr hi sel raddr data, fun hi => exec_wrreg hr hi sel raddr data,
    fun hi => exec_rdreg hr hi sel raddr data⟩

/-- Settles O17: the tests of `RUN` and `INITED` in the order R130 names them. -/
theorem commandsRefused : Obligations.CommandsRefused := by
  unfold Obligations.CommandsRefused
  refine fun s sel raddr data => ⟨fun hr => ⟨?_, ?_, ?_⟩, fun hr hi => ⟨?_, ?_⟩, fun hr hi => ?_⟩
  · exact if_pos hr
  · exact if_pos hr
  · exact if_pos hr
  · simp [exec, execWrreg, hr, hi]
  · simp [exec, execRdreg, hr, hi]
  · simp [exec, execInit, hr, hi]

/-- HOST's read of an output that means something only after END (R180). -/
theorem readAfterRun_running {s : State} (hr : s.run = true) (v : HostReading) :
    readAfterRun v s = .refused .outputReadWhileRunning := if_pos hr

theorem readAfterRun_idle {s : State} (hr : s.run = false) (v : HostReading) :
    readAfterRun v s = .next (hostSees v s) := if_neg (by simp [hr])

/-- HOST's read of `RESULT` after END gives what the validity bit makes of it (R42, log 10). -/
theorem hostRead_result {s : State} (hr : s.run = false) {v : HostReading} (hv : resultReading s = v) :
    hostRead .result s = .next (hostSees v s) := by
  rw [hostRead, hv, readAfterRun_idle hr]

/-- Settles O53: HOST's step at each output, with `RUN` and the validity bit of `RESULT`. -/
theorem hostReadsTheOutputs : Obligations.HostReadsTheOutputs := by
  unfold Obligations.HostReadsTheOutputs
  intro s r tm rest
  refine ⟨fun hs => ?_, fun hs hr => ?_⟩
  · rw [step_of_hostTurn (hostTurn_now hs), hostStep]
    refine ⟨?_, ?_, fun hr => ?_⟩
    · rintro rfl; rfl
    · rintro rfl; rfl
    · rintro (rfl | rfl | rfl) <;> exact readAfterRun_running (s := { s with host := rest }) hr _
  · rw [step_of_hostTurn (hostTurn_idle hr hs), hostStep]
    refine ⟨?_, ?_, ?_, ?_, ?_, ?_⟩ <;> rintro rfl
    · rw [hostRead, hr]; rfl
    · rfl
    · exact readAfterRun_idle (s := { s with host := rest }) hr _
    · exact readAfterRun_idle (s := { s with host := rest }) hr _
    · exact fun hv => hostRead_result (s := { s with host := rest }) hr (if_pos hv)
    · exact fun hv => hostRead_result (s := { s with host := rest }) hr (if_neg (by simp [hv]))

end Sys2Proof
end

section
/-! SUPPORT. Rules of the whole machine, each read off the four kinds of step, and what a step does not read (R21 to
R29, R31, R39, R60, R64, R138). -/

namespace Sys2Proof

open Machine

/-- Settles O36: of the four kinds of step only acceptance writes a latch. -/
theorem latchesChangeOnlyAtAcceptance : Obligations.LatchesChangeOnlyAtAcceptance := by
  unfold Obligations.LatchesChangeOnlyAtAcceptance
  intro s t h
  rcases step_cases h with ⟨v, rest, rfl⟩ | ⟨hr, rest, entry, sel, raddr, data, rfl, -⟩ |
    ⟨-, -, i, a, -, -, -, rfl⟩ | ⟨-, rfl⟩
  · exact .inl ⟨rfl, rfl, rfl⟩
  · exact .inr ⟨hr, rfl⟩
  · exact .inl ⟨perform_sel a _ _ s, perform_raddr a _ _ s, perform_wdata a _ _ s⟩
  · exact .inl ⟨rfl, rfl, rfl⟩

/-- Settles O37: of all actions only `L` writes `RESULT`, and it is LATCH's. -/
theorem resultWrittenOnlyByLatch : Obligations.ResultWrittenOnlyByLatch := by
  unfold Obligations.ResultWrittenOnlyByLatch
  intro s t h
  rcases step_cases h with ⟨v, rest, rfl⟩ | ⟨-, rest, entry, sel, raddr, data, rfl, -⟩ |
    ⟨hr, -, i, a, hi, -, ha, rfl⟩ | ⟨-, rfl⟩
  · exact .inl ⟨rfl, rfl⟩
  · exact .inl ⟨rfl, rfl⟩
  · by_cases hlatch : a = .latch
    · subst hlatch
      obtain rfl := instr_of_latch (List.mem_of_getElem? ha)
      exact .inr ⟨hr, hi, by simp [perform], by simp [perform]⟩
    · exact .inl ⟨perform_result a _ _ s hlatch, perform_resultValid a _ _ s hlatch⟩
  · exact .inl ⟨rfl, rfl⟩

/-- Settles O38: acceptance writes an entry address, an action leaves `UPC` or goes on by 1. -/
theorem upcOnlySetAtAcceptanceOrIncremented : Obligations.UpcOnlySetAtAcceptanceOrIncremented := by
  unfold Obligations.UpcOnlySetAtAcceptanceOrIncremented
  intro s t h
  rcases step_cases h with ⟨v, rest, rfl⟩ | ⟨hr, rest, entry, sel, raddr, data, rfl, hentry⟩ |
    ⟨hr, -, i, a, -, -, -, rfl⟩ | ⟨-, rfl⟩
  · exact .inl rfl
  · refine .inr (.inr ⟨hr, rfl, ?_⟩)
    rcases hentry with ⟨rfl, -⟩ | ⟨rfl | rfl, -⟩
    · exact .inr (.inr rfl)
    · exact .inl rfl
    · exact .inr (.inl rfl)
  · rcases upc_perform a (s.act.toNat + 1 == (actionsOf i s).length) (primitiveOf i s) s with
      hupc | ⟨hupc, hact, hfinish⟩
    · exact .inl hupc
    · exact .inr (.inl ⟨hr, (perform_run a _ _ s hfinish).trans hr, hupc, hact⟩)
  · exact .inl rfl

/-- No step writes the ROM (R64). -/
theorem step_rom {s t : State} (h : step s = .next t) : t.rom = s.rom := by
  rcases step_cases h with ⟨v, rest, rfl⟩ | ⟨-, rest, entry, sel, raddr, data, rfl, -⟩ |
    ⟨-, -, i, a, -, -, -, rfl⟩ | ⟨-, rfl⟩
  · rfl
  · rfl
  · exact perform_rom a _ _ s
  · rfl

/-- Settles O39: the ROM stays, and one without listed cells reads as R79. -/
theorem romNeverChanges : Obligations.RomNeverChanges := by
  unfold Obligations.RomNeverChanges
  refine fun s t h => ⟨step_rom h, fun hrom a => ?_⟩
  rw [step_rom h, hrom]
  rfl

/-- Settles O42: only an action reaches the PIF, by one event its micro-operation is allowed. -/
theorem portAccessesAreThoseOfTheTables : Obligations.PortAccessesAreThoseOfTheTables := by
  unfold Obligations.PortAccessesAreThoseOfTheTables
  intro s t h
  rcases step_cases h with ⟨v, rest, rfl⟩ | ⟨-, rest, entry, sel, raddr, data, rfl, -⟩ |
    ⟨hr, -, i, a, hi, -, ha, rfl⟩ | ⟨-, rfl⟩
  · exact .inl rfl
  · exact .inl rfl
  · rcases perform_event (List.mem_of_getElem? ha) (s.act.toNat + 1 == (actionsOf i s).length) (primitiveOf i s) with
      ⟨htrace, -⟩ | ⟨e, he, htrace, -⟩
    · exact .inl htrace
    · exact .inr ⟨e, i, htrace, hr, hi, he⟩
  · exact .inl rfl

/-- CORE's step while a routine runs is one action of the micro-operation at `UPC` (R131). -/
theorem coreStep_perform {s t : State} (hr : s.run = true) (h : coreStep s = .next t) :
    ∃ i a, currentInstr s = .ok i ∧ (actionsOf i s)[s.act.toNat]? = some a ∧
      t = perform a (s.act.toNat + 1 == (actionsOf i s).length) (primitiveOf i s) s := by
  rw [coreStep, if_pos hr] at h
  split at h
  · rename_i i hi
    obtain ⟨a, ha, ht⟩ := exec_micro_next (decodeMicro_not_command hi) h
    exact ⟨i, a, hi, ha, ht⟩
  · cases h

/-- Settles O40: the same action, which reads neither flag. -/
theorem timeoutFlagsNeverRead : Obligations.TimeoutFlagsNeverRead := by
  unfold Obligations.TimeoutFlagsNeverRead
  intro s t m b hr hw h
  obtain ⟨i, a, hi, ha, rfl⟩ := coreStep_perform hr (step_eq_coreStep hr hw ▸ h)
  obtain ⟨m', b', heq⟩ := perform_flags a (s.act.toNat + 1 == (actionsOf i s).length) (primitiveOf i s) s m b
  refine ⟨m', b', ?_⟩
  rw [← heq, step_eq_coreStep (s := { s with toMap := m, toAny := b }) hr hw]
  exact coreStep_of_action (s := { s with toMap := m, toAny := b }) hr hi ha

/-- Settles O43: the same action, which reads no pending input. -/
theorem hostCannotDisturbARoutine : Obligations.HostCannotDisturbARoutine := by
  unfold Obligations.HostCannotDisturbARoutine
  intro s t inputs hr hw hw' h
  obtain ⟨i, a, hi, ha, rfl⟩ := coreStep_perform hr (step_eq_coreStep hr hw ▸ h)
  rw [← perform_host_irrelevant, step_eq_coreStep (s := { s with host := inputs }) hr hw']
  exact coreStep_of_action (s := { s with host := inputs }) hr hi ha

section History

variable (q : Pif) (tr : List Event)

/-- Which input HOST moves with does not depend on the ports or the history. -/
theorem hostTurn_history {s s' : State} {a : HostAct} (h : hostTurn s = some (a, s')) :
    hostTurn { s with pif := q, trace := tr } = some (a, { s' with pif := q, trace := tr }) := by
  obtain ⟨⟨timing, act⟩, rest, hs, rfl, rfl, hnow | hr⟩ := hostTurn_some h
  · obtain rfl : timing = .now := hnow
    exact hostTurn_now (s := { s with pif := q, trace := tr }) hs
  · exact hostTurn_idle (s := { s with pif := q, trace := tr }) hr hs

theorem hostTurn_none_history {s : State} (h : hostTurn s = none) :
    hostTurn { s with pif := q, trace := tr } = none := by
  cases hturn : hostTurn { s with pif := q, trace := tr } with
  | none => rfl
  | some x =>
    obtain ⟨a, s'⟩ := x
    cases h.symm.trans (hostTurn_history (s := { s with pif := q, trace := tr }) s.pif s.trace hturn)

/-- A command is accepted alike whatever the ports and the history hold, and adds no event. -/
theorem exec_command_history {i : Instr} (hi : i.isCommand = true) {s t : State} (h : exec i s = .next t) :
    t.trace = s.trace ∧
      exec i { s with pif := q, trace := tr } = .next { t with pif := q, trace := tr } := by
  obtain ⟨hr, entry, sel, raddr, data, rfl, ⟨rfl, rfl, hinit⟩ | ⟨rfl, rfl, hinit⟩ | ⟨rfl, rfl, hinit⟩⟩ :=
    exec_command_next hi h
  · exact ⟨rfl, exec_init (s := { s with pif := q, trace := tr }) hr hinit sel raddr data⟩
  · exact ⟨rfl, exec_wrreg (s := { s with pif := q, trace := tr }) hr hinit sel raddr data⟩
  · exact ⟨rfl, exec_rdreg (s := { s with pif := q, trace := tr }) hr hinit sel raddr data⟩

/-- So is an output read. -/
theorem hostRead_history {r : HostReg} {s t : State} (h : hostRead r s = .next t) :
    t.trace = s.trace ∧
      hostRead r { s with pif := q, trace := tr } = .next { t with pif := q, trace := tr } := by
  cases r <;> simp only [hostRead, readAfterRun] at h ⊢
  case busy => cases h; exact ⟨rfl, rfl⟩
  case done => cases h; exact ⟨rfl, rfl⟩
  all_goals
    split at h
    · cases h
    · cases h; exact ⟨rfl, if_neg ‹_›⟩

/-- HOST's step neither reads the ports and the history nor writes them. -/
theorem hostStep_history {a : HostAct} {s t : State} (h : hostStep a s = .next t) :
    t.trace = s.trace ∧
      hostStep a { s with pif := q, trace := tr } = .next { t with pif := q, trace := tr } := by
  cases a with
  | read r => exact hostRead_history q tr h
  | present w =>
    simp only [hostStep] at h ⊢
    split at h
    · cases h
    · rename_i hr
      rw [if_neg hr]
      split at h
      · exact exec_command_history q tr (decodeCommand_command ‹_›) h
      · cases h

/-- CORE's step appends the same events whatever the ports and the history hold. -/
theorem coreStep_history {s t : State} (h : coreStep s = .next t) :
    ∃ q' evs, t.trace = s.trace ++ evs ∧
      coreStep { s with pif := q, trace := tr } = .next { t with pif := q', trace := tr ++ evs } := by
  rcases Bool.eq_false_or_eq_true s.run with hr | hr
  · obtain ⟨i, a, hi, ha, rfl⟩ := coreStep_perform hr h
    obtain ⟨evs, htrace, heq⟩ := perform_history a (s.act.toNat + 1 == (actionsOf i s).length) (primitiveOf i s) s
    obtain ⟨q', hq⟩ := heq q tr
    refine ⟨q', evs, htrace, ?_⟩
    rw [← hq]
    exact coreStep_of_action (s := { s with pif := q, trace := tr }) hr hi ha
  · have hwait : t = s := by simpa [coreStep, hr, eq_comm] using h
    exact ⟨q, [], by simp [hwait], by simp [coreStep, hr, hwait]⟩

end History

/-- Settles O41: HOST's step and CORE's, each with other ports and another history. -/
theorem portsAndHistoryNeverRead : Obligations.PortsAndHistoryNeverRead := by
  unfold Obligations.PortsAndHistoryNeverRead
  intro s t q tr h
  cases hturn : hostTurn s with
  | some x =>
    obtain ⟨a, s'⟩ := x
    obtain ⟨x, rest, -, -, rfl, -⟩ := hostTurn_some hturn
    rw [step_of_hostTurn hturn] at h
    obtain ⟨htrace, hstep⟩ := hostStep_history q tr h
    refine ⟨q, [], by simp [htrace], ?_⟩
    rw [step_of_hostTurn (hostTurn_history q tr hturn), hstep, List.append_nil]
  | none =>
    rw [step, hturn] at h
    rw [step, hostTurn_none_history q tr hturn]
    exact coreStep_history q tr h

end Sys2Proof
end

section
/-! SUPPORT. The wire: the bits of a byte both ways, and the frames of the two transactions (R54, R65, R66, R73). -/

namespace Sys2Proof

open Machine

/-- A byte is the one assembled from eight bits exactly when its own bits, bit 7 first, are those bits (R54). -/
theorem eq_assembleByte_iff (r : Byte) (v : Vector Bit 8) : r = assembleByte v ↔
    r.extractLsb' 7 1 = v[0] ∧ r.extractLsb' 6 1 = v[1] ∧ r.extractLsb' 5 1 = v[2] ∧ r.extractLsb' 4 1 = v[3] ∧
    r.extractLsb' 3 1 = v[4] ∧ r.extractLsb' 2 1 = v[5] ∧ r.extractLsb' 1 1 = v[6] ∧ r.extractLsb' 0 1 = v[7] := by
  constructor
  · intro h
    have hv : v = msbFirst r := by rw [h, msbFirst_assembleByte]
    rw [hv]
    exact ⟨rfl, rfl, rfl, rfl, rfl, rfl, rfl, rfl⟩
  · rintro ⟨h7, h6, h5, h4, h3, h2, h1, h0⟩
    rw [← assembleByte_msbFirst r]
    show _ ++ _ ++ _ ++ _ ++ _ ++ _ ++ _ ++ _ = _
    rw [assembleByte, ← h7, ← h6, ← h5, ← h4, ← h3, ← h2, ← h1, ← h0]
    rfl

/-- A read right after receive-enable supplies what was received exactly when it is the assembled byte. -/
theorem suppliesReceived_receive (dev : LineDevice) (c : WireCursor) (r : Byte) :
    suppliesReceived dev c [.wr (.rcen 1#1), .rdRx r] = true ↔ r = assembleByte (dev.sends c.received) := by
  simp [suppliesReceived, WireCursor.after, receivedByte]

/-- Settles O56: the slots of a sent and of a received byte, and the assembled byte's own bits. -/
theorem bytesTravelMostSignificantBitFirst : Obligations.BytesTravelMostSignificantBitFirst := by
  unfold Obligations.BytesTravelMostSignificantBitFirst
  intro dev c b r
  refine ⟨rfl, rfl, ?_, assembleByte_msbFirst b⟩
  rw [suppliesReceived_receive, eq_assembleByte_iff]

/-- The wire image of a transaction's trace is that of its port writes, however its polls end. -/
theorem wireImage_fillPolls (dev : LineDevice) (c : WireCursor) (items : List SignalItem) {os : List PollOutcome}
    (h : pollItems items = os.length) :
    wireImage dev c (fillPolls items os) = wireImage dev c ((itemWrites items).map .wr) := by
  rw [wireImage_writes, writesOf_fill items os h]

/-- The wire image of WRREG's writes (R65). -/
theorem wireImage_wrreg (dev : LineDevice) (c : WireCursor) (sel : Sel) (raddr : Addr16) (data : Byte) :
    wireImage dev c ((itemWrites (wrregItems sel raddr data)).map .wr) =
      (wrregFrame sel raddr data (fun k => dev.acks (c.sent + k))).symbols := rfl

/-- The wire image of RDREG's writes, the device's bits where receive-enable stands (R66). -/
theorem wireImage_rdreg (dev : LineDevice) (c : WireCursor) (sel : Sel) (raddr : Addr16) (r : Byte)
    (hr : msbFirst r = dev.sends c.received) :
    wireImage dev c ((itemWrites (rdregItems sel raddr)).map .wr) =
      (rdregFrame sel raddr r (fun k => dev.acks (c.sent + k))).symbols := by
  rw [rdregFrame, hr]
  rfl

/-- The byte in `RXREG` after `n + 1` receive-enables. -/
theorem receivedByte_succ (dev : LineDevice) {c : WireCursor} {n : Nat} (h : c.received = n + 1) :
    receivedByte dev c = some (assembleByte (dev.sends n)) := by
  rw [receivedByte, h]

/-- In RDREG the byte supplied as `RXREG` is the one received after its receive-enable. -/
theorem suppliesReceived_rdreg {dev : LineDevice} {c : WireCursor} {sel : Sel} {raddr : Addr16} {r : Byte}
    {os : List PollOutcome} (hos : os.length = 12)
    (h : suppliesReceived dev c (fillPolls (rdregItems sel raddr) os ++ [.rdRx r]) = true) :
    msbFirst r = dev.sends c.received := by
  rw [suppliesReceived_fill dev (rdregItems sel raddr) [.rdRx r] c os hos.symm] at h
  have hcursor : (cursorAfter c (itemWrites (rdregItems sel raddr))).received = c.received + 1 := rfl
  have hr : r = assembleByte (dev.sends c.received) := by
    simpa [suppliesReceived, receivedByte_succ dev hcursor] using h
  rw [hr, msbFirst_assembleByte]

/-- Both frames begin each of their parts with an address byte (R73). -/
theorem wrregFrame_wf (sel : Sel) (raddr : Addr16) (data : Byte) (acks : Nat → Bit) :
    (wrregFrame sel raddr data acks).wf = true := by
  simp [Frame.wf, wrregFrame, startsWithAddress]

theorem rdregFrame_wf (sel : Sel) (raddr : Addr16) (r : Byte) (acks : Nat → Bit) :
    (rdregFrame sel raddr r acks).wf = true := by
  simp [Frame.wf, rdregFrame, startsWithAddress]

/-- Settles O52: the writes of each transaction, slot by slot. -/
theorem wireCarriesTheTransaction : Obligations.WireCarriesTheTransaction := by
  unfold Obligations.WireCarriesTheTransaction
  refine fun dev c sel raddr data r os => ⟨fun hos => ?_, fun hos hsupplied => ?_,
    wrregFrame_wf sel raddr data _, rdregFrame_wf sel raddr r _⟩
  · rw [wireImage_fillPolls dev c (wrregItems sel raddr data) hos.symm, wireImage_wrreg]
  · rw [wireImage_rdRx, wireImage_fillPolls dev c (rdregItems sel raddr) hos.symm,
      wireImage_rdreg dev c sel raddr r (suppliesReceived_rdreg hos hsupplied)]

end Sys2Proof
end
